-- ==== Sys2Proof/Word.lean ====
section
/-!
DEFINITION. Word.lean: the names of the two units, the byte, the bit string and the node handle, from which everything else is built
(spec/00_scope.md rules R1, R9, R12).
-/
namespace Sys2Proof

/-- The two units of the hardware (rule R1): `ENC`, the encoder, and `DEC`, the decoder. -/
inductive UnitId
  | enc
  | dec
deriving DecidableEq, Repr

/-- A byte: 8 bits, bit 7 the most significant (rule R9). A symbol is a byte (rule R5). -/
abbrev Byte := BitVec 8

/-- A bit string in stream order: the head is the first bit emitted and the first one consumed (rule R9).
The Boolean `true` is the bit 1. -/
abbrev Bits := List Bool

/-- A node handle: an index 0 to 510 of a `NODE` array (rules R6 and R12). A handle is a name: no rule adds to it or masks it. -/
abbrev Handle := Fin 511

end Sys2Proof
end

