-- ==== Sys2Proof/Syntax.lean ====
section
/-!
DEFINITION. Syntax.lean: the instructions of the hardware, one constructor for each row of spec/opcode_table.json
(rule R2: the host commands, the phase micro-operations, the tree tokens, the walk bits, the header; and the values read from
the registers STATUS and ERRCODE, which the table lists beside them).
-/
namespace Sys2Proof

/-- One constructor per row of spec/opcode_table.json. A host command or a register value names the unit at whose port it stands;
the words themselves do not hold the unit. -/
inductive Instr
  -- format CMD (rule R108): the value the host writes to CSR 0
  | nop (u : UnitId)
  | start (u : UnitId)
  | clear (u : UnitId)
  | cmdReserved (u : UnitId) (v : Byte)
  -- format PHASE_ENC (rules R27, R111)
  | eIdle
  | eInit
  | eCount
  | eLeaves
  | eMerge
  | eRoot
  | eCodegen
  | eTree
  | eData
  | eFlush
  | eHeader
  | eEmpty
  -- format PHASE_DEC (rules R27, R111)
  | dIdle
  | dInit
  | dHeader
  | dCheck
  | dTree
  | dWalk
  | dFinish
  -- format TOK (rule R93): a token of the tree window
  | tInternal
  | tLeaf (sym : Byte)
  -- format WALK (rules R98, R100): a bit of the data window
  | wLeft
  | wRight
  | sAny (x : Bool)
  -- format HDR (rule R91): originalSize, treeBitLength, paddingBits
  | hdr (originalSize : BitVec 64) (treeBitLength : BitVec 32) (paddingBits : Byte)
  -- format STATUS (rule R109): a value read from CSR 1
  | stIdle (u : UnitId)
  | stBusy (u : UnitId)
  | stDone (u : UnitId)
  | stError (u : UnitId)
  -- format ERR (rules R110, R281): a value read from CSR 4
  | errNone (u : UnitId)
  | hdrShort
  | padRange
  | treeLen
  | treeTrunc
  | treeNodes
  | treeExcess
  | dataTrunc
  | inCap (u : UnitId)
  | outCap (u : UnitId)
deriving DecidableEq, Repr

end Sys2Proof
end

