-- ==== Sys2Proof/WellFormed.lean ====
section
/-!
DEFINITION. WellFormed.lean: which terms of `Instr` stand for an encoding. The only field the table constrains is the value of a
reserved command, 0x03 to 0xFF (rule R108); every other field has exactly the width its encoding gives it (rules R91, R95, R100,
R114), and the causes only DEC raises (rule R281) have no unit field.
-/
namespace Sys2Proof

/-- A reserved command is none of NOP, START, CLEAR (rule R108). -/
def Instr.wf : Instr → Bool
  | .cmdReserved _ v => decide (3 ≤ v.toNat)
  | .nop _ | .start _ | .clear _ => true
  | .eIdle | .eInit | .eCount | .eLeaves | .eMerge | .eRoot | .eCodegen | .eTree | .eData | .eFlush | .eHeader | .eEmpty => true
  | .dIdle | .dInit | .dHeader | .dCheck | .dTree | .dWalk | .dFinish => true
  | .tInternal | .tLeaf _ | .wLeft | .wRight | .sAny _ | .hdr _ _ _ => true
  | .stIdle _ | .stBusy _ | .stDone _ | .stError _ | .errNone _ => true
  | .hdrShort | .padRange | .treeLen | .treeTrunc | .treeNodes | .treeExcess | .dataTrunc | .inCap _ | .outCap _ => true

end Sys2Proof
end

