-- ==== Sys2Proof/Decode.lean ====
section
/-!
DEFINITION. Decode.lean: reading an instruction from bits and writing it as bits (spec/30_encoding.md).

Rule R90: what a bit means is told by where it stands, not by an opcode. So the decoder takes the WINDOW the bits stand in (the CMD
port of a unit, a PHASE register, the tree window, the data window, the header, a STATUS or an ERRCODE register) and reads a bit
string in stream order, first bit left, as the patterns of spec/opcode_table.json are written. It answers the instruction and the
bits left over, or refuses by name.
-/
namespace Sys2Proof

/-! ## Numbers as bit strings (rule R9) -/

/-- The `w`-bit string of the natural `v`, most significant bit first. -/
def natBits : Nat → Nat → Bits
  | 0, _ => []
  | w + 1, v => v.testBit w :: natBits w v

/-- The natural a bit string spells, most significant bit first (rule R96: sym = Σ b_i·2^i). -/
def ofBits : Bits → Nat
  | [] => 0
  | b :: bs => b.toNat * 2 ^ bs.length + ofBits bs

/-- `bin8(s)` of rule R9. -/
def bin8 (s : Byte) : Bits := natBits 8 s.toNat

/-! ## Windows and refusals -/

/-- Where a bit string stands (rule R90). -/
inductive Window
  /-- a value written to CSR 0 CMD of a unit -/
  | cmd (u : UnitId)
  /-- the PHASE register of a unit -/
  | phase (u : UnitId)
  /-- the tree window of DEC's payload -/
  | tok
  /-- the data window of DEC's payload; `rootIsLeaf` says whether the tree is a single Leaf (rule R100) -/
  | walk (rootIsLeaf : Bool)
  /-- the first 13 bytes of a packed file -/
  | hdr
  /-- a value read from CSR 1 STATUS of a unit -/
  | status (u : UnitId)
  /-- a value read from CSR 4 ERRCODE of a unit -/
  | err (u : UnitId)
deriving DecidableEq, Repr

/-- Why the decoder refuses. -/
inductive Reject
  /-- fewer bits than the format needs -/
  | truncated
  /-- a PHASE value rule R27 reserves -/
  | reservedPhase
  /-- STATUS[7:2] not zero (rule R109) -/
  | undefinedStatus
  /-- a value outside the table of rule R281 for this unit -/
  | undefinedErrCode
deriving DecidableEq, Repr

/-- The first `n` bits as a number, and the rest. -/
def takeNat (n : Nat) (bs : Bits) : Option (Nat × Bits) :=
  if bs.length < n then none else some (ofBits (bs.take n), bs.drop n)

/-! ## The decoder -/

/-- CMD values (rule R108); total on bytes. -/
def decodeCmd (u : UnitId) (v : Nat) : Instr :=
  if v = 0 then .nop u
  else if v = 1 then .start u
  else if v = 2 then .clear u
  else .cmdReserved u (BitVec.ofNat 8 v)

/-- ENC.PHASE values (rule R27); 12 to 15 are reserved. -/
def decodeEncPhase : Nat → Option Instr
  | 0 => some .eIdle
  | 1 => some .eInit
  | 2 => some .eCount
  | 3 => some .eLeaves
  | 4 => some .eMerge
  | 5 => some .eRoot
  | 6 => some .eCodegen
  | 7 => some .eTree
  | 8 => some .eData
  | 9 => some .eFlush
  | 10 => some .eHeader
  | 11 => some .eEmpty
  | _ => none

/-- DEC.PHASE values (rule R27); 7 to 15 are reserved. -/
def decodeDecPhase : Nat → Option Instr
  | 0 => some .dIdle
  | 1 => some .dInit
  | 2 => some .dHeader
  | 3 => some .dCheck
  | 4 => some .dTree
  | 5 => some .dWalk
  | 6 => some .dFinish
  | _ => none

/-- The PHASE register of either unit. -/
def decodePhase : UnitId → Nat → Option Instr
  | .enc, v => decodeEncPhase v
  | .dec, v => decodeDecPhase v

/-- STATUS values (rules R23, R109). -/
def decodeStatus (u : UnitId) : Nat → Option Instr
  | 0 => some (.stIdle u)
  | 1 => some (.stBusy u)
  | 2 => some (.stDone u)
  | 3 => some (.stError u)
  | _ => none

/-- ERRCODE values (rules R110, R281); the CorruptData causes are DEC's alone. -/
def decodeErr (u : UnitId) (v : Nat) : Option Instr :=
  if v = 0x00 then some (.errNone u)
  else if v = 0x21 then some (.inCap u)
  else if v = 0x22 then some (.outCap u)
  else match u with
    | .enc => none
    | .dec =>
      if v = 0x11 then some .hdrShort
      else if v = 0x12 then some .padRange
      else if v = 0x13 then some .treeLen
      else if v = 0x14 then some .treeTrunc
      else if v = 0x15 then some .treeNodes
      else if v = 0x16 then some .treeExcess
      else if v = 0x17 then some .dataTrunc
      else none

/-- A tree token: the first bit tells its length (rules R93, R97). -/
def decodeTok : Bits → Except Reject (Instr × Bits)
  | [] => .error .truncated
  | false :: rest => .ok (.tInternal, rest)
  | true :: rest =>
    match takeNat 8 rest with
    | some (v, rest') => .ok (.tLeaf (BitVec.ofNat 8 v), rest')
    | none => .error .truncated

/-- A walk bit (rules R98, R100). -/
def decodeWalk (rootIsLeaf : Bool) : Bits → Except Reject (Instr × Bits)
  | [] => .error .truncated
  | b :: rest => .ok (if rootIsLeaf then .sAny b else if b then .wRight else .wLeft, rest)

/-- The header: 64, 32 and 8 bits, every value legal (rule R91). -/
def decodeHdr (bs : Bits) : Except Reject (Instr × Bits) :=
  match takeNat 64 bs with
  | none => .error .truncated
  | some (o, bs1) =>
    match takeNat 32 bs1 with
    | none => .error .truncated
    | some (t, bs2) =>
      match takeNat 8 bs2 with
      | none => .error .truncated
      | some (p, rest) => .ok (.hdr (BitVec.ofNat 64 o) (BitVec.ofNat 32 t) (BitVec.ofNat 8 p), rest)

/-- Reads a register of `n` bits and looks its value up. -/
def decodeReg (n : Nat) (why : Reject) (look : Nat → Option Instr) (bs : Bits) : Except Reject (Instr × Bits) :=
  match takeNat n bs with
  | none => .error .truncated
  | some (v, rest) =>
    match look v with
    | some i => .ok (i, rest)
    | none => .error why

/-- The decoder: total on any bit string, refusing by name. -/
def decode (w : Window) (bs : Bits) : Except Reject (Instr × Bits) :=
  match w with
  | .cmd u => decodeReg 8 .truncated (fun v => some (decodeCmd u v)) bs
  | .phase u => decodeReg 4 .reservedPhase (decodePhase u) bs
  | .tok => decodeTok bs
  | .walk leaf => decodeWalk leaf bs
  | .hdr => decodeHdr bs
  | .status u => decodeReg 8 .undefinedStatus (decodeStatus u) bs
  | .err u => decodeReg 8 .undefinedErrCode (decodeErr u) bs

/-! ## The encoder -/

/-- The window an instruction's bits stand in. -/
def Instr.window : Instr → Window
  | .nop u | .start u | .clear u | .cmdReserved u _ => .cmd u
  | .eIdle | .eInit | .eCount | .eLeaves | .eMerge | .eRoot | .eCodegen | .eTree | .eData | .eFlush | .eHeader | .eEmpty => .phase .enc
  | .dIdle | .dInit | .dHeader | .dCheck | .dTree | .dWalk | .dFinish => .phase .dec
  | .tInternal | .tLeaf _ => .tok
  | .wLeft | .wRight => .walk false
  | .sAny _ => .walk true
  | .hdr _ _ _ => .hdr
  | .stIdle u | .stBusy u | .stDone u | .stError u => .status u
  | .errNone u | .inCap u | .outCap u => .err u
  | .hdrShort | .padRange | .treeLen | .treeTrunc | .treeNodes | .treeExcess | .dataTrunc => .err .dec

/-- The bits of an instruction, from the column `encoding` of spec/opcode_table.json (rules R91, R93, R98, R100, R108 to R111, R281). -/
def encode : Instr → Bits
  | .nop _ => natBits 8 0x00
  | .start _ => natBits 8 0x01
  | .clear _ => natBits 8 0x02
  | .cmdReserved _ v => bin8 v
  | .eIdle => natBits 4 0
  | .eInit => natBits 4 1
  | .eCount => natBits 4 2
  | .eLeaves => natBits 4 3
  | .eMerge => natBits 4 4
  | .eRoot => natBits 4 5
  | .eCodegen => natBits 4 6
  | .eTree => natBits 4 7
  | .eData => natBits 4 8
  | .eFlush => natBits 4 9
  | .eHeader => natBits 4 10
  | .eEmpty => natBits 4 11
  | .dIdle => natBits 4 0
  | .dInit => natBits 4 1
  | .dHeader => natBits 4 2
  | .dCheck => natBits 4 3
  | .dTree => natBits 4 4
  | .dWalk => natBits 4 5
  | .dFinish => natBits 4 6
  | .tInternal => [false]
  | .tLeaf s => true :: bin8 s
  | .wLeft => [false]
  | .wRight => [true]
  | .sAny x => [x]
  | .hdr o t p => natBits 64 o.toNat ++ (natBits 32 t.toNat ++ bin8 p)
  | .stIdle _ => natBits 8 0x00
  | .stBusy _ => natBits 8 0x01
  | .stDone _ => natBits 8 0x02
  | .stError _ => natBits 8 0x03
  | .errNone _ => natBits 8 0x00
  | .hdrShort => natBits 8 0x11
  | .padRange => natBits 8 0x12
  | .treeLen => natBits 8 0x13
  | .treeTrunc => natBits 8 0x14
  | .treeNodes => natBits 8 0x15
  | .treeExcess => natBits 8 0x16
  | .dataTrunc => natBits 8 0x17
  | .inCap _ => natBits 8 0x21
  | .outCap _ => natBits 8 0x22

/-- The width column of spec/opcode_table.json. -/
def Instr.width : Instr → Nat
  | .nop _ | .start _ | .clear _ | .cmdReserved _ _ => 8
  | .eIdle | .eInit | .eCount | .eLeaves | .eMerge | .eRoot | .eCodegen | .eTree | .eData | .eFlush | .eHeader | .eEmpty => 4
  | .dIdle | .dInit | .dHeader | .dCheck | .dTree | .dWalk | .dFinish => 4
  | .tLeaf _ => 9
  | .tInternal | .wLeft | .wRight | .sAny _ => 1
  | .hdr _ _ _ => 104
  | .stIdle _ | .stBusy _ | .stDone _ | .stError _ => 8
  | .errNone _ | .hdrShort | .padRange | .treeLen | .treeTrunc | .treeNodes | .treeExcess | .dataTrunc | .inCap _ | .outCap _ => 8

/-! ## A bare word of the table

The table's words overlap: the byte 0x00 is NOP, E_IDLE, D_IDLE, T_INTERNAL, W_LEFT, ST_IDLE and ERR_NONE, and only the window tells them
apart (rule R90). A bare word comes without its window, so one is picked for it from its width and value, so that as many rows as
possible are read back (DESIGN CHOICE, notes/assumptions/10.md). -/

/-- The window a bare word of the table is taken to stand in, and the bits it has there. -/
def tableWindow (nbits w : Nat) : Option (Window × Bits) :=
  if nbits = 8 then
    if w ≤ 2 then some (.cmd .enc, natBits 8 w)
    else if w ≤ 11 then some (.phase .enc, natBits 4 w)
    else if (0x11 ≤ w ∧ w ≤ 0x17) ∨ w = 0x21 ∨ w = 0x22 then some (.err .dec, natBits 8 w)
    else some (.cmd .enc, natBits 8 w)
  else if nbits = 9 ∨ nbits = 16 then some (.tok, natBits 9 w)
  else if nbits = 104 then some (.hdr, natBits 104 w)
  else if nbits = 4 then some (.phase .enc, natBits 4 w)
  else if nbits = 1 then if w = 0 then some (.tok, natBits 1 w) else some (.walk false, natBits 1 w)
  else none

/-- The instruction the decoder reads from a bare word of spec/opcode_table.json. -/
def decodeTableWord (nbits w : Nat) : Option Instr :=
  match tableWindow nbits w with
  | none => none
  | some (win, bs) =>
    match decode win bs with
    | .ok (i, _) => some i
    | .error _ => none

end Sys2Proof
end

