-- ==== Sys2Proof/Config.lean ====
section
/-!
DEFINITION. Config.lean: the parameters an implementation fixes (rule R7) and the free values of the model (rules R255, R327;
notes/assumptions/4.md and 5.md).
-/
namespace Sys2Proof

/-- The parameters of rule R7. Rule R43: they are fixed for the life of the hardware, so no step changes them. -/
structure Config where
  /-- ENC_IN_CAP: bytes in ENC.IBUF. -/
  encInCap : Nat
  /-- ENC_OUT_CAP: bytes in ENC.OBUF. -/
  encOutCap : Nat
  /-- DEC_IN_CAP: bytes in DEC.IBUF. -/
  decInCap : Nat
  /-- DEC_OUT_CAP: bytes in DEC.OBUF. -/
  decOutCap : Nat
  /-- TIEBREAK, as a rank for each handle: among equal frequencies the smaller rank comes first and, between equal ranks, the
  smaller handle. A handle that the list does not reach has itself as rank, so `[]` is the order by handle, the default and the
  only value rule R142 specifies (notes/assumptions/2.md). -/
  tieRank : List Nat
deriving DecidableEq, Repr

/-- Rule R7's constraint column: a configuration that breaks it is ill-formed. -/
abbrev Config.wf (c : Config) : Prop :=
  c.encInCap ≤ 2 ^ 60 ∧ c.encInCap + 333 ≤ c.encOutCap ∧ 13 ≤ c.decInCap ∧ c.decInCap ≤ 2 ^ 60 ∧ c.decOutCap < 2 ^ 64

/-- The configuration the reset state carries: the smallest capacities spec/95_test_vectors.md asks for and the default TIEBREAK
(DESIGN CHOICE, notes/assumptions/1.md). Statements hold for every configuration. -/
def Config.default : Config :=
  { encInCap := 1000, encOutCap := 1333, decInCap := 1333, decOutCap := 1000, tieRank := [] }

/-- FREE VALUE (rule R327, notes/assumptions/4.md): the byte an IBUF cell of a unit holds when nothing has written it since reset.
The first number counts the resets so far, the second is the address. -/
opaque Config.freeCell : UnitId → Nat → Nat → Byte

/-- FREE VALUE (rules R66 and R255, notes/assumptions/5.md): the unspecified byte a `BufRead` outside the result returns.
The number is the port's count of such reads, so that two reads need not agree. -/
opaque Config.freeByte : UnitId → Nat → Byte

/-- FREE VALUE (rule R142, notes/assumptions/6.md): the handle `ExtractMin` gives on an empty queue, where the spec defines none.
The number counts such extractions. -/
opaque Config.freeHandle : Nat → Handle

end Sys2Proof
end

