-- ==== Sys2Proof/Machine/State.lean ====
section
/-!
DEFINITION. Machine/State.lean: the state of the machine as plain data (spec/10_state.md), its faults and refusals, and the reset state
(rules R45, R320). INVENTORY.md lists every field with its rule and its reset value.
-/
namespace Sys2Proof.Machine

/-! ## Registers -/

/-- STATUS.STATE (rule R23). -/
inductive RunState
  | idle
  | busy
  | done
  | error
deriving DecidableEq, Repr

/-- The values ERRCODE can hold (rule R281: no other value is ever written). -/
inductive ErrCode
  | none
  | hdrShort
  | padRange
  | treeLen
  | treeTrunc
  | treeNodes
  | treeExcess
  | dataTrunc
  | inCap
  | outCap
deriving DecidableEq, Repr

/-- The control registers of one unit: STATUS.STATE, IN_LEN, OUT_LEN, ERRCODE (rules R23 to R26) and PHASE (rule R27).
CMD is no storage (rule R22). -/
structure Ctl where
  state   : RunState
  inLen   : BitVec 64
  outLen  : BitVec 64
  errCode : ErrCode
  phase   : BitVec 4
deriving DecidableEq, Repr

/-- An encoder node record (rule R30). -/
inductive EncNode
  | leaf (sym : Byte) (freq : BitVec 64)
  | internal (freq : BitVec 64) (left right : Handle)
deriving DecidableEq, Repr

/-- A decoder node record (rule R37: no frequency). -/
inductive DecNode
  | leaf (sym : Byte)
  | internal (left right : Handle)
deriving DecidableEq, Repr

/-- One entry of the deserializer's stack (rule R42(b)): an Internal node whose left, or whose right, subtree is being read. -/
inductive Frame
  | needLeft (h : Handle)
  | needRight (h : Handle) (left : Handle)
deriving DecidableEq, Repr

/-- A byte memory (rule R60): the cells written since reset, as (address, byte), addresses strictly rising. An address that is not
listed has no value of its own (notes/assumptions/4.md). -/
abbrev Memory := List Host.Cell

/-! ## The units -/

/-- ENC (rules R28 to R35, R40). -/
structure Enc where
  ctl      : Ctl
  ibuf     : Memory
  obuf     : Memory
  rd       : BitVec 64
  freq     : Vector (BitVec 64) 256
  node     : Vector EncNode 511
  nnode    : Fin 512
  root     : Handle
  /-- PQ: a set of handles, kept as the list of its members in rising order (rule R32). -/
  pq       : List Handle
  code     : Vector Bits 256
  acc      : Byte
  nb       : BitVec 3
  wr       : BitVec 64
  nbits    : Nat
  origSize : BitVec 64
  treeBits : BitVec 32
  padBits  : Byte
  /-- MODEL's own: the number of resets so far, which indexes the free contents of unwritten cells. -/
  epoch    : Nat
  /-- MODEL's own: the number of free handles drawn. -/
  draw     : Nat
deriving DecidableEq, Repr

/-- DEC (rules R35 to R38, R40). -/
structure Dec where
  ctl      : Ctl
  ibuf     : Memory
  obuf     : Memory
  node     : Vector DecNode 511
  nnode    : Fin 512
  cur      : Handle
  wr       : BitVec 64
  avail    : Nat
  bitpos   : Nat
  origSize : BitVec 64
  treeBits : BitVec 32
  padBits  : Byte
  /-- The deserializer's stack (rule R42(b)), used when the tokens of D_TREE are taken one a step. -/
  stack    : List Frame
  /-- MODEL's own: a codeword has been begun and not ended, when the walk bits of D_WALK are taken one a step. -/
  inSym    : Bool
  /-- MODEL's own: the number of resets so far, which indexes the free contents of unwritten cells. -/
  epoch    : Nat
deriving DecidableEq, Repr

/-! ## The host port -/

/-- A host transaction on one unit (rule R250). -/
inductive Txn
  | csrRead (idx : Nat)
  | csrWrite (idx : Nat) (v : Nat)
  | bufWrite (addr : Nat) (b : Byte)
  | bufRead (addr : Nat)
deriving DecidableEq, Repr

/-- What a transaction returned: an 8-bit or a 64-bit value (rule R76). -/
inductive ReadData
  | byte (v : Byte)
  | word (v : BitVec 64)
deriving DecidableEq, Repr

/-- The host port of one unit. -/
structure Port where
  /-- The one transaction not yet accepted (rules R261, R263); `none`: the port is free. -/
  held  : Option Txn
  /-- What the last accepted read returned; `none`: no read has returned yet. -/
  rdata : Option ReadData
  /-- MODEL's own: the number of unspecified bytes returned. -/
  draw  : Nat
deriving DecidableEq, Repr

/-- What the outside still does to the hardware, in order: transactions (rule R250) and the reset event (rule R320). -/
inductive HostEvent
  | txn (u : UnitId) (t : Txn)
  | reset
deriving DecidableEq, Repr

/-! ## Whose step it is -/

/-- The agents of rule R20, with the host's side cut in three: the host presenting its next event, and the port of each unit accepting
the transaction it holds. -/
inductive Agent
  | host
  | port (u : UnitId)
  | unit (u : UnitId)
deriving DecidableEq, Repr

/-- How much DEC does in one step (notes/assumptions/3.md): a whole micro-operation (rule R11), or one element of the stream it
interprets (a header, a token, a walk bit; rule R36). Rules R11 and R263: the host cannot tell. -/
inductive Grain
  | microOp
  | stream
deriving DecidableEq, Repr

/-- The state of the machine. -/
structure State where
  /-- The parameters of rule R7; no step changes them (rule R43, notes/assumptions/1.md). -/
  cfg     : Config
  enc     : Enc
  dec     : Dec
  encPort : Port
  decPort : Port
  /-- The host's events still to come, the next one first (notes/assumptions/7.md). -/
  script  : List HostEvent
  /-- Who takes the next steps, the next one first (notes/assumptions/8.md). -/
  sched   : List Agent
  /-- Who takes the next step when `sched` is empty. -/
  turn    : Agent
  grain   : Grain
deriving DecidableEq, Repr

/-! ## Stops -/

/-- Why the machine stops. Every constructor is SAFE, and none can arise in a state that meets `Inv` (Sys2Proof/Safety.lean). -/
inductive Fault
  /-- Raised by a step whose PHASE, STATUS or ERRCODE register holds a value rules R27, R109 or R281 do not define for the unit
  (rule R27: never reached). -/
  | undefinedWord (u : UnitId)
  /-- Raised by a micro-operation that would access a buffer at or above its capacity (rules R10, R60: no such cell). -/
  | noSuchCell (u : UnitId)
  /-- Raised by E_LEAVES and E_MERGE when all 511 records are in use (rule R31: no such record). -/
  | noSuchNode
  /-- Raised by E_CODEGEN and E_TREE when a child's handle is not below its parent's, so that the recursion of rules R151 and R161
  would not end (rule R31). -/
  | endlessTree
  /-- Raised by W_LEFT and W_RIGHT when the walk stands at a Leaf and by S_ANY when the root is Internal: rules R98 and R100 give these
  bits no meaning there. -/
  | walkShape
deriving DecidableEq, Repr

/-- Why the machine refuses. -/
inductive Refusal
  /-- Raised by `exec` alone, for an instruction without a meaning yet (none is left). SAFE. -/
  | notModelled (mnemonic : String)
  /-- Raised by a step whose host presents a transaction rule R265 does not admit: "a model refuses them (the host has no such move)".
  SAFE. -/
  | notAdmitted (u : UnitId)
deriving DecidableEq, Repr

/-! ## Reset (rules R45, R320; for the values the spec leaves unspecified, notes/assumptions/9.md) -/

/-- The control registers after reset. -/
def Ctl.reset : Ctl := { state := .idle, inLen := 0, outLen := 0, errCode := .none, phase := 0 }

/-- ENC after reset. -/
def Enc.reset : Enc :=
  { ctl := Ctl.reset, ibuf := [], obuf := [], rd := 0, freq := Vector.replicate 256 0,
    node := Vector.replicate 511 (.leaf 0 0), nnode := 0, root := 0, pq := [], code := Vector.replicate 256 [],
    acc := 0, nb := 0, wr := 0, nbits := 0, origSize := 0, treeBits := 0, padBits := 0, epoch := 0, draw := 0 }

/-- DEC after reset. -/
def Dec.reset : Dec :=
  { ctl := Ctl.reset, ibuf := [], obuf := [], node := Vector.replicate 511 (.leaf 0), nnode := 0, cur := 0, wr := 0,
    avail := 0, bitpos := 0, origSize := 0, treeBits := 0, padBits := 0, stack := [], inSym := false, epoch := 0 }

/-- A port after reset of the model: nothing held, nothing returned. -/
def Port.reset : Port := { held := none, rdata := none, draw := 0 }

/-- The machine right after reset: both units IDLE, buffers with no cell written, no host event. -/
def State.reset : State :=
  { cfg := Config.default, enc := Enc.reset, dec := Dec.reset, encPort := Port.reset, decPort := Port.reset,
    script := [], sched := [], turn := .host, grain := .microOp }

end Sys2Proof.Machine
end

