-- ==== Sys2Proof/Machine/Ops.lean ====
section
/-!
DEFINITION. Machine/Ops.lean: the named operations over memory, registers, ports, the bit-packer and the bit-unpacker, and the two
operations every fault goes through: taking it (rule R290) and leaving it (rules R257, R295).
-/
namespace Sys2Proof.Machine

/-! ## Byte memories (rules R60, R62) -/

/-- The byte written at an address, if one was. -/
def Memory.read : Memory → Nat → Option Byte
  | [], _ => none
  | (a, b) :: m, k => if k = a then some b else Memory.read m k

/-- A store of one byte; it keeps the addresses strictly rising. -/
def Memory.write : Memory → Nat → Byte → Memory
  | [], k, v => [(k, v)]
  | (a, b) :: m, k, v =>
    if k < a then (k, v) :: (a, b) :: m
    else if k = a then (k, v) :: m
    else (a, b) :: Memory.write m k v

/-- `MemWrite(M, addr, n, v)` of rule R10: the bytes of `v` at rising addresses. -/
def Memory.writeBytes : Memory → Nat → List Byte → Memory
  | m, _, [] => m
  | m, k, b :: bs => Memory.writeBytes (Memory.write m k b) (k + 1) bs

/-- The canonical form: addresses strictly rising. (An unlisted address has no value, so no listed cell can equal it.) -/
abbrev Memory.wf (m : Memory) : Prop := m.Pairwise (fun c d => c.1 < d.1)

/-- The byte a unit reads from a cell of its IBUF: the byte written last since reset or, if none was (rule R327), the free value of
the cell (notes/assumptions/4.md). Reading twice gives the same byte (rule R65). -/
def cellByte (u : UnitId) (epoch : Nat) (m : Memory) (addr : Nat) : Byte :=
  (Memory.read m addr).getD (Config.freeCell u epoch addr)

/-- `MemRead(M, addr, n)` of rule R10. -/
def cellBytes (u : UnitId) (epoch : Nat) (m : Memory) (addr : Nat) : Nat → List Byte
  | 0 => []
  | n + 1 => cellByte u epoch m addr :: cellBytes u epoch m (addr + 1) n

/-! ## Capacities (rule R7) -/

/-- Bytes in a unit's IBUF. -/
def inCapOf (c : Config) : UnitId → Nat
  | .enc => c.encInCap
  | .dec => c.decInCap

/-- Bytes in a unit's OBUF. -/
def outCapOf (c : Config) : UnitId → Nat
  | .enc => c.encOutCap
  | .dec => c.decOutCap

/-! ## The phases (rule R27)

The numbers are those of the table of rule R27; Tests/Slice0.lean checks each against the encoder of Decode.lean. -/

def phIdle : BitVec 4 := 0
def phInit : BitVec 4 := 1

def phECount : BitVec 4 := 2
def phELeaves : BitVec 4 := 3
def phEMerge : BitVec 4 := 4
def phERoot : BitVec 4 := 5
def phECodegen : BitVec 4 := 6
def phETree : BitVec 4 := 7
def phEData : BitVec 4 := 8
def phEFlush : BitVec 4 := 9
def phEHeader : BitVec 4 := 10
def phEEmpty : BitVec 4 := 11

def phDHeader : BitVec 4 := 2
def phDCheck : BitVec 4 := 3
def phDTree : BitVec 4 := 4
def phDWalk : BitVec 4 := 5
def phDFinish : BitVec 4 := 6

/-! ## Taking a fault and leaving it -/

/-- FAULT ENTRY (rule R290): STATE <- ERROR, ERRCODE <- code, OUT_LEN <- 0, PHASE <- idle. Nothing else is saved, and IN_LEN stays. -/
def raiseFault (code : ErrCode) (c : Ctl) : Ctl :=
  { c with state := .error, errCode := code, outLen := 0, phase := phIdle }

/-- LEAVING ERROR or DONE by CLEAR (rules R257, R295): STATE <- IDLE, OUT_LEN <- 0, ERRCODE <- 0. Nothing is restored, and IN_LEN stays. -/
def clearOutcome (c : Ctl) : Ctl := { c with state := .idle, outLen := 0, errCode := .none }

/-- The beginning of a run (rule R256): STATE <- BUSY, PHASE <- E_INIT or D_INIT. -/
def beginRun (c : Ctl) : Ctl := { c with state := .busy, phase := phInit }

/-- The end of a run without fault (rules R209, R210, R229): OUT_LEN <- the result length, STATE <- DONE, PHASE <- idle. -/
def endRun (n : BitVec 64) (c : Ctl) : Ctl := { c with outLen := n, state := .done, phase := phIdle }

/-- What both INIT micro-operations do first (rules R201, R221): OUT_LEN <- 0, ERRCODE <- 0. -/
def initOutcome (c : Ctl) : Ctl := { c with outLen := 0, errCode := .none }

/-- `PHASE <- p`. -/
def gotoPhase (p : BitVec 4) (c : Ctl) : Ctl := { c with phase := p }

/-! ## The outcome of a micro-operation -/

/-- A piece of a micro-operation over a unit `σ`: it goes on with a value, or it raises a fault (rule R10) and leaves the working
registers as they stand. -/
inductive Micro (σ α : Type) where
  | ok (a : α) (s : σ)
  | raise (code : ErrCode) (s : σ)
deriving DecidableEq, Repr

/-- Sequence: what follows runs unless a fault was raised. -/
def Micro.bind {σ α β : Type} (m : Micro σ α) (f : α → σ → Micro σ β) : Micro σ β :=
  match m with
  | .ok a s => f a s
  | .raise c s => .raise c s

/-- ENC after a micro-operation; a raised fault takes the fault entry (rule R290). -/
def settleEnc (m : Micro Enc Unit) : Enc :=
  match m with
  | .ok _ e => e
  | .raise c e => { e with ctl := raiseFault c e.ctl }

/-- DEC after a micro-operation; a raised fault takes the fault entry (rule R290), and the deserializer's stack is dropped with the
run. -/
def settleDec (m : Micro Dec Unit) : Dec :=
  match m with
  | .ok _ d => d
  | .raise c d => { d with ctl := raiseFault c d.ctl, stack := [], inSym := false }

/-! ## The bit-packer (rules R181, R182) -/

/-- `PutBit(b)` (rule R181): the bit goes to bit 7 - NB of ACC, and a full byte is stored at WR. -/
def putBit (cfg : Config) (b : Bool) (e : Enc) : Micro Enc Unit :=
  let acc := e.acc ||| ((if b then (1 : Byte) else 0) <<< (7 - e.nb.toNat))
  let filled : Enc := { e with acc := acc, nb := e.nb + 1, nbits := e.nbits + 1 }
  if e.nb.toNat + 1 = 8 then
    if cfg.encOutCap ≤ e.wr.toNat then .raise .outCap filled
    else .ok () { filled with obuf := Memory.write e.obuf e.wr.toNat acc, wr := e.wr + 1, acc := 0, nb := 0 }
  else .ok () filled

/-- `PutBits(w)` (rule R182): `PutBit` of each bit, the first one first. -/
def putBits (cfg : Config) : Bits → Enc → Micro Enc Unit
  | [], e => .ok () e
  | b :: bs, e => (putBit cfg b e).bind fun _ e' => putBits cfg bs e'

/-! ## The bit-unpacker (rules R185, R186) -/

/-- The payload bit at a stream position (rules R9, R73): bit 7 - (pos mod 8) of the byte at address 13 + (pos div 8). -/
def payloadBit (d : Dec) (pos : Nat) : Bool :=
  (cellByte .dec d.epoch d.ibuf (13 + pos / 8)).getLsbD (7 - pos % 8)

/-- The test and the move of `GetBit` without the read (rule R185): at or past the limit the fault is raised and BITPOS stays, else
BITPOS moves by one. -/
def passBit (limit : Nat) (cause : ErrCode) (d : Dec) : Micro Dec Unit :=
  if limit ≤ d.bitpos then .raise cause d else .ok () { d with bitpos := d.bitpos + 1 }

/-- `GetBit(limit, cause)` (rule R185). -/
def getBit (limit : Nat) (cause : ErrCode) (d : Dec) : Micro Dec Bool :=
  (passBit limit cause d).bind fun _ d' => .ok (payloadBit d d.bitpos) d'

/-- `GetBits(n, limit, cause)` (rule R186) as a number, the first bit read the most significant; `acc` holds the bits read before. -/
def getBitsFrom (limit : Nat) (cause : ErrCode) : Nat → Nat → Dec → Micro Dec Nat
  | 0, acc, d => .ok acc d
  | n + 1, acc, d => (getBit limit cause d).bind fun b d' => getBitsFrom limit cause n (2 * acc + b.toNat) d'

/-- `GetBits(n, limit, cause)` (rule R186). -/
def getBits (n limit : Nat) (cause : ErrCode) (d : Dec) : Micro Dec Nat := getBitsFrom limit cause n 0 d

/-- `n` bits passed over one by one, their values not examined. -/
def passBits (limit : Nat) (cause : ErrCode) : Nat → Dec → Micro Dec Unit
  | 0, d => .ok () d
  | n + 1, d => (passBit limit cause d).bind fun _ d' => passBits limit cause n d'

/-- Every position below the limit lies in DEC.IBUF (rule R64). -/
def windowFits (cfg : Config) (limit : Nat) : Bool := decide (limit ≤ 8 * (cfg.decInCap - 13))

/-! ## The machine's parts -/

/-- `s` with another ENC. -/
def State.setEnc (s : State) (e : Enc) : State := { s with enc := e }

/-- `s` with another DEC. -/
def State.setDec (s : State) (d : Dec) : State := { s with dec := d }

/-- The control registers of a unit. -/
def State.ctl (s : State) : UnitId → Ctl
  | .enc => s.enc.ctl
  | .dec => s.dec.ctl

/-- `s` with other control registers in a unit. -/
def State.setCtl (s : State) (u : UnitId) (c : Ctl) : State :=
  match u with
  | .enc => s.setEnc { s.enc with ctl := c }
  | .dec => s.setDec { s.dec with ctl := c }

/-- The host port of a unit. -/
def State.port (s : State) : UnitId → Port
  | .enc => s.encPort
  | .dec => s.decPort

/-- `s` with another port at a unit. -/
def State.setPort (s : State) (u : UnitId) (p : Port) : State :=
  match u with
  | .enc => { s with encPort := p }
  | .dec => { s with decPort := p }

/-- `s` with other host events to come. -/
def State.setScript (s : State) (l : List HostEvent) : State := { s with script := l }

/-- `s` with other steps fixed. -/
def State.setSched (s : State) (l : List Agent) : State := { s with sched := l }

/-- `s` with another agent to follow. -/
def State.setTurn (s : State) (a : Agent) : State := { s with turn := a }

/-- A unit's IBUF. -/
def State.ibuf (s : State) : UnitId → Memory
  | .enc => s.enc.ibuf
  | .dec => s.dec.ibuf

/-- `s` with another IBUF in a unit. -/
def State.setIbuf (s : State) (u : UnitId) (m : Memory) : State :=
  match u with
  | .enc => s.setEnc { s.enc with ibuf := m }
  | .dec => s.setDec { s.dec with ibuf := m }

/-- A unit's OBUF. -/
def State.obuf (s : State) : UnitId → Memory
  | .enc => s.enc.obuf
  | .dec => s.dec.obuf

/-! ## The host port (rules R250, R261, R263) -/

/-- The port keeps a transaction that is not accepted yet (rule R263: "held"). -/
def State.hold (s : State) (u : UnitId) (t : Txn) : State := s.setPort u { s.port u with held := some t }

/-- The port returns a value. -/
def State.respond (s : State) (u : UnitId) (v : ReadData) : State := s.setPort u { s.port u with rdata := some v }

end Sys2Proof.Machine
end

