-- ==== Sys2Proof/Machine/Flags.lean ====
section
/-!
DEFINITION. Machine/Flags.lean: STATE, the only flag-like state of a unit (rules R23, R41), the words STATUS and ERRCODE show, and the
conditions that steer the phase graph, which are computed and not stored (rule R41).
-/
namespace Sys2Proof.Machine

/-- The number of a STATE value (rules R23, R109). -/
def stateNumber : RunState → BitVec 2
  | .idle => 0
  | .busy => 1
  | .done => 2
  | .error => 3

/-- STATUS as the host reads it: STATE in bits 1:0, bits 7:2 zero (rules R23, R109). -/
def statusWord (r : RunState) : Byte := (stateNumber r).setWidth 8

/-- ERRCODE as the host reads it: class in bits 7:4, cause in bits 3:0 (rules R110, R281). -/
def errWord : ErrCode → Byte
  | .none => 0x00
  | .hdrShort => 0x11
  | .padRange => 0x12
  | .treeLen => 0x13
  | .treeTrunc => 0x14
  | .treeNodes => 0x15
  | .treeExcess => 0x16
  | .dataTrunc => 0x17
  | .inCap => 0x21
  | .outCap => 0x22

/-- A unit that is BUSY accepts no transaction but a read of STATUS (rule R263). -/
def State.isBusy (s : State) (u : UnitId) : Bool := decide ((s.ctl u).state = .busy)

/-- `BufRead` returns a byte of the result exactly here (rule R255). -/
def resultReadable (c : Ctl) (addr : Nat) : Bool := decide (c.state = .done ∧ addr < c.outLen.toNat)

/-- The root of DEC's tree is a Leaf (rules R226, R227). -/
def rootIsLeaf (d : Dec) : Bool :=
  match d.node[0] with
  | .leaf _ => true
  | .internal _ _ => false

end Sys2Proof.Machine
end

