-- ==== Sys2Proof/Machine/Operands.lean ====
section
/-!
DEFINITION. Machine/Operands.lean: the operands of this hardware and how they are assembled: the header's big-endian integers (rules R72,
R91), the bits a token or a walk bit is read from (rules R36, R96, R98), the register arrays indexed by a symbol or a handle (rules R29
to R33), and the transactions the host may present (rules R112, R265).
-/
namespace Sys2Proof.Machine

/-! ## Big-endian integers (rule R72) -/

/-- The `n` big-endian bytes of `v`: `BE64`, `BE32` of rule R9 for n = 8, 4. -/
def beBytes : Nat → Nat → List Byte
  | 0, _ => []
  | n + 1, v => BitVec.ofNat 8 (v / 256 ^ n) :: beBytes n v

/-- The number a big-endian byte string spells: Σ byte[i]·256^(n-1-i). -/
def beValue : List Byte → Nat
  | [] => 0
  | b :: bs => b.toNat * 256 ^ bs.length + beValue bs

/-- The 13 header bytes of a packed file (rules R70, R72, R209). -/
def headerBytes (o : BitVec 64) (t : BitVec 32) (p : Byte) : List Byte :=
  beBytes 8 o.toNat ++ (beBytes 4 t.toNat ++ [p])

/-- originalSize of 13 header bytes (rules R72, R222). -/
def hdrOriginalSize (h : List Byte) : BitVec 64 := BitVec.ofNat 64 (beValue (h.take 8))

/-- treeBitLength of 13 header bytes (rules R72, R222). -/
def hdrTreeBitLength (h : List Byte) : BitVec 32 := BitVec.ofNat 32 (beValue ((h.drop 8).take 4))

/-- paddingBits of 13 header bytes (rules R72, R222). -/
def hdrPaddingBits (h : List Byte) : Byte := BitVec.ofNat 8 (beValue ((h.drop 12).take 1))

/-! ## The bits DEC interprets (rule R36) -/

/-- The bits of a byte string, most significant first in each byte (rule R73). -/
def bytesBits : List Byte → Bits
  | [] => []
  | b :: bs => bin8 b ++ bytesBits bs

/-- `n` stream bits from position `pos` on; the positions at or past the limit are not read and stand as 0 (the instruction that meets
one raises its fault before any value is used). -/
def streamBits (d : Dec) (limit : Nat) : Nat → Nat → Bits
  | 0, _ => []
  | n + 1, pos => (decide (pos < limit) && payloadBit d pos) :: streamBits d limit n (pos + 1)

/-- The header's bits (rule R91). -/
def headerBits (d : Dec) : Bits := bytesBits (cellBytes .dec d.epoch d.ibuf 0 13)

/-- The bits a token at BITPOS can take (rules R93, R164). -/
def tokenBits (d : Dec) : Bits := streamBits d d.treeBits.toNat 9 d.bitpos

/-- The walk bit at BITPOS (rules R98, R227). -/
def walkBit (d : Dec) : Bits := streamBits d d.avail 1 d.bitpos

/-! ## Register arrays -/

/-- `FREQ[s]` (rule R29). -/
def freqOf (e : Enc) (s : Byte) : BitVec 64 := e.freq[s.toNat]'s.isLt

/-- `CODE[s]` (rule R33). -/
def codeOf (e : Enc) (s : Byte) : Bits := e.code[s.toNat]'s.isLt

/-- `NODE[h]` of ENC (rule R31). -/
def encNode (nodes : Vector EncNode 511) (h : Handle) : EncNode := nodes[h.val]'h.isLt

/-- `NODE[h]` of DEC (rule R37). -/
def decNode (nodes : Vector DecNode 511) (h : Handle) : DecNode := nodes[h.val]'h.isLt

/-- `NODE[h].freq` (rule R30). -/
def nodeFreq : EncNode → BitVec 64
  | .leaf _ f => f
  | .internal f _ _ => f

/-- The next free handle and the count after taking it; none is left at 511 (rules R31, R37). -/
def nextHandle (n : Fin 512) : Option (Handle × Fin 512) :=
  if h : n.val < 511 then some (⟨n.val, h⟩, ⟨n.val + 1, by omega⟩) else none

/-! ## Transactions (rules R112, R265) -/

/-- The transactions the port admits. -/
def admitted (cfg : Config) (u : UnitId) : Txn → Bool
  | .csrRead idx => decide (idx = 1 ∨ idx = 2 ∨ idx = 3 ∨ idx = 4)
  | .csrWrite idx v => decide ((idx = 0 ∧ v < 2 ^ 8) ∨ (idx = 2 ∧ v < 2 ^ 64))
  | .bufWrite addr _ => decide (addr < inCapOf cfg u)
  | .bufRead addr => decide (addr < outCapOf cfg u)

end Sys2Proof.Machine
end

