-- ==== Sys2Proof/Machine/CodeTable.lean ====
section
/-!
DEFINITION. Machine/CodeTable.lean: the code table (spec/42_code_table.md: E_CODEGEN and the procedure Assign).
-/
namespace Sys2Proof.Machine

/-- `Assign(h, p)` (rule R151). The first number bounds the depth of the recursion; `none` when it does not suffice, which happens only in
an arena whose children are not below their parents (rule R31). -/
def assignCodes (nodes : Vector EncNode 511) : Nat → Handle → Bits → Vector Bits 256 → Option (Vector Bits 256)
  | 0, _, _, _ => none
  | k + 1, h, p, code =>
    match encNode nodes h with
    | .leaf s _ => some (code.set s.toNat p s.isLt)
    | .internal _ l r =>
      match assignCodes nodes k l (p ++ [false]) code with
      | none => none
      | some code' => assignCodes nodes k r (p ++ [true]) code'

/-- The table E_CODEGEN leaves (rule R152): the synthetic code `0` for a root that is a Leaf, else the paths. -/
def codegen (e : Enc) : Option (Vector Bits 256) :=
  match encNode e.node e.root with
  | .leaf s _ => some (e.code.set s.toNat [false] s.isLt)
  | .internal _ _ _ => assignCodes e.node 511 e.root [] e.code

/-- E_CODEGEN (rule R152). -/
def execECodegen (s : State) : Host.Outcome State Fault Refusal :=
  match codegen s.enc with
  | some code => .next (s.setEnc { s.enc with code := code, ctl := gotoPhase phETree s.enc.ctl })
  | none => .fault .endlessTree

end Sys2Proof.Machine
end

