-- ==== Sys2Proof/Machine/Host.lean ====
section
/-!
DEFINITION. Machine/Host.lean: the host transactions that are no row of spec/opcode_table.json (rules R252 to R255), the BUSY lock-out every
transaction but a read of STATUS goes through (rule R263), and the reset event (rules R320, R321).
-/
namespace Sys2Proof.Machine

/-- The BUSY lock-out (rule R263): while the unit is BUSY the transaction has no effect and the port holds it; otherwise it is accepted. -/
def whenFree (u : UnitId) (t : Txn) (s : State) (effect : State → State) : State :=
  if s.isBusy u then s.hold u t else effect s

/-- The transactions that are neither a command nor a read of STATUS or ERRCODE. -/
inductive PortOp
  | readInLen
  | readOutLen
  | writeInLen (v : BitVec 64)
  | writeBuf (addr : Nat) (b : Byte)
  | readBuf (addr : Nat)
deriving DecidableEq, Repr

/-- The transaction a port operation is (rule R250). -/
def portTxn : PortOp → Txn
  | .readInLen => .csrRead 2
  | .readOutLen => .csrRead 3
  | .writeInLen v => .csrWrite 2 v.toNat
  | .writeBuf addr b => .bufWrite addr b
  | .readBuf addr => .bufRead addr

/-- `BufRead` when it is accepted (rule R255): a byte of the result, or an unspecified byte that the port draws. -/
def readBuf (u : UnitId) (addr : Nat) (s : State) : State :=
  let p := s.port u
  let unspecified := s.setPort u { p with rdata := some (.byte (Config.freeByte u p.draw)), draw := p.draw + 1 }
  if resultReadable (s.ctl u) addr then
    match Memory.read (s.obuf u) addr with
    | some b => s.respond u (.byte b)
    | none => unspecified
  else unspecified

/-- The effect of a port operation when it is accepted (rules R252 to R255). -/
def portEffect (u : UnitId) : PortOp → State → State
  | .readInLen, s => s.respond u (.word (s.ctl u).inLen)
  | .readOutLen, s => s.respond u (.word (s.ctl u).outLen)
  | .writeInLen v, s => s.setCtl u { s.ctl u with inLen := v }
  | .writeBuf addr b, s => s.setIbuf u (Memory.write (s.ibuf u) addr b)
  | .readBuf addr, s => readBuf u addr s

/-- A port operation at the port of a unit. -/
def portAccess (u : UnitId) (op : PortOp) (s : State) : State := whenFree u (portTxn op) s (portEffect u op)

/-- THE RESET EVENT (rules R320, R321): both units as after reset, whatever they were doing. A held transaction stays held; the free contents
of the buffers are those of a new power-up; the parameters and what the outside still does are untouched. -/
def resetUnits (s : State) : State :=
  { s with
    enc := { Enc.reset with epoch := s.enc.epoch + 1, draw := s.enc.draw }
    dec := { Dec.reset with epoch := s.dec.epoch + 1 } }

end Sys2Proof.Machine
end

