-- ==== Sys2Proof/Machine/Command.lean ====
section
/-!
DEFINITION. Machine/Command.lean: the host commands NOP, START, CLEAR and the reserved commands (spec/47_host_commands.md rules R256 to R261).
Each is accepted when the unit is not BUSY and held otherwise (rule R263).
-/
namespace Sys2Proof.Machine

/-- NOP (rule R258): no effect on any state. -/
def execNop (u : UnitId) (s : State) : Host.Outcome State Fault Refusal :=
  .next (whenFree u (.csrWrite 0 0x00) s fun s => s)

/-- START (rule R256): STATE <- BUSY, PHASE <- E_INIT or D_INIT; nothing else changes at the command. -/
def execStart (u : UnitId) (s : State) : Host.Outcome State Fault Refusal :=
  .next (whenFree u (.csrWrite 0 0x01) s fun s => s.setCtl u (beginRun (s.ctl u)))

/-- CLEAR (rule R257): STATE <- IDLE, OUT_LEN <- 0, ERRCODE <- 0. -/
def execClear (u : UnitId) (s : State) : Host.Outcome State Fault Refusal :=
  .next (whenFree u (.csrWrite 0 0x02) s fun s => s.setCtl u (clearOutcome (s.ctl u)))

/-- A reserved command (rule R259): no effect on any state, exactly as NOP. -/
def execCmdReserved (u : UnitId) (v : Byte) (s : State) : Host.Outcome State Fault Refusal :=
  .next (whenFree u (.csrWrite 0 v.toNat) s fun s => s)

end Sys2Proof.Machine
end

