-- ==== Sys2Proof/Machine/DecSequencer.lean ====
section
/-!
DEFINITION. Machine/DecSequencer.lean: the decoder's sequencer (spec/46_decoder_sequencer.md: D_INIT, D_HEADER, D_CHECK, D_FINISH), the header
HDR as DEC reads it, and the idle value D_IDLE.
-/
namespace Sys2Proof.Machine

/-- D_IDLE (rules R27, R46): no micro-operation; a unit that is not BUSY takes no step of its own. -/
def execDIdle (s : State) : Host.Outcome State Fault Refusal := .next s

/-- The initialised decoder (rule R221). -/
def decInit (cfg : Config) (d : Dec) : Micro Dec Unit :=
  let c := initOutcome d.ctl
  if cfg.decInCap < c.inLen.toNat then .raise .inCap { d with ctl := c }
  else if c.inLen.toNat < 13 then .raise .hdrShort { d with ctl := c }
  else .ok () { d with
    ctl := gotoPhase phDHeader c
    nnode := 0
    bitpos := 0
    wr := 0
    stack := []
    inSym := false }

/-- D_INIT (rule R221). -/
def execDInit (s : State) : Host.Outcome State Fault Refusal := .next (s.setDec (settleDec (decInit s.cfg s.dec)))

/-- The header registers loaded (rules R222, R223). -/
def loadHeader (o : BitVec 64) (t : BitVec 32) (p : Byte) (d : Dec) : Dec :=
  { d with
    origSize := o
    treeBits := t
    padBits := p
    ctl := gotoPhase (if o = 0 then phDFinish else phDCheck) d.ctl }

/-- The header read from DEC.IBUF and loaded (rule R222). -/
def readHeader (d : Dec) : Dec :=
  let h := cellBytes .dec d.epoch d.ibuf 0 13
  loadHeader (hdrOriginalSize h) (hdrTreeBitLength h) (hdrPaddingBits h) d

/-- D_HEADER (rule R222). -/
def execDHeader (s : State) : Host.Outcome State Fault Refusal :=
  if 13 ≤ s.cfg.decInCap then .next (s.setDec (readHeader s.dec)) else .fault (.noSuchCell .dec)

/-- HDR as DEC reads it (rules R91, R222): the three fields are loaded. -/
def execHdr (o : BitVec 64) (t : BitVec 32) (p : Byte) (s : State) : Host.Outcome State Fault Refusal :=
  .next (s.setDec (loadHeader o t p s.dec))

/-- The header checked against the payload (rule R224), N = IN_LEN - 13. -/
def checkHeader (cfg : Config) (d : Dec) : Micro Dec Unit :=
  let n := d.ctl.inLen.toNat - 13
  if 7 < d.padBits.toNat ∨ 8 * n < d.padBits.toNat then .raise .padRange d
  else
    let d1 : Dec := { d with avail := 8 * n - d.padBits.toNat }
    if d1.avail < d.treeBits.toNat then .raise .treeLen d1
    else if cfg.decOutCap < d.origSize.toNat then .raise .outCap d1
    else .ok () { d1 with ctl := gotoPhase phDTree d.ctl }

/-- D_CHECK (rule R224). -/
def execDCheck (s : State) : Host.Outcome State Fault Refusal := .next (s.setDec (settleDec (checkHeader s.cfg s.dec)))

/-- The run ended (rule R229). -/
def finish (d : Dec) : Dec := { d with ctl := endRun d.origSize d.ctl }

/-- D_FINISH (rule R229). -/
def execDFinish (s : State) : Host.Outcome State Fault Refusal := .next (s.setDec (finish s.dec))

end Sys2Proof.Machine
end

