-- ==== Sys2Proof/Machine/EncSequencer.lean ====
section
/-!
DEFINITION. Machine/EncSequencer.lean: the encoder's sequencer (spec/45_encoder_sequencer.md: E_INIT, E_DATA, E_HEADER, E_EMPTY), the packer's
E_FLUSH (spec/44_bit_packer_unpacker.md) and the idle value E_IDLE.
-/
namespace Sys2Proof.Machine

/-- E_IDLE (rules R27, R46): no micro-operation; a unit that is not BUSY takes no step of its own. -/
def execEIdle (s : State) : Host.Outcome State Fault Refusal := .next s

/-- The initialised encoder (rule R201). -/
def encInit (cfg : Config) (e : Enc) : Micro Enc Unit :=
  let c := initOutcome e.ctl
  if cfg.encInCap < c.inLen.toNat then .raise .inCap { e with ctl := c }
  else .ok () { e with
    ctl := gotoPhase (if c.inLen = 0 then phEEmpty else phECount) c
    origSize := c.inLen
    rd := 0
    freq := Vector.replicate 256 0
    code := Vector.replicate 256 []
    nnode := 0
    pq := []
    acc := 0
    nb := 0
    nbits := 0
    wr := 13 }

/-- E_INIT (rule R201). -/
def execEInit (s : State) : Host.Outcome State Fault Refusal := .next (s.setEnc (settleEnc (encInit s.cfg s.enc)))

/-- One message byte encoded (rule R207). -/
def encodeByte (cfg : Config) (e : Enc) : Micro Enc Unit :=
  (putBits cfg (codeOf e (cellByte .enc e.epoch e.ibuf e.rd.toNat)) e).bind fun _ e' =>
    let rd := e'.rd + 1
    .ok () { e' with rd := rd, ctl := if rd = e'.ctl.inLen then gotoPhase phEFlush e'.ctl else e'.ctl }

/-- E_DATA (rule R207). -/
def execEData (s : State) : Host.Outcome State Fault Refusal :=
  if s.enc.rd.toNat < s.cfg.encInCap then .next (s.setEnc (settleEnc (encodeByte s.cfg s.enc))) else .fault (.noSuchCell .enc)

/-- The last byte padded and stored (rule R184). -/
def flush (cfg : Config) (e : Enc) : Micro Enc Unit :=
  if e.nb = 0 then .ok () { e with padBits := 0, ctl := gotoPhase phEHeader e.ctl }
  else
    let padded : Enc := { e with padBits := BitVec.ofNat 8 (8 - e.nb.toNat) }
    if cfg.encOutCap ≤ e.wr.toNat then .raise .outCap padded
    else .ok () { padded with
      obuf := Memory.write e.obuf e.wr.toNat e.acc
      wr := e.wr + 1
      acc := 0
      nb := 0
      ctl := gotoPhase phEHeader e.ctl }

/-- E_FLUSH (rule R184). -/
def execEFlush (s : State) : Host.Outcome State Fault Refusal := .next (s.setEnc (settleEnc (flush s.cfg s.enc)))

/-- The header stored, the run ended (rule R209). -/
def storeHeader (e : Enc) : Enc :=
  { e with
    obuf := Memory.writeBytes e.obuf 0 (headerBytes e.origSize e.treeBits e.padBits)
    ctl := endRun e.wr e.ctl }

/-- E_HEADER (rule R209). -/
def execEHeader (s : State) : Host.Outcome State Fault Refusal :=
  if 13 ≤ s.cfg.encOutCap then .next (s.setEnc (storeHeader s.enc)) else .fault (.noSuchCell .enc)

/-- The file of the empty message stored, the run ended (rule R210). -/
def storeEmpty (e : Enc) : Enc :=
  { e with
    origSize := 0
    treeBits := 0
    padBits := 0
    obuf := Memory.writeBytes e.obuf 0 (List.replicate 13 0)
    ctl := endRun 13 e.ctl }

/-- E_EMPTY (rule R210). -/
def execEEmpty (s : State) : Host.Outcome State Fault Refusal :=
  if 13 ≤ s.cfg.encOutCap then .next (s.setEnc (storeEmpty s.enc)) else .fault (.noSuchCell .enc)

end Sys2Proof.Machine
end

