-- ==== Sys2Proof/Machine/Registers.lean ====
section
/-!
DEFINITION. Machine/Registers.lean: the values a host reads from STATUS (rules R23, R109, R251) and from ERRCODE (rules R26, R110, R252, R281). The
table lists them as register values; the instruction one stands for is the host's read that returns it (notes/assumptions/11.md).
A step reads the register's word, decodes it, and runs the value's meaning: the port returns that word, and nothing else changes.
-/
namespace Sys2Proof.Machine

/-- A read of STATUS returns: accepted in every state, BUSY included (rule R251). -/
def returnStatus (u : UnitId) (r : RunState) (s : State) : State := s.respond u (.byte (statusWord r))

/-- A read of ERRCODE returns: accepted when the unit is not BUSY, and it does not clear the register (rule R252). -/
def returnErr (u : UnitId) (c : ErrCode) (s : State) : State :=
  whenFree u (.csrRead 4) s fun s => s.respond u (.byte (errWord c))

/-- ST_IDLE (rule R23). -/
def execStIdle (u : UnitId) (s : State) : Host.Outcome State Fault Refusal := .next (returnStatus u .idle s)
/-- ST_BUSY (rule R23). -/
def execStBusy (u : UnitId) (s : State) : Host.Outcome State Fault Refusal := .next (returnStatus u .busy s)
/-- ST_DONE (rule R23). -/
def execStDone (u : UnitId) (s : State) : Host.Outcome State Fault Refusal := .next (returnStatus u .done s)
/-- ST_ERROR (rule R23). -/
def execStError (u : UnitId) (s : State) : Host.Outcome State Fault Refusal := .next (returnStatus u .error s)

/-- ERR_NONE (rule R26). -/
def execErrNone (u : UnitId) (s : State) : Host.Outcome State Fault Refusal := .next (returnErr u .none s)
/-- HDR_SHORT (rule R282). -/
def execHdrShort (s : State) : Host.Outcome State Fault Refusal := .next (returnErr .dec .hdrShort s)
/-- PAD_RANGE (rule R283). -/
def execPadRange (s : State) : Host.Outcome State Fault Refusal := .next (returnErr .dec .padRange s)
/-- TREE_LEN (rule R284). -/
def execTreeLen (s : State) : Host.Outcome State Fault Refusal := .next (returnErr .dec .treeLen s)
/-- TREE_TRUNC (rules R167, R285). -/
def execTreeTrunc (s : State) : Host.Outcome State Fault Refusal := .next (returnErr .dec .treeTrunc s)
/-- TREE_NODES (rules R169, R285). -/
def execTreeNodes (s : State) : Host.Outcome State Fault Refusal := .next (returnErr .dec .treeNodes s)
/-- TREE_EXCESS (rules R168, R285). -/
def execTreeExcess (s : State) : Host.Outcome State Fault Refusal := .next (returnErr .dec .treeExcess s)
/-- DATA_TRUNC (rule R286). -/
def execDataTrunc (s : State) : Host.Outcome State Fault Refusal := .next (returnErr .dec .dataTrunc s)
/-- IN_CAP (rule R288). -/
def execInCap (u : UnitId) (s : State) : Host.Outcome State Fault Refusal := .next (returnErr u .inCap s)
/-- OUT_CAP (rule R289). -/
def execOutCap (u : UnitId) (s : State) : Host.Outcome State Fault Refusal := .next (returnErr u .outCap s)

end Sys2Proof.Machine
end

