-- ==== Sys2Proof/Machine/TreeBuilder.lean ====
section
/-!
DEFINITION. Machine/TreeBuilder.lean: the frequency counter (spec/40_frequency_counter.md: E_COUNT) and the priority-queue tree builder
(spec/41_tree_builder.md: E_LEAVES, E_MERGE, E_ROOT).
-/
namespace Sys2Proof.Machine

/-! ## E_COUNT (rule R131) -/

/-- One byte counted. -/
def countByte (e : Enc) : Enc :=
  let b := cellByte .enc e.epoch e.ibuf e.rd.toNat
  let rd := e.rd + 1
  { e with
    freq := e.freq.set b.toNat (freqOf e b + 1) b.isLt
    rd := rd
    ctl := if rd = e.ctl.inLen then gotoPhase phELeaves e.ctl else e.ctl }

/-- E_COUNT (rule R131). -/
def execECount (s : State) : Host.Outcome State Fault Refusal :=
  if s.enc.rd.toNat < s.cfg.encInCap then .next (s.setEnc (countByte s.enc)) else .fault (.noSuchCell .enc)

/-! ## The queue (rules R32, R142) -/

/-- `PQ ∪ {h}`. -/
def queueInsert (h : Handle) : List Handle → List Handle
  | [] => [h]
  | g :: gs => if h < g then h :: g :: gs else if h = g then g :: gs else g :: queueInsert h gs

/-- A handle's place among equal frequencies: the parameter TIEBREAK (rule R7). -/
def tieOf (cfg : Config) (h : Handle) : Nat := cfg.tieRank.getD h.val h.val

/-- `g` comes before `h` (rule R142): smaller frequency first, then the TIEBREAK order. -/
def comesBefore (cfg : Config) (nodes : Vector EncNode 511) (g h : Handle) : Bool :=
  let f := nodeFreq (encNode nodes g)
  let f' := nodeFreq (encNode nodes h)
  decide (f < f' ∨ (f = f' ∧ (tieOf cfg g < tieOf cfg h ∨ (tieOf cfg g = tieOf cfg h ∧ g < h))))

/-- The first of `best` and a list. -/
def firstOf (cfg : Config) (nodes : Vector EncNode 511) : Handle → List Handle → Handle
  | best, [] => best
  | best, h :: hs => firstOf cfg nodes (if comesBefore cfg nodes h best then h else best) hs

/-- `ExtractMin()` (rule R142): the first handle of the queue and the queue without it; none on the empty queue. -/
def extractMin (cfg : Config) (nodes : Vector EncNode 511) : List Handle → Option (Handle × List Handle)
  | [] => none
  | h :: hs => some (firstOf cfg nodes h hs, (h :: hs).erase (firstOf cfg nodes h hs))

/-! ## E_LEAVES (rule R141) -/

/-- The loop body: a Leaf for a symbol that occurs; `none` when no record is free. -/
def addLeaf (s : Byte) (e : Enc) : Option Enc :=
  if freqOf e s = 0 then some e
  else
    match nextHandle e.nnode with
    | none => none
    | some (h, n) =>
      some { e with node := e.node.set h.val (.leaf s (freqOf e s)) h.isLt, nnode := n, pq := queueInsert h e.pq }

/-- The loop over a list of symbols. -/
def addLeaves : List Byte → Enc → Option Enc
  | [], e => some e
  | s :: ss, e =>
    match addLeaf s e with
    | none => none
    | some e' => addLeaves ss e'

/-- 0 to 255 in ascending order. -/
def allSymbols : List Byte := (List.range 256).map (BitVec.ofNat 8)

/-- E_LEAVES (rule R141). -/
def execELeaves (s : State) : Host.Outcome State Fault Refusal :=
  match addLeaves allSymbols s.enc with
  | some e => .next (s.setEnc { e with ctl := gotoPhase phEMerge e.ctl })
  | none => .fault .noSuchNode

/-! ## E_MERGE (rule R143) -/

/-- One merge when two handles can be extracted, else the pass to E_ROOT; `none` when no record is free. -/
def mergeStep (cfg : Config) (e : Enc) : Option Enc :=
  let pass : Enc := { e with ctl := gotoPhase phERoot e.ctl }
  match extractMin cfg e.node e.pq with
  | none => some pass
  | some (a, q) =>
    match extractMin cfg e.node q with
    | none => some pass
    | some (b, q') =>
      match nextHandle e.nnode with
      | none => none
      | some (h, n) =>
        some { e with
          node := e.node.set h.val (.internal (nodeFreq (encNode e.node a) + nodeFreq (encNode e.node b)) a b) h.isLt
          nnode := n
          pq := queueInsert h q' }

/-- E_MERGE (rule R143). -/
def execEMerge (s : State) : Host.Outcome State Fault Refusal :=
  match mergeStep s.cfg s.enc with
  | some e => .next (s.setEnc e)
  | none => .fault .noSuchNode

/-! ## E_ROOT (rule R145) -/

/-- ROOT <- ExtractMin(); on an empty queue, where ExtractMin is not defined, ROOT is a free value (notes/assumptions/6.md). -/
def takeRoot (cfg : Config) (e : Enc) : Enc :=
  match extractMin cfg e.node e.pq with
  | some (r, q) => { e with root := r, pq := q, ctl := gotoPhase phECodegen e.ctl }
  | none => { e with root := Config.freeHandle e.draw, draw := e.draw + 1, ctl := gotoPhase phECodegen e.ctl }

/-- E_ROOT (rule R145). -/
def execERoot (s : State) : Host.Outcome State Fault Refusal := .next (s.setEnc (takeRoot s.cfg s.enc))

end Sys2Proof.Machine
end

