-- ==== Sys2Proof/Machine/TreeSerdes.lean ====
section
/-!
DEFINITION. Machine/TreeSerdes.lean: the tree serializer, the tree-bit deserializer and tree reconstructor (spec/43_tree_serdes.md: E_TREE,
D_TREE, Ser, Deser, and the tokens T_INTERNAL and T_LEAF as DEC reads them).
-/
namespace Sys2Proof.Machine

/-! ## The serializer (rules R161, R163) -/

/-- `Ser(h)` as the pure function of rule R161: the bits it appends. The number bounds the depth, as for `Assign`. -/
def ser (nodes : Vector EncNode 511) : Nat → Handle → Option Bits
  | 0, _ => none
  | k + 1, h =>
    match encNode nodes h with
    | .leaf s _ => some (encode (.tLeaf s))
    | .internal _ l r =>
      match ser nodes k l with
      | none => none
      | some wl =>
        match ser nodes k r with
        | none => none
        | some wr => some (encode .tInternal ++ (wl ++ wr))

/-- The tree stream appended, TREE_BITS taken, the input rewound (rule R163). -/
def emitTree (cfg : Config) (w : Bits) (e : Enc) : Micro Enc Unit :=
  (putBits cfg w e).bind fun _ e' =>
    .ok () { e' with treeBits := BitVec.ofNat 32 e'.nbits, rd := 0, ctl := gotoPhase phEData e'.ctl }

/-- E_TREE (rule R163). -/
def execETree (s : State) : Host.Outcome State Fault Refusal :=
  match ser s.enc.node 511 s.enc.root with
  | some w => .next (s.setEnc (settleEnc (emitTree s.cfg w s.enc)))
  | none => .fault .endlessTree

/-! ## The deserializer (rules R164 to R169) -/

/-- `Deser()` (rule R165). The number bounds the depth: with 512 it never decides, since every call takes a handle before it goes deeper and
the 512th handle is refused. -/
def deser : Nat → Dec → Micro Dec Handle
  | 0, d => .raise .treeNodes d
  | k + 1, d =>
    match nextHandle d.nnode with
    | none => .raise .treeNodes d
    | some (h, n) =>
      (getBit d.treeBits.toNat .treeTrunc { d with nnode := n }).bind fun b d1 =>
        if b then
          (getBits 8 d.treeBits.toNat .treeTrunc d1).bind fun v d2 =>
            .ok h { d2 with node := d2.node.set h.val (.leaf (BitVec.ofNat 8 v)) h.isLt }
        else
          (deser k d1).bind fun l d2 =>
            (deser k d2).bind fun r d3 =>
              .ok h { d3 with node := d3.node.set h.val (.internal l r) h.isLt }

/-- The tree is complete (rules R166, R168): its end must be the end of the window. -/
def finishTree (d : Dec) : Micro Dec Unit :=
  if d.bitpos ≠ d.treeBits.toNat then .raise .treeExcess d else .ok () { d with ctl := gotoPhase phDWalk d.ctl }

/-- The whole tree (rule R166). -/
def deserTree (d : Dec) : Micro Dec Unit := (deser 512 d).bind fun _ d' => finishTree d'

/-- D_TREE (rule R166). -/
def execDTree (s : State) : Host.Outcome State Fault Refusal :=
  if windowFits s.cfg s.dec.treeBits.toNat then .next (s.setDec (settleDec (deserTree s.dec))) else .fault (.noSuchCell .dec)

/-! ## One token (rules R93 to R96, R165)

The same reconstruction with its pending calls written out as a stack (rule R42(b)): what `Deser` does on reading one token. -/

/-- A subtree is complete: its handle goes to the Internal node that waits for it, and an Internal node with both children is complete in
turn; with no node waiting, the tree is complete. -/
def giveNode : List Frame → Handle → Dec → Micro Dec Unit
  | [], _, d => finishTree { d with stack := [] }
  | .needLeft p :: st, h, d => .ok () { d with stack := .needRight p h :: st }
  | .needRight p l :: st, h, d => giveNode st p { d with node := d.node.set p.val (.internal l h) p.isLt }

/-- T_INTERNAL (rules R94, R165): take a handle, pass the token's bit, await the left subtree. -/
def tokInternal (d : Dec) : Micro Dec Unit :=
  match nextHandle d.nnode with
  | none => .raise .treeNodes d
  | some (h, n) =>
    (passBits d.treeBits.toNat .treeTrunc 1 { d with nnode := n }).bind fun _ d1 =>
      .ok () { d1 with stack := .needLeft h :: d1.stack }

/-- T_LEAF (rules R95, R96, R165): take a handle, pass the token's nine bits, write the Leaf. -/
def tokLeaf (sym : Byte) (d : Dec) : Micro Dec Unit :=
  match nextHandle d.nnode with
  | none => .raise .treeNodes d
  | some (h, n) =>
    (passBits d.treeBits.toNat .treeTrunc 9 { d with nnode := n }).bind fun _ d1 =>
      giveNode d1.stack h { d1 with node := d1.node.set h.val (.leaf sym) h.isLt }

/-- T_INTERNAL as DEC reads it. -/
def execTInternal (s : State) : Host.Outcome State Fault Refusal := .next (s.setDec (settleDec (tokInternal s.dec)))

/-- T_LEAF as DEC reads it. -/
def execTLeaf (sym : Byte) (s : State) : Host.Outcome State Fault Refusal := .next (s.setDec (settleDec (tokLeaf sym s.dec)))

end Sys2Proof.Machine
end

