-- ==== Sys2Proof/Machine/Walk.lean ====
section
/-!
DEFINITION. Machine/Walk.lean: the tree-walk decoder (spec/46_decoder_sequencer.md rules R225 to R228: D_WALK and the walk bits W_LEFT, W_RIGHT,
S_ANY).
-/
namespace Sys2Proof.Machine

/-- The Leaf's byte emitted and counted (the last three lines of rule R227). -/
def emitSym (sym : Byte) (d : Dec) : Dec :=
  let wr := d.wr + 1
  { d with
    obuf := Memory.write d.obuf d.wr.toNat sym
    wr := wr
    inSym := false
    ctl := if wr = d.origSize then gotoPhase phDFinish d.ctl else d.ctl }

/-- The walk from CUR to a Leaf (the inner loop of rule R227). The number is that of the bits left before AVAIL. -/
def walkFrom : Nat → Dec → Micro Dec Unit
  | 0, d =>
    match decNode d.node d.cur with
    | .leaf sym => .ok () (emitSym sym d)
    | .internal _ _ => .raise .dataTrunc d
  | k + 1, d =>
    match decNode d.node d.cur with
    | .leaf sym => .ok () (emitSym sym d)
    | .internal l r =>
      (getBit d.avail .dataTrunc d).bind fun b d' => walkFrom k { d' with cur := if b then r else l }

/-- One symbol (rule R227). -/
def walkSymbol (d : Dec) : Micro Dec Unit :=
  let d0 : Dec := { d with cur := 0 }
  match decNode d.node 0 with
  | .leaf sym => (getBit d.avail .dataTrunc d0).bind fun _ d' => .ok () (emitSym sym d')
  | .internal _ _ => walkFrom (d.avail - d.bitpos) d0

/-- D_WALK (rule R227). -/
def execDWalk (s : State) : Host.Outcome State Fault Refusal :=
  if s.dec.wr.toNat < s.cfg.decOutCap ∧ windowFits s.cfg s.dec.avail = true then .next (s.setDec (settleDec (walkSymbol s.dec)))
  else .fault (.noSuchCell .dec)

/-! ## One walk bit (rules R98 to R100, R227) -/

/-- Where the walk stands: at CUR inside a codeword, else at the root. -/
def standAt (d : Dec) : Handle := if d.inSym then d.cur else 0

/-- One edge: pass the bit, go to the child, and emit if it is a Leaf. -/
def walkEdge (right : Bool) (l r : Handle) (d : Dec) : Micro Dec Unit :=
  (passBit d.avail .dataTrunc { d with cur := standAt d }).bind fun _ d' =>
    let c := if right then r else l
    match decNode d.node c with
    | .leaf sym => .ok () (emitSym sym { d' with cur := c })
    | .internal _ _ => .ok () { d' with cur := c, inSym := true }

/-- W_LEFT (`right` false) and W_RIGHT (`right` true) at the node the walk stands at. -/
def walkBitAt (right : Bool) (s : State) : Host.Outcome State Fault Refusal :=
  if s.dec.wr.toNat < s.cfg.decOutCap then
    match decNode s.dec.node (standAt s.dec) with
    | .internal l r => .next (s.setDec (settleDec (walkEdge right l r s.dec)))
    | .leaf _ => .fault .walkShape
  else .fault (.noSuchCell .dec)

/-- W_LEFT (rules R98, R227): go to the left child. -/
def execWLeft (s : State) : Host.Outcome State Fault Refusal := walkBitAt false s

/-- W_RIGHT (rules R98, R227): go to the right child. -/
def execWRight (s : State) : Host.Outcome State Fault Refusal := walkBitAt true s

/-- The one bit of a single-Leaf tree, its value not examined (rule R226). -/
def anyBit (sym : Byte) (d : Dec) : Micro Dec Unit :=
  (passBit d.avail .dataTrunc { d with cur := 0 }).bind fun _ d' => .ok () (emitSym sym d')

/-- S_ANY (rules R100, R226): the bit `_x` is consumed whatever it is. -/
def execSAny (_x : Bool) (s : State) : Host.Outcome State Fault Refusal :=
  if s.dec.wr.toNat < s.cfg.decOutCap then
    match decNode s.dec.node 0 with
    | .leaf sym => .next (s.setDec (settleDec (anyBit sym s.dec)))
    | .internal _ _ => .fault .walkShape
  else .fault (.noSuchCell .dec)

end Sys2Proof.Machine
end

