-- ==== Sys2Proof/Machine/Dispatch.lean ====
section
/-! DEFINITION. Machine/Dispatch.lean: the meaning of each instruction, one arm per row of spec/opcode_table.json. -/
namespace Sys2Proof.Machine

def exec (i : Instr) (s : State) : Host.Outcome State Fault Refusal :=
  match i with
  | .nop u => Sys2Proof.Machine.execNop u s
  | .start u => Sys2Proof.Machine.execStart u s
  | .clear u => Sys2Proof.Machine.execClear u s
  | .cmdReserved u v => Sys2Proof.Machine.execCmdReserved u v s
  | .eIdle => Sys2Proof.Machine.execEIdle s
  | .eInit => Sys2Proof.Machine.execEInit s
  | .eCount => Sys2Proof.Machine.execECount s
  | .eLeaves => Sys2Proof.Machine.execELeaves s
  | .eMerge => Sys2Proof.Machine.execEMerge s
  | .eRoot => Sys2Proof.Machine.execERoot s
  | .eCodegen => Sys2Proof.Machine.execECodegen s
  | .eTree => Sys2Proof.Machine.execETree s
  | .eData => Sys2Proof.Machine.execEData s
  | .eFlush => Sys2Proof.Machine.execEFlush s
  | .eHeader => Sys2Proof.Machine.execEHeader s
  | .eEmpty => Sys2Proof.Machine.execEEmpty s
  | .dIdle => Sys2Proof.Machine.execDIdle s
  | .dInit => Sys2Proof.Machine.execDInit s
  | .dHeader => Sys2Proof.Machine.execDHeader s
  | .dCheck => Sys2Proof.Machine.execDCheck s
  | .dTree => Sys2Proof.Machine.execDTree s
  | .dWalk => Sys2Proof.Machine.execDWalk s
  | .dFinish => Sys2Proof.Machine.execDFinish s
  | .tInternal => Sys2Proof.Machine.execTInternal s
  | .tLeaf sym => Sys2Proof.Machine.execTLeaf sym s
  | .wLeft => Sys2Proof.Machine.execWLeft s
  | .wRight => Sys2Proof.Machine.execWRight s
  | .sAny x => Sys2Proof.Machine.execSAny x s
  | .hdr o t p => Sys2Proof.Machine.execHdr o t p s
  | .stIdle u => Sys2Proof.Machine.execStIdle u s
  | .stBusy u => Sys2Proof.Machine.execStBusy u s
  | .stDone u => Sys2Proof.Machine.execStDone u s
  | .stError u => Sys2Proof.Machine.execStError u s
  | .errNone u => Sys2Proof.Machine.execErrNone u s
  | .hdrShort => Sys2Proof.Machine.execHdrShort s
  | .padRange => Sys2Proof.Machine.execPadRange s
  | .treeLen => Sys2Proof.Machine.execTreeLen s
  | .treeTrunc => Sys2Proof.Machine.execTreeTrunc s
  | .treeNodes => Sys2Proof.Machine.execTreeNodes s
  | .treeExcess => Sys2Proof.Machine.execTreeExcess s
  | .dataTrunc => Sys2Proof.Machine.execDataTrunc s
  | .inCap u => Sys2Proof.Machine.execInCap u s
  | .outCap u => Sys2Proof.Machine.execOutCap u s

end Sys2Proof.Machine
end

