-- ==== Sys2Proof/Machine/Fetch.lean ====
section
/-!
DEFINITION. Machine/Fetch.lean: which agent moves next (rules R20, R303), which instruction it runs (rules R27, R36, R108, R250, R262), and how a bare
word of the opcode table is put where the next step finds it.
-/
namespace Sys2Proof.Machine

/-! ## Whose step it is (notes/assumptions/8.md) -/

/-- The fixed order used when `sched` gives none; it comes round to every agent (rule R338: progress). -/
def nextAgent : Agent → Agent
  | .host => .port .enc
  | .port .enc => .port .dec
  | .port .dec => .unit .enc
  | .unit .enc => .unit .dec
  | .unit .dec => .host

/-- The agent that moves, and the state with that choice used up. -/
def pickAgent (s : State) : Agent × State :=
  match s.sched with
  | a :: rest => (a, s.setSched rest)
  | [] => (s.turn, s.setTurn (nextAgent s.turn))

/-! ## What it does -/

/-- What a step is to do once its agent is known. -/
inductive Job
  /-- run an instruction -/
  | run (i : Instr)
  /-- a transaction that is no row of the table -/
  | access (u : UnitId) (op : PortOp)
  /-- the reset event -/
  | resetEvent
  /-- nothing: the agent has no step to take -/
  | wait
  | stop (f : Fault)
  | refuse (r : Refusal)
deriving DecidableEq, Repr

/-- The job of a decoded word. -/
def jobOf (u : UnitId) : Except Reject (Instr × Bits) → Job
  | .ok (i, _) => .run i
  | .error _ => .stop (.undefinedWord u)

/-- The job of a transaction at the port of a unit: a write of CMD is decoded (rule R108), a read of STATUS or ERRCODE returns the register's
word (rules R109, R110), the others are port operations; what rule R265 does not admit is refused. -/
def txnJob (s : State) (u : UnitId) (t : Txn) : Job :=
  if admitted s.cfg u t then
    match t with
    | .csrWrite 0 v => jobOf u (decode (.cmd u) (natBits 8 v))
    | .csrRead 1 => jobOf u (decode (.status u) (bin8 (statusWord (s.ctl u).state)))
    | .csrRead 4 => jobOf u (decode (.err u) (bin8 (errWord (s.ctl u).errCode)))
    | .csrRead 2 => .access u .readInLen
    | .csrRead 3 => .access u .readOutLen
    | .csrWrite 2 v => .access u (.writeInLen (BitVec.ofNat 64 v))
    | .bufWrite addr b => .access u (.writeBuf addr b)
    | .bufRead addr => .access u (.readBuf addr)
    | _ => .refuse (.notAdmitted u)
  else .refuse (.notAdmitted u)

/-- ENC's step (rules R46, R262): the micro-operation PHASE selects while BUSY, else none. -/
def encJob (s : State) : Job :=
  if s.isBusy .enc then jobOf .enc (decode (.phase .enc) (natBits 4 s.enc.ctl.phase.toNat)) else .run .eIdle

/-- DEC's step when it takes one element of the stream at a time: the header in D_HEADER, a token in D_TREE, a walk bit in D_WALK, and the
micro-operation itself in every other phase. -/
def streamJob (s : State) : Job :=
  let d := s.dec
  if d.ctl.phase = phDHeader then
    if 13 ≤ s.cfg.decInCap then jobOf .dec (decode .hdr (headerBits d)) else .stop (.noSuchCell .dec)
  else if d.ctl.phase = phDTree then
    if windowFits s.cfg d.treeBits.toNat then jobOf .dec (decode .tok (tokenBits d)) else .stop (.noSuchCell .dec)
  else if d.ctl.phase = phDWalk then
    if windowFits s.cfg d.avail then jobOf .dec (decode (.walk (rootIsLeaf d)) (walkBit d)) else .stop (.noSuchCell .dec)
  else jobOf .dec (decode (.phase .dec) (natBits 4 d.ctl.phase.toNat))

/-- DEC's step (rules R46, R262). -/
def decJob (s : State) : Job :=
  if s.isBusy .dec then
    match s.grain with
    | .microOp => jobOf .dec (decode (.phase .dec) (natBits 4 s.dec.ctl.phase.toNat))
    | .stream => streamJob s
  else .run .dIdle

/-- The job of the agent that moves, and the state in which it is done: the host's event is taken from the script, a transaction that is
accepted leaves the port. The host waits while the port it needs holds a transaction (rule R261), but for a read of STATUS, which is
accepted in every state (rule R251). -/
def fetch (a : Agent) (s : State) : Job × State :=
  match a with
  | .host =>
    match s.script with
    | [] => (.wait, s)
    | .reset :: rest => (.resetEvent, s.setScript rest)
    | .txn u t :: rest =>
      if (s.port u).held = none ∨ t = .csrRead 1 then (txnJob s u t, s.setScript rest) else (.wait, s)
  | .port u =>
    match (s.port u).held with
    | none => (.wait, s)
    | some t => if s.isBusy u then (.wait, s) else (txnJob s u t, s.setPort u { s.port u with held := none })
  | .unit .enc => (encJob s, s)
  | .unit .dec => (decJob s, s)

/-! ## A bare word of the table, placed (notes/assumptions/10.md) -/

/-- A byte with one bit replaced. -/
def setBit (b : Byte) (k : Nat) (v : Bool) : Byte :=
  if v then b ||| ((1 : Byte) <<< k) else b &&& ~~~((1 : Byte) <<< k)

/-- Payload bits written into DEC.IBUF at a stream position; the other bits of a cell stay, an unwritten cell starts from 0. -/
def placeBits : Memory → Nat → Bits → Memory
  | m, _, [] => m
  | m, pos, b :: bs =>
    let addr := 13 + pos / 8
    placeBits (Memory.write m addr (setBit ((Memory.read m addr).getD 0) (7 - pos % 8) b)) (pos + 1) bs

/-- The next step is the host's, and what it presents is the transaction `t` at a free port. -/
def placeTxn (u : UnitId) (t : Txn) (s : State) : State :=
  let s1 := s.setPort u { s.port u with held := none }
  (s1.setScript (.txn u t :: s1.script)).setSched (.host :: s1.sched)

/-- The next step is DEC's, BUSY in phase `p`, one stream element at a time. -/
def placeStream (p : BitVec 4) (d : Dec) (s : State) : State :=
  let s1 := s.setDec { d with ctl := { d.ctl with state := .busy, phase := p } }
  { s1.setSched (.unit .dec :: s1.sched) with grain := .stream }

/-- The ERRCODE value a word stands for. -/
def errOfWord (w : Nat) : ErrCode :=
  if w = 0x11 then .hdrShort
  else if w = 0x12 then .padRange
  else if w = 0x13 then .treeLen
  else if w = 0x14 then .treeTrunc
  else if w = 0x15 then .treeNodes
  else if w = 0x16 then .treeExcess
  else if w = 0x17 then .dataTrunc
  else if w = 0x21 then .inCap
  else if w = 0x22 then .outCap
  else .none

/-- `s` with the bits of a window put where the next step reads that window. -/
def placeWord (win : Window) (bs : Bits) (s : State) : State :=
  match win with
  | .cmd u => placeTxn u (.csrWrite 0 (ofBits bs)) s
  | .phase u =>
    let s1 := s.setCtl u { s.ctl u with state := .busy, phase := BitVec.ofNat 4 (ofBits bs) }
    { s1.setSched (.unit u :: s1.sched) with grain := .microOp }
  | .tok =>
    let d := s.dec
    placeStream phDTree
      { d with ibuf := placeBits d.ibuf d.bitpos bs, treeBits := BitVec.ofNat 32 (d.bitpos + bs.length) } s
  | .walk leaf =>
    let d := s.dec
    placeStream phDWalk
      { d with
        ibuf := placeBits d.ibuf d.bitpos bs
        avail := d.bitpos + 1
        inSym := false
        node := if leaf then d.node.set 0 (.leaf 0) else d.node.set 0 (.internal 1 2) } s
  | .hdr =>
    let d := s.dec
    placeStream phDHeader { d with ibuf := Memory.writeBytes d.ibuf 0 (beBytes 13 (ofBits bs)) } s
  | .status u =>
    placeTxn u (.csrRead 1) s
  | .err u =>
    placeTxn u (.csrRead 4) (s.setCtl u { s.ctl u with state := .error, errCode := errOfWord (ofBits bs) })

end Sys2Proof.Machine
end

