-- ==== Sys2Proof/Machine/Step.lean ====
section
/-!
DEFINITION. Machine/Step.lean: one step of the machine: an agent is picked, its job is found, and the job is done.
-/
namespace Sys2Proof.Machine

/-- A job done. -/
def perform (j : Job) (s : State) : Host.Outcome State Fault Refusal :=
  match j with
  | .run i => exec i s
  | .access u op => .next (portAccess u op s)
  | .resetEvent => .next (resetUnits s)
  | .wait => .next s
  | .stop f => .fault f
  | .refuse r => .refused r

/-- One step. -/
def step (s : State) : Host.Outcome State Fault Refusal :=
  perform (fetch (pickAgent s).1 (pickAgent s).2).1 (fetch (pickAgent s).1 (pickAgent s).2).2

/-- `s` with a bare word of spec/opcode_table.json where the next step finds it (notes/assumptions/10.md). -/
def State.withFetchWord (s : State) (nbits w : Nat) : State :=
  match tableWindow nbits w with
  | some (win, bs) => placeWord win bs s
  | none => s

end Sys2Proof.Machine
end

