-- ==== Sys2Proof/Safety.lean ====
section
/-!
DEFINITION. Safety.lean: the terms the statements use: the invariant of the machine and what a safe state is, trees as mathematical objects with
their stream and their codewords (rules R161, R151), what the arenas of the two units represent, and the stream the packer has built.
-/
namespace Sys2Proof.Machine

/-! ## The invariant -/

/-- The PHASE values rule R27 defines for a unit. -/
def legalPhase : UnitId → BitVec 4 → Bool
  | .enc, p => decide (p.toNat ≤ 11)
  | .dec, p => decide (p.toNat ≤ 6)

/-- The control registers agree with each other (rules R23, R25, R26, R27, R281). -/
structure CtlOk (u : UnitId) (c : Ctl) : Prop where
  /-- Rule R27: reserved values are never reached. -/
  legal : legalPhase u c.phase = true
  /-- Rule R27: PHASE is idle exactly when STATE ≠ BUSY. -/
  idle_iff : c.phase = phIdle ↔ c.state ≠ .busy
  /-- Rule R26: outside a run, ERRCODE is 0x00 exactly when STATE ≠ ERROR. -/
  error_iff : c.state ≠ .busy → (c.errCode = .none ↔ c.state ≠ .error)
  /-- Rules R25, R26: past INIT a run has cleared OUT_LEN and ERRCODE. -/
  running : c.state = .busy → c.phase ≠ phInit → c.errCode = .none ∧ c.outLen = 0
  /-- Rule R25: no result in IDLE and ERROR. -/
  noResult : c.state = .idle ∨ c.state = .error → c.outLen = 0
  /-- Rules R281, R297: the CorruptData causes are DEC's alone. -/
  cause : u = .enc → c.errCode = .none ∨ c.errCode = .inCap ∨ c.errCode = .outCap

/-- The buffers are in canonical form and inside their capacities (rules R60, R62). -/
structure BufOk (cfg : Config) (u : UnitId) (ibuf obuf : Memory) : Prop where
  ibuf_wf : Memory.wf ibuf
  obuf_wf : Memory.wf obuf
  ibuf_in : ∀ c ∈ ibuf, c.1 < inCapOf cfg u
  obuf_in : ∀ c ∈ obuf, c.1 < outCapOf cfg u

/-- In DONE the result lies in OBUF, every byte of it stored (rules R23, R25). -/
def ResultOk (cfg : Config) (u : UnitId) (c : Ctl) (obuf : Memory) : Prop :=
  c.state = .done → c.outLen.toNat ≤ outCapOf cfg u ∧ ∀ a, a < c.outLen.toNat → (Memory.read obuf a).isSome = true

/-- Every child handle is below its parent's (rule R31). -/
def ArenaOk (nodes : Vector EncNode 511) : Prop :=
  ∀ (h : Handle) (f : BitVec 64) (l r : Handle), encNode nodes h = .internal f l r → l < h ∧ r < h

/-- ENC is BUSY in phase `p`. -/
def Enc.at (e : Enc) (p : BitVec 4) : Prop := e.ctl.state = .busy ∧ e.ctl.phase = p

/-- DEC is BUSY in phase `p`. -/
def Dec.at (d : Dec) (p : BitVec 4) : Prop := d.ctl.state = .busy ∧ d.ctl.phase = p

/-- What holds of ENC between two steps. -/
structure EncOk (cfg : Config) (e : Enc) : Prop where
  ctl : CtlOk .enc e.ctl
  buf : BufOk cfg .enc e.ibuf e.obuf
  result : ResultOk cfg .enc e.ctl e.obuf
  arena : ArenaOk e.node
  /-- Rule R28: past E_INIT the message fits IBUF. -/
  fits : e.ctl.state = .busy → e.ctl.phase ≠ phInit → e.ctl.inLen.toNat ≤ cfg.encInCap
  /-- Rule R200: only E_EMPTY is reached with an empty message. -/
  nonempty : e.ctl.state = .busy → e.ctl.phase ≠ phInit → e.ctl.phase ≠ phEEmpty → 0 < e.ctl.inLen.toNat
  /-- Rules R28, R131: RD < IN_LEN while counting. -/
  count : e.at phECount → e.rd.toNat < e.ctl.inLen.toNat ∧ e.nnode.val = 0 ∧ e.pq = []
  /-- Rule R141: no node before E_LEAVES. -/
  leaves : e.at phELeaves → e.nnode.val = 0 ∧ e.pq = []
  /-- Rules R32, R144: the queue holds no handle twice, only handles in use, and the arena has room for the merges to come. -/
  merge : e.at phEMerge → e.pq.Pairwise (· < ·) ∧ (∀ h ∈ e.pq, h.val < e.nnode.val) ∧ e.nnode.val + e.pq.length ≤ 512
  /-- Rules R28, R207: RD < IN_LEN while encoding. -/
  data : e.at phEData → e.rd.toNat < e.ctl.inLen.toNat
  /-- Rules R63, R183: the payload bytes below WR are stored. -/
  stored : e.ctl.state = .busy → e.ctl.phase ≠ phInit → e.ctl.phase ≠ phEEmpty →
    13 ≤ e.wr.toNat ∧ e.wr.toNat ≤ cfg.encOutCap ∧ ∀ a, 13 ≤ a → a < e.wr.toNat → (Memory.read e.obuf a).isSome = true

/-- What holds of DEC between two steps. -/
structure DecOk (cfg : Config) (d : Dec) : Prop where
  ctl : CtlOk .dec d.ctl
  buf : BufOk cfg .dec d.ibuf d.obuf
  result : ResultOk cfg .dec d.ctl d.obuf
  /-- Rules R64, R222: past D_INIT the file fits IBUF and has a header. -/
  fits : d.ctl.state = .busy → d.ctl.phase ≠ phInit → 13 ≤ d.ctl.inLen.toNat ∧ d.ctl.inLen.toNat ≤ cfg.decInCap
  /-- Rule R221: before the tree nothing is read and nothing written. -/
  fresh : d.at phDHeader ∨ d.at phDCheck →
    d.bitpos = 0 ∧ d.wr = 0 ∧ d.nnode.val = 0 ∧ d.stack = [] ∧ d.inSym = false
  /-- Rule R224: D_CHECK is reached with a message to decode. -/
  check : d.at phDCheck → d.origSize ≠ 0
  /-- Rules R164, R224: the tree window lies in the readable bits, and these in IBUF. -/
  tree : d.at phDTree → d.wr = 0 ∧ d.inSym = false ∧ d.origSize ≠ 0 ∧ d.origSize.toNat ≤ cfg.decOutCap ∧
    d.bitpos ≤ d.treeBits.toNat ∧ d.treeBits.toNat ≤ d.avail ∧ d.avail ≤ 8 * (d.ctl.inLen.toNat - 13)
  /-- Rules R36, R38, R227: the walk stays inside the readable bits, the output inside ORIG_SIZE, and inside a codeword the walk stands at an
  Internal node. -/
  walk : d.at phDWalk → d.wr.toNat < d.origSize.toNat ∧ d.origSize.toNat ≤ cfg.decOutCap ∧
    d.bitpos ≤ d.avail ∧ d.avail ≤ 8 * (d.ctl.inLen.toNat - 13) ∧
    (d.inSym = true → (∃ l r, decNode d.node 0 = .internal l r) ∧ ∃ l r, decNode d.node d.cur = .internal l r)
  /-- Rules R222, R227, R229: at the end all bytes of the message are emitted. -/
  finish : d.at phDFinish → d.wr = d.origSize ∧ d.origSize.toNat ≤ cfg.decOutCap
  /-- Rule R38: WR counts the bytes emitted. -/
  stored : d.ctl.state = .busy → d.ctl.phase ≠ phInit → ∀ a, a < d.wr.toNat → (Memory.read d.obuf a).isSome = true

/-- A held transaction is one the port admits, and never a read of STATUS (rules R263, R265). -/
def PortOk (cfg : Config) (u : UnitId) (p : Port) : Prop := ∀ t, p.held = some t → admitted cfg u t = true ∧ t ≠ .csrRead 1

/-- The invariant: the configuration is well formed and small enough for the 64-bit register WR, and both units and both ports are in order. -/
structure Inv (s : State) : Prop where
  cfg : s.cfg.wf
  wide : s.cfg.encOutCap < 2 ^ 64
  enc : EncOk s.cfg s.enc
  dec : DecOk s.cfg s.dec
  encPort : PortOk s.cfg .enc s.encPort
  decPort : PortOk s.cfg .dec s.decPort

/-- A state is safe when its next step does not end in a fault of the model (rule R46: a unit is never stuck). -/
def Safe (s : State) : Prop := ∀ f, step s ≠ .fault f

/-! ## Trees -/

/-- A code tree (rule R12: HuffmanTree), without frequencies. -/
inductive CodeTree
  | leaf (sym : Byte)
  | node (l r : CodeTree)
deriving DecidableEq, Repr

/-- The tree stream (rule R161: the pure function `ser`). -/
def CodeTree.ser : CodeTree → Bits
  | .leaf s => true :: bin8 s
  | .node l r => false :: (l.ser ++ r.ser)

/-- The number of nodes. -/
def CodeTree.size : CodeTree → Nat
  | .leaf _ => 1
  | .node l r => 1 + l.size + r.size

/-- The number of Leaves. -/
def CodeTree.leaves : CodeTree → Nat
  | .leaf _ => 1
  | .node l r => l.leaves + r.leaves

/-- The symbols at the Leaves, left to right. -/
def CodeTree.syms : CodeTree → List Byte
  | .leaf s => [s]
  | .node l r => l.syms ++ r.syms

/-- Where a bit string leads from the root, 0 to the left and 1 to the right (rule R98): the symbol of the Leaf it ends at exactly. -/
def CodeTree.walk : CodeTree → Bits → Option Byte
  | .leaf s, [] => some s
  | .leaf _, _ :: _ => none
  | .node _ _, [] => none
  | .node l r, b :: bs => if b then r.walk bs else l.walk bs

/-- The tree at a handle of ENC's arena (rule R30). -/
def EncReps (nodes : Vector EncNode 511) : Handle → CodeTree → Prop
  | h, .leaf s => ∃ f, encNode nodes h = .leaf s f
  | h, .node l r => ∃ f a b, encNode nodes h = .internal f a b ∧ EncReps nodes a l ∧ EncReps nodes b r

/-- The tree at a handle of DEC's arena (rule R37). -/
def DecReps (nodes : Vector DecNode 511) : Handle → CodeTree → Prop
  | h, .leaf s => decNode nodes h = .leaf s
  | h, .node l r => ∃ a b, decNode nodes h = .internal a b ∧ DecReps nodes a l ∧ DecReps nodes b r

/-! ## Streams -/

/-- The packer's registers agree (rule R183): NB and WR are the low and the high part of NBITS, and the unfilled bits of ACC are 0. -/
def PackerOk (e : Enc) : Prop :=
  e.nb.toNat = e.nbits % 8 ∧ e.wr.toNat = 13 + e.nbits / 8 ∧ ∀ k, k < 8 - e.nb.toNat → e.acc.getLsbD k = false

/-- Bit `k` of what has been appended (rule R183): in OBUF below WR, in ACC at WR. -/
def packedBit (e : Enc) (k : Nat) : Bool :=
  if 13 + k / 8 < e.wr.toNat then ((Memory.read e.obuf (13 + k / 8)).getD 0).getLsbD (7 - k % 8)
  else e.acc.getLsbD (7 - k % 8)

/-- The payload of DEC spells `w` from position `pos` on. -/
def Spells (d : Dec) (pos : Nat) (w : Bits) : Prop := ∀ k (h : k < w.length), payloadBit d (pos + k) = w[k]

/-- The buffer holds the byte string from address 0 on. -/
def Holds (m : Memory) (bs : List Byte) : Prop := ∀ k (h : k < bs.length), Memory.read m k = some bs[k]

end Sys2Proof.Machine
end

