-- ==== Sys2Proof/Certificates/Slice0/Obligations.lean ====
section
/-!
DEFINITION. Certificates/Slice0/Obligations.lean: the statements for the provers. Each docstring names the rules of spec/ it rests on; a clause that
rests on a choice of the model names the entry of notes/assumptions.
-/

set_option Elab.async false

open Sys2Proof Sys2Proof.Machine

/-! ## Reset -/

/-- Rules R45 and R320, as the state the model starts from: both units IDLE with IN_LEN, OUT_LEN and ERRCODE 0 and PHASE idle, STATUS and ERRCODE
reading 0x00; "unspecified" buffers are buffers in which no cell holds a written byte (notes/assumptions/4.md and 9.md). -/
def Obligations.ResetStateIsIdleInBothUnits : Prop :=
  ∀ u : UnitId,
    (State.reset.ctl u).state = .idle ∧ (State.reset.ctl u).inLen = 0 ∧ (State.reset.ctl u).outLen = 0 ∧
    (State.reset.ctl u).errCode = .none ∧ (State.reset.ctl u).phase = 0 ∧
    statusWord (State.reset.ctl u).state = 0x00 ∧ errWord (State.reset.ctl u).errCode = 0x00 ∧
    (∀ a, Memory.read (State.reset.ibuf u) a = none) ∧ (∀ a, Memory.read (State.reset.obuf u) a = none)

/-- Rules R320, R321: the reset event, whenever it comes, leaves both units as after reset. Clauses that are the model's: an "unspecified" buffer is one in
which no cell holds a written byte (notes/assumptions/4.md and 9.md); the reset leaves both ports as they are, what they returned and their counters
included (DEDUCED in notes/assumptions/9.md from R321's held transaction); and outside the units only the host's event (notes/assumptions/7.md) and the host's
turn (notes/assumptions/8.md) are used up. -/
def Obligations.ResetEventResetsBothUnits : Prop :=
  ∀ (s : State) (rest : List HostEvent), (pickAgent s).1 = .host → s.script = .reset :: rest →
    ∃ t, step s = .next t ∧
      (∀ u : UnitId, t.ctl u = { state := .idle, inLen := 0, outLen := 0, errCode := .none, phase := 0 } ∧
        (∀ a, Memory.read (t.ibuf u) a = none) ∧ (∀ a, Memory.read (t.obuf u) a = none) ∧ t.port u = s.port u) ∧
      t = { (pickAgent s).2 with enc := t.enc, dec := t.dec, script := rest } ∧
      t.script = rest ∧ t.cfg = s.cfg ∧ t.grain = s.grain ∧ t.sched = (pickAgent s).2.sched ∧ t.turn = (pickAgent s).2.turn

/-! ## The host port -/

/-- Rules R27, R46, R258, R259: the instructions without an effect: NOP and the reserved commands, accepted when the unit is not BUSY, and the idle
values of PHASE, which select no micro-operation. Clauses that are the model's: that an idle unit takes a step which changes nothing is
notes/assumptions/8.md, and that a reserved command runs as NOP and is not refused is notes/assumptions/17.md; the clause on `cmdReserved` holds for every byte,
although rule R259 speaks of 0x03 to 0xFF and the decoder gives this instruction no other byte. -/
def Obligations.InstructionsWithoutEffect : Prop :=
  (∀ (u : UnitId) (v : Byte) (s : State), (s.ctl u).state ≠ .busy →
    exec (.nop u) s = .next s ∧ exec (.cmdReserved u v) s = .next s) ∧
  (∀ s : State, exec .eIdle s = .next s ∧ exec .dIdle s = .next s)

/-- Rule R256: START in IDLE, DONE or ERROR: STATE <- BUSY, PHASE <- INIT; nothing else changes at the command. -/
def Obligations.StartBeginsARun : Prop :=
  ∀ (u : UnitId) (s : State), (s.ctl u).state ≠ .busy →
    ∃ t, exec (.start u) s = .next t ∧ t = s.setCtl u (t.ctl u) ∧
      (t.ctl u).state = .busy ∧ (t.ctl u).phase = 1 ∧
      (t.ctl u).inLen = (s.ctl u).inLen ∧ (t.ctl u).outLen = (s.ctl u).outLen ∧ (t.ctl u).errCode = (s.ctl u).errCode

/-- Rules R257, R295: CLEAR in IDLE, DONE or ERROR: STATE <- IDLE, OUT_LEN <- 0, ERRCODE <- 0; IN_LEN, the buffers and all else stay, and in IDLE
without a result nothing changes. -/
def Obligations.ClearReturnsToIdle : Prop :=
  ∀ (u : UnitId) (s : State), (s.ctl u).state ≠ .busy →
    (∃ t, exec (.clear u) s = .next t ∧ t = s.setCtl u (t.ctl u) ∧
      (t.ctl u).state = .idle ∧ (t.ctl u).outLen = 0 ∧ (t.ctl u).errCode = .none ∧
      (t.ctl u).inLen = (s.ctl u).inLen ∧ (t.ctl u).phase = (s.ctl u).phase) ∧
    ((s.ctl u).state = .idle → (s.ctl u).outLen = 0 → (s.ctl u).errCode = .none → exec (.clear u) s = .next s)

/-- Rules R256 to R259 and R263: while the unit is BUSY a command has no effect, the port holds it, and nothing else changes; and whatever the host
presents at a free port of a BUSY unit, a read of STATUS apart, is held in the same way
(the port's one place for it is notes/assumptions/7.md). -/
def Obligations.BusyUnitLocksTheHostOut : Prop :=
  (∀ (u : UnitId) (v : Byte) (s : State), (s.ctl u).state = .busy →
    exec (.nop u) s = .next (s.setPort u { s.port u with held := some (.csrWrite 0 0x00) }) ∧
    exec (.start u) s = .next (s.setPort u { s.port u with held := some (.csrWrite 0 0x01) }) ∧
    exec (.clear u) s = .next (s.setPort u { s.port u with held := some (.csrWrite 0 0x02) }) ∧
    exec (.cmdReserved u v) s = .next (s.setPort u { s.port u with held := some (.csrWrite 0 v.toNat) })) ∧
  (∀ (u : UnitId) (t : Txn) (rest : List HostEvent) (s : State),
    (pickAgent s).1 = .host → s.script = .txn u t :: rest → (s.port u).held = none →
    (s.ctl u).state = .busy → admitted s.cfg u t = true → t ≠ .csrRead 1 → CtlOk u (s.ctl u) →
    ∃ s', step s = .next s' ∧ s' = ((pickAgent s).2.setScript rest).setPort u (s'.port u) ∧
      (s'.port u).held = some t ∧ (s'.port u).rdata = (s.port u).rdata ∧ (s'.port u).draw = (s.port u).draw)

/-- Rules R252 to R255, R260, R263: every held transaction waits while its unit is BUSY, and once it is not, the port's step accepts it in the state the run
left, with the effect its rule gives: a command runs, a write of IN_LEN and a `BufWrite` write their one place, a read of IN_LEN, OUT_LEN or ERRCODE returns
the register, a `BufRead` returns the byte of the result or, outside it, an unspecified byte (a free value, notes/assumptions/5.md). The port is then free.
That a step of the port accepts it is the model's (notes/assumptions/7.md and 8.md); a read of STATUS is never held. -/
def Obligations.HeldCommandIsAcceptedAfterTheRun : Prop :=
  ∀ (u : UnitId) (t : Txn) (s : State), (pickAgent s).1 = .port u → (s.port u).held = some t → t ≠ .csrRead 1 →
    ((s.ctl u).state = .busy → step s = .next (pickAgent s).2) ∧
    ((s.ctl u).state ≠ .busy →
      let free := (pickAgent s).2.setPort u { s.port u with held := none }
      (∀ v, t = .csrWrite 0 v → v < 256 →
        step s = exec (if v = 0 then .nop u else if v = 1 then .start u else if v = 2 then .clear u else .cmdReserved u (BitVec.ofNat 8 v)) free) ∧
      (∀ v, t = .csrWrite 2 v → v < 2 ^ 64 → step s = .next (free.setCtl u { s.ctl u with inLen := BitVec.ofNat 64 v })) ∧
      (∀ addr b, t = .bufWrite addr b → addr < inCapOf s.cfg u →
        ∃ s', step s = .next s' ∧ s' = free.setIbuf u (s'.ibuf u) ∧
          Memory.read (s'.ibuf u) addr = some b ∧ ∀ a, a ≠ addr → Memory.read (s'.ibuf u) a = Memory.read (s.ibuf u) a) ∧
      (t = .csrRead 2 → step s = .next (free.setPort u { s.port u with held := none, rdata := some (.word (s.ctl u).inLen) })) ∧
      (t = .csrRead 3 → step s = .next (free.setPort u { s.port u with held := none, rdata := some (.word (s.ctl u).outLen) })) ∧
      (t = .csrRead 4 → CtlOk u (s.ctl u) →
        step s = .next (free.setPort u { s.port u with held := none, rdata := some (.byte (errWord (s.ctl u).errCode)) })) ∧
      (∀ addr, t = .bufRead addr → addr < outCapOf s.cfg u → ResultOk s.cfg u (s.ctl u) (s.obuf u) →
        ∃ s' b, step s = .next s' ∧ s' = free.setPort u (s'.port u) ∧
          (s'.port u).held = none ∧ (s'.port u).rdata = some (.byte b) ∧
          ((s.ctl u).state = .done → addr < (s.ctl u).outLen.toNat → Memory.read (s.obuf u) addr = some b) ∧
          (¬((s.ctl u).state = .done ∧ addr < (s.ctl u).outLen.toNat) → b = Config.freeByte u (s.port u).draw)))

/-- Rules R109, R251, R252: a read of STATUS is accepted in every state of the unit, BUSY included, and returns the 8-bit STATUS value (0 IDLE, 1 BUSY,
2 DONE, 3 ERROR); a read of IN_LEN, OUT_LEN or ERRCODE, accepted when the unit is not BUSY, returns the whole register. What the port returns is all
that changes. The clause that a read of STATUS is accepted even while its port holds a transaction is the model's (DEDUCED in notes/assumptions/7.md from rule
R251), and so is the port's field `rdata` for what is returned (the same entry).
(That ERRCODE holds a value the unit can raise is the part of the invariant named `cause`.) -/
def Obligations.RegisterReadsReturnTheRegister : Prop :=
  ∀ (u : UnitId) (rest : List HostEvent) (s : State) (idx : Nat),
    (pickAgent s).1 = .host → s.script = .txn u (.csrRead idx) :: rest →
    idx = 1 ∨ ((s.port u).held = none ∧ (s.ctl u).state ≠ .busy ∧ CtlOk u (s.ctl u) ∧ (idx = 2 ∨ idx = 3 ∨ idx = 4)) →
    ∃ s', step s = .next s' ∧ s' = ((pickAgent s).2.setScript rest).setPort u (s'.port u) ∧
      (s'.port u).held = (s.port u).held ∧ (s'.port u).draw = (s.port u).draw ∧
      (s'.port u).rdata = some
        (if idx = 1 then .byte (match (s.ctl u).state with | .idle => 0x00 | .busy => 0x01 | .done => 0x02 | .error => 0x03)
          else if idx = 2 then .word (s.ctl u).inLen
          else if idx = 3 then .word (s.ctl u).outLen
          else .byte (errWord (s.ctl u).errCode))

/-- Rules R23, R109, R110, R252, R281 (the instruction a register value stands for is the read that returns it, notes/assumptions/11.md): each STATUS value
is returned in every state, each ERRCODE value when the unit is not BUSY; what the port returns is all that changes, and ERRCODE is not cleared. -/
def Obligations.RegisterValuesAreReturned : Prop :=
  (∀ (u : UnitId) (s : State),
    exec (.stIdle u) s = .next (s.setPort u { s.port u with rdata := some (.byte 0x00) }) ∧
    exec (.stBusy u) s = .next (s.setPort u { s.port u with rdata := some (.byte 0x01) }) ∧
    exec (.stDone u) s = .next (s.setPort u { s.port u with rdata := some (.byte 0x02) }) ∧
    exec (.stError u) s = .next (s.setPort u { s.port u with rdata := some (.byte 0x03) })) ∧
  (∀ (u : UnitId) (s : State), (s.ctl u).state ≠ .busy →
    exec (.errNone u) s = .next (s.setPort u { s.port u with rdata := some (.byte 0x00) }) ∧
    exec (.inCap u) s = .next (s.setPort u { s.port u with rdata := some (.byte 0x21) }) ∧
    exec (.outCap u) s = .next (s.setPort u { s.port u with rdata := some (.byte 0x22) })) ∧
  (∀ s : State, (s.ctl .dec).state ≠ .busy →
    exec .hdrShort s = .next (s.setPort .dec { s.port .dec with rdata := some (.byte 0x11) }) ∧
    exec .padRange s = .next (s.setPort .dec { s.port .dec with rdata := some (.byte 0x12) }) ∧
    exec .treeLen s = .next (s.setPort .dec { s.port .dec with rdata := some (.byte 0x13) }) ∧
    exec .treeTrunc s = .next (s.setPort .dec { s.port .dec with rdata := some (.byte 0x14) }) ∧
    exec .treeNodes s = .next (s.setPort .dec { s.port .dec with rdata := some (.byte 0x15) }) ∧
    exec .treeExcess s = .next (s.setPort .dec { s.port .dec with rdata := some (.byte 0x16) }) ∧
    exec .dataTrunc s = .next (s.setPort .dec { s.port .dec with rdata := some (.byte 0x17) }))

/-- Rules R253, R254: accepted when the unit is not BUSY, a write of IN_LEN writes IN_LEN, and a `BufWrite` writes the one cell of IBUF; nothing else
changes. -/
def Obligations.HostWritesChangeOnePlace : Prop :=
  ∀ (u : UnitId) (rest : List HostEvent) (s : State), (pickAgent s).1 = .host → (s.port u).held = none → (s.ctl u).state ≠ .busy →
    (∀ v : Nat, s.script = .txn u (.csrWrite 2 v) :: rest → v < 2 ^ 64 →
      ∃ s', step s = .next s' ∧ s' = ((pickAgent s).2.setScript rest).setCtl u (s'.ctl u) ∧
        (s'.ctl u).inLen.toNat = v ∧ (s'.ctl u).state = (s.ctl u).state ∧ (s'.ctl u).outLen = (s.ctl u).outLen ∧
        (s'.ctl u).errCode = (s.ctl u).errCode ∧ (s'.ctl u).phase = (s.ctl u).phase) ∧
    (∀ (addr : Nat) (b : Byte), s.script = .txn u (.bufWrite addr b) :: rest → addr < inCapOf s.cfg u →
      ∃ s', step s = .next s' ∧ s' = ((pickAgent s).2.setScript rest).setIbuf u (s'.ibuf u) ∧
        Memory.read (s'.ibuf u) addr = some b ∧ ∀ a, a ≠ addr → Memory.read (s'.ibuf u) a = Memory.read (s.ibuf u) a)

/-- Rule R255: a `BufRead`, accepted when the unit is not BUSY, returns in DONE and below OUT_LEN the byte of the result, and otherwise an unspecified
byte (a free value the port draws, notes/assumptions/5.md); it has no effect on the units. -/
def Obligations.BufReadReturnsTheResultByte : Prop :=
  ∀ (u : UnitId) (addr : Nat) (rest : List HostEvent) (s : State),
    (pickAgent s).1 = .host → s.script = .txn u (.bufRead addr) :: rest → (s.port u).held = none →
    (s.ctl u).state ≠ .busy → addr < outCapOf s.cfg u → ResultOk s.cfg u (s.ctl u) (s.obuf u) →
    ∃ s' b, step s = .next s' ∧ s' = ((pickAgent s).2.setScript rest).setPort u (s'.port u) ∧
      (s'.port u).held = none ∧ (s'.port u).rdata = some (.byte b) ∧
      ((s.ctl u).state = .done → addr < (s.ctl u).outLen.toNat → Memory.read (s.obuf u) addr = some b) ∧
      (¬((s.ctl u).state = .done ∧ addr < (s.ctl u).outLen.toNat) → b = Config.freeByte u (s.port u).draw)

/-- Rule R265: the transactions it lists are not admitted, and the model refuses them. -/
def Obligations.UnlistedTransactionsAreRefused : Prop :=
  ∀ (u : UnitId) (t : Txn) (rest : List HostEvent) (s : State),
    (pickAgent s).1 = .host → s.script = .txn u t :: rest → (s.port u).held = none →
    (t = .csrRead 0 ∨ (∃ v, t = .csrWrite 1 v ∨ t = .csrWrite 3 v ∨ t = .csrWrite 4 v) ∨
      (∃ idx, 5 ≤ idx ∧ (t = .csrRead idx ∨ ∃ v, t = .csrWrite idx v)) ∨
      (∃ v, 2 ^ 8 ≤ v ∧ t = .csrWrite 0 v) ∨ (∃ v, 2 ^ 64 ≤ v ∧ t = .csrWrite 2 v) ∨
      (∃ a b, inCapOf s.cfg u ≤ a ∧ t = .bufWrite a b) ∨ (∃ a, outCapOf s.cfg u ≤ a ∧ t = .bufRead a)) →
    step s = .refused (.notAdmitted u)

/-! ## A step runs the decoded instruction -/

/-- The instruction a step runs is the one decoded where the moving agent reads: PHASE while the unit is BUSY (rules R27, R262), the idle value when it is
not (rule R46), the value written to CMD (rule R108), and in the fine grain (notes/assumptions/3.md) the header, the token or the walk bit at hand, or in DEC's
other phases the micro-operation of PHASE. That an idle unit takes a step is notes/assumptions/8.md. -/
def Obligations.StepRunsTheDecodedInstruction : Prop :=
  ∀ (s : State) (i : Instr) (rest : Bits),
    ((pickAgent s).1 = .unit .enc → s.enc.ctl.state = .busy → decode (.phase .enc) (natBits 4 s.enc.ctl.phase.toNat) = .ok (i, rest) →
      step s = exec i (pickAgent s).2) ∧
    ((pickAgent s).1 = .unit .enc → s.enc.ctl.state ≠ .busy → step s = exec .eIdle (pickAgent s).2) ∧
    ((pickAgent s).1 = .unit .dec → s.dec.ctl.state ≠ .busy → step s = exec .dIdle (pickAgent s).2) ∧
    ((pickAgent s).1 = .unit .dec → s.dec.ctl.state = .busy → s.grain = .microOp →
      decode (.phase .dec) (natBits 4 s.dec.ctl.phase.toNat) = .ok (i, rest) → step s = exec i (pickAgent s).2) ∧
    ((pickAgent s).1 = .unit .dec → s.dec.at 2 → s.grain = .stream → 13 ≤ s.cfg.decInCap →
      decode .hdr (headerBits s.dec) = .ok (i, rest) → step s = exec i (pickAgent s).2) ∧
    ((pickAgent s).1 = .unit .dec → s.dec.at 4 → s.grain = .stream → windowFits s.cfg s.dec.treeBits.toNat = true →
      decode .tok (tokenBits s.dec) = .ok (i, rest) → step s = exec i (pickAgent s).2) ∧
    ((pickAgent s).1 = .unit .dec → s.dec.at 5 → s.grain = .stream → windowFits s.cfg s.dec.avail = true →
      decode (.walk (rootIsLeaf s.dec)) (walkBit s.dec) = .ok (i, rest) → step s = exec i (pickAgent s).2) ∧
    ((pickAgent s).1 = .unit .dec → s.dec.ctl.state = .busy → s.grain = .stream →
      s.dec.ctl.phase ≠ 2 → s.dec.ctl.phase ≠ 4 → s.dec.ctl.phase ≠ 5 →
      decode (.phase .dec) (natBits 4 s.dec.ctl.phase.toNat) = .ok (i, rest) → step s = exec i (pickAgent s).2) ∧
    (∀ (u : UnitId) (v : Nat) (l : List HostEvent), (pickAgent s).1 = .host → s.script = .txn u (.csrWrite 0 v) :: l →
      (s.port u).held = none → v < 256 → decode (.cmd u) (natBits 8 v) = .ok (i, rest) →
      step s = exec i ((pickAgent s).2.setScript l))

/-- A bare word of the opcode table, put where the next step reads, is what the next step runs (the window it stands in is the model's choice,
notes/assumptions/10.md). -/
def Obligations.PlacedTableWordIsFetched : Prop :=
  ∀ (nbits w : Nat) (i : Instr), w < 2 ^ nbits → decodeTableWord nbits w = some i →
    let s := State.reset.withFetchWord nbits w
    (fetch (pickAgent s).1 (pickAgent s).2).1 = .run i ∧ step s = exec i (fetch (pickAgent s).1 (pickAgent s).2).2

/-! ## Encoding -/

/-- Rules R91, R93, R98, R100, R108 to R111, R281: every well-formed instruction, written as bits and read in its window, is read back, with every
operand at every value, whatever bits follow. -/
def Obligations.DecodeOfEncodeIsTheInstruction : Prop :=
  ∀ (i : Instr) (rest : Bits), i.wf = true → decode i.window (encode i ++ rest) = .ok (i, rest)

/-- The other direction (rule R90: in one window a word has one meaning): what the decoder reads is well formed, stands in that window, and is written
with the bits that were read. -/
def Obligations.EncodeOfDecodeIsTheWord : Prop :=
  ∀ (w : Window) (bs rest : Bits) (i : Instr), decode w bs = .ok (i, rest) →
    i.wf = true ∧ i.window = w ∧ bs = encode i ++ rest

/-- Words written out from spec/30_encoding.md, one or two for each format; the header is that of vector V5,
00 00 00 00 00 00 00 03 00 00 00 13 02 (the reading of a STATUS or ERRCODE value as an instruction is notes/assumptions/11.md). -/
def Obligations.WordsOfTheSpecDecode : Prop :=
  decode (.cmd .enc) [false, false, false, false, false, false, false, true] = .ok (.start .enc, []) ∧
  decode (.cmd .dec) [false, false, false, false, false, false, true, false] = .ok (.clear .dec, []) ∧
  decode (.phase .enc) [true, false, false, true] = .ok (.eFlush, []) ∧
  decode (.phase .dec) [false, true, false, true] = .ok (.dWalk, []) ∧
  decode .hdr (List.replicate 62 false ++ ([true, true] ++ (List.replicate 27 false ++ ([true, false, false, true, true] ++
    (List.replicate 6 false ++ [true, false]))))) = .ok (.hdr 3 0x13 2, []) ∧
  decode .tok [false, true] = .ok (.tInternal, [true]) ∧
  decode .tok [true, false, true, false, false, false, false, false, true] = .ok (.tLeaf 0x41, []) ∧
  decode (.walk false) [true] = .ok (.wRight, []) ∧
  decode (.walk true) [true] = .ok (.sAny true, []) ∧
  decode (.status .enc) [false, false, false, false, false, false, true, true] = .ok (.stError .enc, []) ∧
  decode (.err .dec) [false, false, false, true, false, true, true, true] = .ok (.dataTrunc, [])

/-- Rules R27, R109, R110, R281: what a register cannot hold is refused by name: PHASE 12 to 15 of ENC and 7 to 15 of DEC, a STATUS value above 3, an
ERRCODE value outside the table, and for ENC the CorruptData causes. -/
def Obligations.UndefinedRegisterValuesAreRefused : Prop :=
  (∀ v, v < 16 → ((∃ i, decode (.phase .enc) (natBits 4 v) = .ok (i, [])) ↔ v ≤ 11)) ∧
  (∀ v, v < 16 → ((∃ i, decode (.phase .dec) (natBits 4 v) = .ok (i, [])) ↔ v ≤ 6)) ∧
  (∀ u v, v < 256 → ((∃ i, decode (.status u) (natBits 8 v) = .ok (i, [])) ↔ v ≤ 3)) ∧
  (∀ v, v < 256 → ((∃ i, decode (.err .enc) (natBits 8 v) = .ok (i, [])) ↔ v = 0x00 ∨ v = 0x21 ∨ v = 0x22)) ∧
  (∀ v, v < 256 → ((∃ i, decode (.err .dec) (natBits 8 v) = .ok (i, [])) ↔
    v = 0x00 ∨ (0x11 ≤ v ∧ v ≤ 0x17) ∨ v = 0x21 ∨ v = 0x22))

/-! ## The encoder -/

/-- Rules R201, R288, R290: E_INIT. A message longer than ENC_IN_CAP is Capacity/IN_CAP and only the control registers change; otherwise the listed
registers take the listed values and nothing else changes. -/
def Obligations.EInitClearsTheEncoder : Prop :=
  ∀ s : State,
    (s.cfg.encInCap < s.enc.ctl.inLen.toNat →
      exec .eInit s = .next (s.setEnc { s.enc with
        ctl := { state := .error, inLen := s.enc.ctl.inLen, outLen := 0, errCode := .inCap, phase := 0 } })) ∧
    (s.enc.ctl.inLen.toNat ≤ s.cfg.encInCap →
      ∃ t, exec .eInit s = .next t ∧
        t = s.setEnc { s.enc with
          ctl := { s.enc.ctl with outLen := 0, errCode := .none, phase := if s.enc.ctl.inLen = 0 then 11 else 2 }
          origSize := s.enc.ctl.inLen
          rd := 0
          freq := t.enc.freq
          code := t.enc.code
          nnode := 0
          pq := []
          acc := 0
          nb := 0
          nbits := 0
          wr := 13 } ∧
        ∀ b : Byte, freqOf t.enc b = 0 ∧ codeOf t.enc b = [])

/-- Rules R131, R134: E_COUNT counts the byte at RD and nothing else, moves RD, and leaves for E_LEAVES after the last byte. -/
def Obligations.ECountCountsOneByte : Prop :=
  ∀ s : State, s.enc.rd.toNat < s.enc.ctl.inLen.toNat → s.enc.ctl.inLen.toNat ≤ s.cfg.encInCap →
    ∃ t, exec .eCount s = .next t ∧
      t = s.setEnc { s.enc with
        freq := t.enc.freq
        rd := s.enc.rd + 1
        ctl := { s.enc.ctl with
          phase := if s.enc.rd.toNat + 1 = s.enc.ctl.inLen.toNat then 3 else s.enc.ctl.phase } } ∧
      (∀ b : Byte, freqOf t.enc b =
        if b = cellByte .enc s.enc.epoch s.enc.ibuf s.enc.rd.toNat then freqOf s.enc b + 1 else freqOf s.enc b) ∧
      (∀ b : Byte, Memory.read s.enc.ibuf s.enc.rd.toNat = some b → freqOf t.enc b = freqOf s.enc b + 1)

/-- Rule R132: when the whole message has been counted, FREQ[s] is the number of its bytes equal to s, and E_LEAVES follows. -/
def Obligations.CountingGivesTheByteFrequencies : Prop :=
  ∀ (cfg : Config) (e : Enc) (msg : List Byte), cfg.wf → msg ≠ [] → msg.length ≤ cfg.encInCap →
    e.ctl.inLen.toNat = msg.length → Holds e.ibuf msg → e.rd = 0 → e.ctl.phase = 2 → (∀ b : Byte, freqOf e b = 0) →
    (∀ b : Byte, (freqOf (countByte^[msg.length] e) b).toNat = msg.count b) ∧
    (countByte^[msg.length] e).rd = e.ctl.inLen ∧ (countByte^[msg.length] e).ctl.phase = 3 ∧
    ∀ k, k < msg.length → (countByte^[k] e).ctl.phase = 2

/-- Rule R141: E_LEAVES makes one Leaf for each symbol that occurs, with handles 0, 1, 2, … in ascending order of the symbols; the queue holds them all. -/
def Obligations.ELeavesMakesOneLeafPerSymbol : Prop :=
  ∀ s : State, s.enc.nnode.val = 0 → s.enc.pq = [] →
    ∃ t, exec .eLeaves s = .next t ∧
      t = s.setEnc { s.enc with
        node := t.enc.node, nnode := t.enc.nnode, pq := t.enc.pq, ctl := { s.enc.ctl with phase := 4 } } ∧
      t.enc.nnode.val = (allSymbols.filter fun b => freqOf s.enc b ≠ 0).length ∧
      (∀ h : Handle, h ∈ t.enc.pq ↔ h.val < t.enc.nnode.val) ∧ t.enc.pq.length = t.enc.nnode.val ∧
      (∀ (h : Handle) (b : Byte), (allSymbols.filter fun b => freqOf s.enc b ≠ 0)[h.val]? = some b →
        encNode t.enc.node h = .leaf b (freqOf s.enc b)) ∧
      (∀ h : Handle, t.enc.nnode.val ≤ h.val → encNode t.enc.node h = encNode s.enc.node h)

/-- Rule R142: `ExtractMin` gives the member that comes before every other (smaller frequency first, then the order TIEBREAK gives, a rank list in this model,
notes/assumptions/2.md, then the smaller handle) and takes it out of the queue; on the default TIEBREAK the order among equal frequencies is that of the handles. -/
def Obligations.ExtractMinGivesTheFirst : Prop :=
  ∀ (cfg : Config) (nodes : Vector EncNode 511) (q : List Handle), q.Nodup → q ≠ [] →
    ∃ a q', extractMin cfg nodes q = some (a, q') ∧ a ∈ q ∧ (∀ h, h ∈ q' ↔ h ∈ q ∧ h ≠ a) ∧ q'.length + 1 = q.length ∧
      (∀ h ∈ q', (nodeFreq (encNode nodes a)).toNat ≤ (nodeFreq (encNode nodes h)).toNat ∧
        ((nodeFreq (encNode nodes a)).toNat = (nodeFreq (encNode nodes h)).toNat →
          tieOf cfg a ≤ tieOf cfg h ∧ (tieOf cfg a = tieOf cfg h → a < h))) ∧
      (cfg.tieRank = [] → ∀ h, tieOf cfg h = h.val)

/-- Rule R143: E_MERGE extracts the two first handles A and B, makes their Internal node at the next handle with A to the left and the sum of the
frequencies, and puts it in the queue; with one handle left it passes on to E_ROOT. Nothing else changes. -/
def Obligations.EMergeJoinsTheTwoFirst : Prop :=
  ∀ s : State,
    (∀ (a b : Handle) (q q' : List Handle), extractMin s.cfg s.enc.node s.enc.pq = some (a, q) →
      extractMin s.cfg s.enc.node q = some (b, q') → s.enc.nnode.val < 511 →
      ∃ (t : State) (h : Handle), exec .eMerge s = .next t ∧ h.val = s.enc.nnode.val ∧ t.enc.nnode.val = s.enc.nnode.val + 1 ∧
        t = s.setEnc { s.enc with node := t.enc.node, nnode := t.enc.nnode, pq := t.enc.pq } ∧
        encNode t.enc.node h = .internal (nodeFreq (encNode s.enc.node a) + nodeFreq (encNode s.enc.node b)) a b ∧
        (∀ g : Handle, g ≠ h → encNode t.enc.node g = encNode s.enc.node g) ∧
        (∀ g : Handle, g ∈ t.enc.pq ↔ g = h ∨ g ∈ q')) ∧
    (∀ a : Handle, s.enc.pq = [a] →
      exec .eMerge s = .next (s.setEnc { s.enc with ctl := { s.enc.ctl with phase := 5 } }))

/-- Rules R144, R147: from d queued handles there are d - 1 merging steps, each taking one handle out of the queue and one record of the arena, and then one
passing step. When the queued handles are Leaves, the one handle left is the root of a tree whose symbols are those of these Leaves, each as often as it is
queued, so that symbols queued once stand in the tree once; and children stay below their parents. (The tree and the children's order are the premises of the
statements about E_CODEGEN and E_TREE.) -/
def Obligations.MergingTakesOneStepPerPair : Prop :=
  ∀ (s : State) (n : Nat), s.enc.pq.length = n + 1 → s.enc.pq.Pairwise (· < ·) → (∀ h ∈ s.enc.pq, h.val < s.enc.nnode.val) →
    s.enc.nnode.val + (n + 1) ≤ 512 → s.enc.ctl.phase = 4 →
    ∃ t, Nat.iterate (fun o => o.bind fun e => mergeStep s.cfg e) n (some s.enc) = some t ∧
      t.pq.length = 1 ∧ t.nnode.val = s.enc.nnode.val + n ∧ t.ctl.phase = 4 ∧
      (∃ t', mergeStep s.cfg t = some t' ∧ t'.ctl.phase = 5 ∧ t'.pq = t.pq) ∧
      (ArenaOk s.enc.node → ArenaOk t.node) ∧
      ∀ syms : List Byte, List.Forall₂ (fun h b => ∃ f, encNode s.enc.node h = .leaf b f) s.enc.pq syms →
        ∃ (root : Handle) (tree : CodeTree), t.pq = [root] ∧ EncReps t.node root tree ∧ tree.syms.Perm syms ∧
          (syms.Nodup → tree.syms.Nodup)

/-- Rule R145: E_ROOT takes the one handle left as ROOT and empties the queue; nothing else changes. -/
def Obligations.ERootTakesTheLastHandle : Prop :=
  ∀ (s : State) (h : Handle), s.enc.pq = [h] →
    exec .eRoot s = .next (s.setEnc { s.enc with root := h, pq := [], ctl := { s.enc.ctl with phase := 6 } })

/-- Rules R151, R152: E_CODEGEN completes on every arena in which children are below their parents (rule R31) and changes the code table and PHASE
alone; a root that is a Leaf gets the synthetic code `0`. -/
def Obligations.ECodegenFillsTheTable : Prop :=
  ∀ s : State, ArenaOk s.enc.node →
    ∃ t, exec .eCodegen s = .next t ∧
      t = s.setEnc { s.enc with code := t.enc.code, ctl := { s.enc.ctl with phase := 7 } } ∧
      (∀ (b : Byte) (f : BitVec 64), encNode s.enc.node s.enc.root = .leaf b f →
        codeOf t.enc b = [false] ∧ ∀ b', b' ≠ b → codeOf t.enc b' = codeOf s.enc b')

/-- Rules R151 to R154: for a tree of at least two Leaves with distinct symbols, CODE[b] after E_CODEGEN is the path to the Leaf of b: it is not empty and
walking the tree along it ends exactly there; the codes are prefix-free; and symbols without a Leaf keep their entry. -/
def Obligations.CodesArePathsToTheLeaves : Prop :=
  ∀ (s t : State) (l r : CodeTree), ArenaOk s.enc.node → EncReps s.enc.node s.enc.root (.node l r) → (CodeTree.node l r).syms.Nodup →
    exec .eCodegen s = .next t →
    (∀ b ∈ (CodeTree.node l r).syms, (CodeTree.node l r).walk (codeOf t.enc b) = some b ∧ codeOf t.enc b ≠ []) ∧
    (∀ a ∈ (CodeTree.node l r).syms, ∀ b ∈ (CodeTree.node l r).syms, codeOf t.enc a <+: codeOf t.enc b → a = b) ∧
    (∀ b, b ∉ (CodeTree.node l r).syms → codeOf t.enc b = codeOf s.enc b)

/-- Rule R162: the stream of a tree with d Leaves has 10d - 1 bits. -/
def Obligations.TreeStreamLength : Prop :=
  ∀ t : CodeTree, t.ser.length + 1 = 10 * t.leaves ∧ t.size + 1 = 2 * t.leaves

/-- Rules R161, R163: E_TREE appends the stream of the tree at ROOT, takes its length as TREE_BITS and rewinds RD; a full OBUF is Capacity/OUT_CAP. It
stores at WR and up; every other byte, and every register not named, stays. -/
def Obligations.ETreeEmitsTheTree : Prop :=
  ∀ (s : State) (tree : CodeTree), ArenaOk s.enc.node → EncReps s.enc.node s.enc.root tree → s.cfg.encOutCap < 2 ^ 64 →
    s.enc.nbits = 0 → s.enc.nb = 0 → s.enc.acc = 0 → s.enc.wr = 13 →
    ∃ t, exec .eTree s = .next t ∧
      t = s.setEnc { s.enc with
        acc := t.enc.acc, nb := t.enc.nb, nbits := t.enc.nbits, wr := t.enc.wr, obuf := t.enc.obuf,
        treeBits := t.enc.treeBits, rd := t.enc.rd, ctl := t.enc.ctl } ∧
      (∀ a, a < 13 ∨ t.enc.wr.toNat ≤ a → Memory.read t.enc.obuf a = Memory.read s.enc.obuf a) ∧
      (13 + tree.ser.length / 8 ≤ s.cfg.encOutCap →
        t.enc.ctl = { s.enc.ctl with phase := 8 } ∧ t.enc.rd = 0 ∧ t.enc.nbits = tree.ser.length ∧
        t.enc.treeBits = BitVec.ofNat 32 tree.ser.length ∧ ∀ k (h : k < tree.ser.length), packedBit t.enc k = tree.ser[k]) ∧
      (s.cfg.encOutCap < 13 + tree.ser.length / 8 →
        t.enc.ctl = { state := .error, inLen := s.enc.ctl.inLen, outLen := 0, errCode := .outCap, phase := 0 })

/-- Rule R181: `PutBit` puts the bit at bit 7 - NB of ACC and stores a byte exactly when it is full, at WR; a full byte without room is
Capacity/OUT_CAP. -/
def Obligations.PutBitFillsFromTheTop : Prop :=
  ∀ (cfg : Config) (b : Bool) (e : Enc), (∀ k, k < 8 - e.nb.toNat → e.acc.getLsbD k = false) →
    (e.nb.toNat < 7 →
      ∃ e', putBit cfg b e = .ok () e' ∧ e' = { e with acc := e'.acc, nb := e.nb + 1, nbits := e.nbits + 1 } ∧
        e'.nb.toNat = e.nb.toNat + 1 ∧
        ∀ k, k < 8 → e'.acc.getLsbD k = if k = 7 - e.nb.toNat then b else e.acc.getLsbD k) ∧
    (e.nb.toNat = 7 → e.wr.toNat < cfg.encOutCap →
      ∃ e' c, putBit cfg b e = .ok () e' ∧
        e' = { e with acc := 0, nb := 0, nbits := e.nbits + 1, wr := e.wr + 1, obuf := e'.obuf } ∧
        Memory.read e'.obuf e.wr.toNat = some c ∧ (∀ a, a ≠ e.wr.toNat → Memory.read e'.obuf a = Memory.read e.obuf a) ∧
        ∀ k, k < 8 → c.getLsbD k = if k = 0 then b else e.acc.getLsbD k) ∧
    (e.nb.toNat = 7 → cfg.encOutCap ≤ e.wr.toNat → ∃ e', putBit cfg b e = .raise .outCap e')

/-- Rules R182, R183: the packer keeps what was appended and adds the new bits in order; NB, WR and the unfilled bits of ACC stay in agreement with NBITS. -/
def Obligations.PackerAppendsInOrder : Prop :=
  ∀ (cfg : Config) (w : Bits) (e e' : Enc), cfg.encOutCap < 2 ^ 64 → PackerOk e → putBits cfg w e = .ok () e' →
    PackerOk e' ∧ e'.nbits = e.nbits + w.length ∧
    (∀ k, k < e.nbits → packedBit e' k = packedBit e k) ∧
    (∀ k (h : k < w.length), packedBit e' (e.nbits + k) = w[k])

/-- Rule R207: E_DATA appends the code of the byte at RD, moves RD, and leaves for E_FLUSH after the last byte; it stores at WR and up. A full OBUF is
Capacity/OUT_CAP. Every other byte, and every register not named, stays. -/
def Obligations.EDataEmitsOneCodeword : Prop :=
  ∀ s : State, s.enc.rd.toNat < s.enc.ctl.inLen.toNat → s.enc.ctl.inLen.toNat ≤ s.cfg.encInCap → s.cfg.encOutCap < 2 ^ 64 → PackerOk s.enc →
    let w := codeOf s.enc (cellByte .enc s.enc.epoch s.enc.ibuf s.enc.rd.toNat)
    ∃ t, exec .eData s = .next t ∧
      t = s.setEnc { s.enc with
        acc := t.enc.acc, nb := t.enc.nb, nbits := t.enc.nbits, wr := t.enc.wr, obuf := t.enc.obuf, rd := t.enc.rd, ctl := t.enc.ctl } ∧
      (∀ a, a < s.enc.wr.toNat ∨ t.enc.wr.toNat ≤ a → Memory.read t.enc.obuf a = Memory.read s.enc.obuf a) ∧
      (13 + (s.enc.nbits + w.length) / 8 ≤ s.cfg.encOutCap →
        t.enc.rd = s.enc.rd + 1 ∧ t.enc.nbits = s.enc.nbits + w.length ∧
        (∀ k (h : k < w.length), packedBit t.enc (s.enc.nbits + k) = w[k]) ∧
        t.enc.ctl = { s.enc.ctl with phase := if s.enc.rd.toNat + 1 = s.enc.ctl.inLen.toNat then 9 else s.enc.ctl.phase }) ∧
      (s.cfg.encOutCap < 13 + (s.enc.nbits + w.length) / 8 → s.enc.wr.toNat ≤ s.cfg.encOutCap →
        t.enc.ctl = { state := .error, inLen := s.enc.ctl.inLen, outLen := 0, errCode := .outCap, phase := 0 })

/-- Rule R184: E_FLUSH pads to a byte boundary. With NB = 0 it adds no byte and PAD_BITS is 0; else PAD_BITS is 8 - NB and ACC is stored at WR. NBITS and
every byte but the one at WR stay. -/
def Obligations.EFlushPadsToAByte : Prop :=
  ∀ s : State,
    (s.enc.nb = 0 →
      exec .eFlush s = .next (s.setEnc { s.enc with padBits := 0, ctl := { s.enc.ctl with phase := 10 } })) ∧
    (s.enc.nb ≠ 0 → s.enc.wr.toNat < s.cfg.encOutCap →
      ∃ t, exec .eFlush s = .next t ∧
        t = s.setEnc { s.enc with
          padBits := t.enc.padBits, obuf := t.enc.obuf, wr := s.enc.wr + 1, acc := 0, nb := 0,
          ctl := { s.enc.ctl with phase := 10 } } ∧
        t.enc.padBits.toNat = 8 - s.enc.nb.toNat ∧ Memory.read t.enc.obuf s.enc.wr.toNat = some s.enc.acc ∧
        ∀ a, a ≠ s.enc.wr.toNat → Memory.read t.enc.obuf a = Memory.read s.enc.obuf a) ∧
    (s.enc.nb ≠ 0 → s.cfg.encOutCap ≤ s.enc.wr.toNat →
      ∃ t, exec .eFlush s = .next t ∧
        t.enc.ctl = { state := .error, inLen := s.enc.ctl.inLen, outLen := 0, errCode := .outCap, phase := 0 } ∧
        t.enc.obuf = s.enc.obuf)

/-- Rules R70, R72, R91, R209: E_HEADER stores the 13 header bytes, which as bits are the encoding of HDR with the three header registers, at addresses 0
to 12, takes WR as OUT_LEN and ends the run in DONE. Every other byte and register stays. -/
def Obligations.EHeaderStoresTheHeader : Prop :=
  ∀ s : State, s.cfg.wf →
    ∃ (t : State) (bs : List Byte), exec .eHeader s = .next t ∧
      t = s.setEnc { s.enc with
        obuf := t.enc.obuf
        ctl := { state := .done, inLen := s.enc.ctl.inLen, outLen := s.enc.wr, errCode := s.enc.ctl.errCode, phase := 0 } } ∧
      bs.length = 13 ∧ bytesBits bs = encode (.hdr s.enc.origSize s.enc.treeBits s.enc.padBits) ∧
      (∀ a, a < 13 → Memory.read t.enc.obuf a = bs[a]?) ∧
      (∀ a, 13 ≤ a → Memory.read t.enc.obuf a = Memory.read s.enc.obuf a)

/-- Rule R210: E_EMPTY stores thirteen bytes 0x00, clears the header registers, takes 13 as OUT_LEN and ends the run in DONE. Every other byte and register
stays. -/
def Obligations.EEmptyStoresTheEmptyFile : Prop :=
  ∀ s : State, s.cfg.wf →
    ∃ t, exec .eEmpty s = .next t ∧
      t = s.setEnc { s.enc with
        origSize := 0, treeBits := 0, padBits := 0, obuf := t.enc.obuf,
        ctl := { state := .done, inLen := s.enc.ctl.inLen, outLen := 13, errCode := s.enc.ctl.errCode, phase := 0 } } ∧
      (∀ a, a < 13 → Memory.read t.enc.obuf a = some 0) ∧
      (∀ a, 13 ≤ a → Memory.read t.enc.obuf a = Memory.read s.enc.obuf a)

/-! ## The decoder -/

/-- Rules R221, R282, R288, R290: D_INIT. IN_LEN above DEC_IN_CAP is IN_CAP, else below 13 it is HDR_SHORT, and then only the control registers change (and
the fields of the fine grain, dropped with the run, notes/assumptions/3.md); else the cursors are cleared and D_HEADER follows. -/
def Obligations.DInitChecksTheLength : Prop :=
  ∀ s : State,
    (s.cfg.decInCap < s.dec.ctl.inLen.toNat →
      exec .dInit s = .next (s.setDec { s.dec with
        ctl := { state := .error, inLen := s.dec.ctl.inLen, outLen := 0, errCode := .inCap, phase := 0 }
        stack := []
        inSym := false })) ∧
    (s.dec.ctl.inLen.toNat ≤ s.cfg.decInCap → s.dec.ctl.inLen.toNat < 13 →
      exec .dInit s = .next (s.setDec { s.dec with
        ctl := { state := .error, inLen := s.dec.ctl.inLen, outLen := 0, errCode := .hdrShort, phase := 0 }
        stack := []
        inSym := false })) ∧
    (s.dec.ctl.inLen.toNat ≤ s.cfg.decInCap → 13 ≤ s.dec.ctl.inLen.toNat →
      exec .dInit s = .next (s.setDec { s.dec with
        ctl := { s.dec.ctl with outLen := 0, errCode := .none, phase := 2 }
        nnode := 0
        bitpos := 0
        wr := 0
        stack := []
        inSym := false }))

/-- Rules R72, R91, R222, R223: when the 13 bytes of the file's header spell the encoding of HDR o t p, D_HEADER and the instruction HDR o t p load the three
registers with o, t and p, and D_FINISH follows for originalSize 0, D_CHECK otherwise; nothing else changes. (HDR as an instruction of its own is the model's fine grain,
notes/assumptions/3.md.) -/
def Obligations.HeaderIsLoaded : Prop :=
  ∀ (s : State) (o : BitVec 64) (t : BitVec 32) (p : Byte),
    let loaded : State := s.setDec { s.dec with
      origSize := o, treeBits := t, padBits := p, ctl := { s.dec.ctl with phase := if o = 0 then 6 else 3 } }
    exec (.hdr o t p) s = .next loaded ∧
    (13 ≤ s.cfg.decInCap → headerBits s.dec = encode (.hdr o t p) → exec .dHeader s = .next loaded)

/-- Rules R224, R283, R284, R289, R293: D_CHECK makes its three checks in the order PAD_RANGE, TREE_LEN, OUT_CAP and reports the first that fails; when all
pass, AVAIL is 8·N - PAD_BITS and D_TREE follows. AVAIL and the control registers are all that changes (a fault also drops
the fields of the fine grain, notes/assumptions/3.md). -/
def Obligations.DCheckReportsTheFirstFailure : Prop :=
  ∀ s : State, 13 ≤ s.dec.ctl.inLen.toNat →
    let n := s.dec.ctl.inLen.toNat - 13
    let p := s.dec.padBits.toNat
    let bad : ErrCode → Ctl := fun c => { state := .error, inLen := s.dec.ctl.inLen, outLen := 0, errCode := c, phase := 0 }
    ∃ t, exec .dCheck s = .next t ∧
      t = s.setDec { s.dec with avail := t.dec.avail, ctl := t.dec.ctl, stack := t.dec.stack, inSym := t.dec.inSym } ∧
      (7 < p ∨ 8 * n < p → t.dec.ctl = bad .padRange) ∧
      (p ≤ 7 → p ≤ 8 * n → t.dec.avail = 8 * n - p) ∧
      (p ≤ 7 → p ≤ 8 * n → 8 * n - p < s.dec.treeBits.toNat → t.dec.ctl = bad .treeLen) ∧
      (p ≤ 7 → p ≤ 8 * n → s.dec.treeBits.toNat ≤ 8 * n - p → s.cfg.decOutCap < s.dec.origSize.toNat → t.dec.ctl = bad .outCap) ∧
      (p ≤ 7 → p ≤ 8 * n → s.dec.treeBits.toNat ≤ 8 * n - p → s.dec.origSize.toNat ≤ s.cfg.decOutCap →
        t.dec.ctl = { s.dec.ctl with phase := 4 } ∧ t.dec.stack = s.dec.stack ∧ t.dec.inSym = s.dec.inSym)

/-- Rule R185: at or past the limit `GetBit` raises the cause and BITPOS is not advanced; below it, it returns bit 7 - BITPOS mod 8 of the byte at address
13 + BITPOS div 8 and advances BITPOS by one. -/
def Obligations.GetBitReadsOneBit : Prop :=
  ∀ (limit : Nat) (cause : ErrCode) (d : Dec),
    (limit ≤ d.bitpos → getBit limit cause d = .raise cause d) ∧
    (d.bitpos < limit → ∀ b : Byte, Memory.read d.ibuf (13 + d.bitpos / 8) = some b →
      getBit limit cause d = .ok (b.getLsbD (7 - d.bitpos % 8)) { d with bitpos := d.bitpos + 1 })

/-- Rules R166, R171: when the tree window holds exactly the stream of a tree of at most 511 nodes, D_TREE ends without fault, the tree at handle 0 is that
tree, NNODE is its number of nodes, BITPOS stands at the first data bit, and D_WALK follows; nothing else changes. -/
def Obligations.DTreeRebuildsTheTree : Prop :=
  ∀ (s : State) (tree : CodeTree), tree.size ≤ 511 → s.dec.nnode.val = 0 → s.dec.bitpos = 0 →
    s.dec.treeBits.toNat = tree.ser.length → windowFits s.cfg tree.ser.length = true → Spells s.dec 0 tree.ser →
    ∃ t, exec .dTree s = .next t ∧
      t = s.setDec { s.dec with
        node := t.dec.node, nnode := t.dec.nnode, bitpos := tree.ser.length, ctl := { s.dec.ctl with phase := 5 } } ∧
      DecReps t.dec.node 0 tree ∧ t.dec.nnode.val = tree.size

/-- Rules R164 to R169, R290: whatever the window holds, D_TREE completes: with D_WALK next and BITPOS at TREE_BITS, or with one of its three faults; BITPOS
never passes TREE_BITS, NNODE never passes 511, and no byte of memory and no register but those named changes. -/
def Obligations.DTreeAlwaysEnds : Prop :=
  ∀ s : State, s.dec.nnode.val = 0 → s.dec.bitpos = 0 → windowFits s.cfg s.dec.treeBits.toNat = true →
    ∃ t, exec .dTree s = .next t ∧
      t = s.setDec { s.dec with
        node := t.dec.node, nnode := t.dec.nnode, bitpos := t.dec.bitpos, ctl := t.dec.ctl, stack := t.dec.stack, inSym := t.dec.inSym } ∧
      t.dec.bitpos ≤ s.dec.treeBits.toNat ∧
      ((t.dec.ctl = { s.dec.ctl with phase := 5 } ∧ t.dec.bitpos = s.dec.treeBits.toNat ∧ ∃ tree, DecReps t.dec.node 0 tree) ∨
        ∃ c, (c = .treeNodes ∨ c = .treeTrunc ∨ c = .treeExcess) ∧
          t.dec.ctl = { state := .error, inLen := s.dec.ctl.inLen, outLen := 0, errCode := c, phase := 0 } ∧
          (c = .treeNodes → t.dec.nnode.val = 511) ∧ (c = .treeTrunc → t.dec.bitpos = s.dec.treeBits.toNat) ∧
          (c = .treeExcess → t.dec.bitpos < s.dec.treeBits.toNat))

/-- Rules R94 to R96, R165 to R169: a token takes the next handle. With no handle left it is TREE_NODES; with fewer bits left in the window than the token
has it is TREE_TRUNC at the window's end; else BITPOS moves by the token's length, T_LEAF writes its Leaf and T_INTERNAL awaits its left subtree. A Leaf closes
every Internal node whose right subtree it ends, innermost first: the node above these then awaits its right subtree, or, with none above, the tree is complete
and must end the window, else it is TREE_EXCESS. The model's own: a token is a step of its own, with the pending calls in the field `stack` (the fine grain,
DESIGN CHOICE of notes/assumptions/3.md: rule R42(b) calls the stack not architectural), and where BITPOS stands at a fault is notes/assumptions/15.md. -/
def Obligations.TokensTakeTheNextHandle : Prop :=
  ∀ (s : State) (sym : Byte),
    let bad : ErrCode → Ctl := fun c => { state := .error, inLen := s.dec.ctl.inLen, outLen := 0, errCode := c, phase := 0 }
    let closes : List (Handle × Handle) → List Frame := fun ps => ps.map fun c => .needRight c.1 c.2
    (s.dec.nnode.val = 511 → ∀ i, i = Instr.tInternal ∨ i = .tLeaf sym →
      ∃ t, exec i s = .next t ∧ t.dec.ctl = bad .treeNodes ∧ t.dec.bitpos = s.dec.bitpos) ∧
    (s.dec.nnode.val < 511 → s.dec.bitpos ≤ s.dec.treeBits.toNat → s.dec.treeBits.toNat < s.dec.bitpos + 1 →
      ∃ t, exec .tInternal s = .next t ∧ t.dec.ctl = bad .treeTrunc ∧ t.dec.bitpos = s.dec.treeBits.toNat) ∧
    (s.dec.nnode.val < 511 → s.dec.bitpos ≤ s.dec.treeBits.toNat → s.dec.treeBits.toNat < s.dec.bitpos + 9 →
      ∃ t, exec (.tLeaf sym) s = .next t ∧ t.dec.ctl = bad .treeTrunc ∧ t.dec.bitpos = s.dec.treeBits.toNat) ∧
    (∀ h : Handle, h.val = s.dec.nnode.val → s.dec.bitpos + 1 ≤ s.dec.treeBits.toNat →
      ∃ t, exec .tInternal s = .next t ∧ t.dec.nnode.val = s.dec.nnode.val + 1 ∧
        t = s.setDec { s.dec with nnode := t.dec.nnode, bitpos := s.dec.bitpos + 1, stack := .needLeft h :: s.dec.stack }) ∧
    (∀ (h q : Handle) (ps : List (Handle × Handle)) (st : List Frame), h.val = s.dec.nnode.val → (h :: ps.map Prod.fst).Pairwise (· > ·) →
      s.dec.bitpos + 9 ≤ s.dec.treeBits.toNat → s.dec.stack = closes ps ++ .needLeft q :: st →
      ∃ t, exec (.tLeaf sym) s = .next t ∧ t.dec.nnode.val = s.dec.nnode.val + 1 ∧
        t = s.setDec { s.dec with
          node := t.dec.node, nnode := t.dec.nnode, bitpos := s.dec.bitpos + 9, stack := .needRight q ((ps.map Prod.fst).getLastD h) :: st } ∧
        decNode t.dec.node h = .leaf sym ∧
        (∀ (k : Nat) (p l x : Handle), ps[k]? = some (p, l) → (h :: ps.map Prod.fst)[k]? = some x → decNode t.dec.node p = .internal l x) ∧
        ∀ g : Handle, g ∉ h :: ps.map Prod.fst → decNode t.dec.node g = decNode s.dec.node g) ∧
    (∀ (h : Handle) (ps : List (Handle × Handle)), h.val = s.dec.nnode.val → (h :: ps.map Prod.fst).Pairwise (· > ·) →
      s.dec.bitpos + 9 = s.dec.treeBits.toNat → s.dec.stack = closes ps →
      ∃ t, exec (.tLeaf sym) s = .next t ∧ t.dec.nnode.val = s.dec.nnode.val + 1 ∧
        t = s.setDec { s.dec with
          node := t.dec.node, nnode := t.dec.nnode, bitpos := s.dec.bitpos + 9, stack := [], ctl := { s.dec.ctl with phase := 5 } } ∧
        decNode t.dec.node h = .leaf sym ∧
        (∀ (k : Nat) (p l x : Handle), ps[k]? = some (p, l) → (h :: ps.map Prod.fst)[k]? = some x → decNode t.dec.node p = .internal l x) ∧
        ∀ g : Handle, g ∉ h :: ps.map Prod.fst → decNode t.dec.node g = decNode s.dec.node g) ∧
    (∀ ps : List (Handle × Handle), s.dec.nnode.val < 511 → s.dec.bitpos + 9 < s.dec.treeBits.toNat → s.dec.stack = closes ps →
      ∃ t, exec (.tLeaf sym) s = .next t ∧ t.dec.ctl = bad .treeExcess ∧ t.dec.bitpos = s.dec.bitpos + 9)

/-- Rules R11, R36, R42(b), R165: D_TREE is its tokens: from the start of D_TREE, the token steps that follow one another while DEC stays in D_TREE end in the
very state that D_TREE reaches in one micro-operation (the fine grain is notes/assumptions/3.md). -/
def Obligations.DTreeIsItsTokens : Prop :=
  ∀ (s t : State), s.dec.at 4 → s.grain = .stream → s.dec.nnode.val = 0 → s.dec.bitpos = 0 → s.dec.stack = [] → s.dec.inSym = false →
    windowFits s.cfg s.dec.treeBits.toNat = true →
    exec .dTree s = .next t →
    ∃ n, Nat.iterate (fun o => o.bind fun d => match streamJob (s.setDec d) with
        | .run .tInternal => some (settleDec (tokInternal d))
        | .run (.tLeaf sym) => some (settleDec (tokLeaf sym d))
        | _ => none) n (some s.dec) = some t.dec

/-- Rules R98, R99, R225, R227: when the bits at BITPOS lead from the root of a tree of at least two Leaves exactly to a Leaf, inside AVAIL, D_WALK consumes them,
stores that Leaf's byte at WR, counts it, and goes to D_FINISH when the message is complete. Every other byte and register stays. -/
def Obligations.DWalkEmitsTheSymbol : Prop :=
  ∀ (s : State) (l r : CodeTree) (w : Bits) (sym : Byte), DecReps s.dec.node 0 (.node l r) → (CodeTree.node l r).walk w = some sym →
    Spells s.dec s.dec.bitpos w → s.dec.bitpos + w.length ≤ s.dec.avail → windowFits s.cfg s.dec.avail = true →
    s.dec.wr.toNat < s.dec.origSize.toNat → s.dec.origSize.toNat ≤ s.cfg.decOutCap →
    ∃ t, exec .dWalk s = .next t ∧
      t = s.setDec { s.dec with
        cur := t.dec.cur
        bitpos := s.dec.bitpos + w.length
        obuf := t.dec.obuf
        wr := s.dec.wr + 1
        inSym := false
        ctl := { s.dec.ctl with phase := if s.dec.wr.toNat + 1 = s.dec.origSize.toNat then 6 else s.dec.ctl.phase } } ∧
      Memory.read t.dec.obuf s.dec.wr.toNat = some sym ∧
      (∀ a, a ≠ s.dec.wr.toNat → Memory.read t.dec.obuf a = Memory.read s.dec.obuf a) ∧
      decNode s.dec.node t.dec.cur = .leaf sym

/-- Rules R226, R227: with a tree that is a single Leaf, D_WALK and S_ANY consume one data bit whatever its value, store the one symbol at WR and count it. Every
other byte and register stays. (S_ANY as a step of its own, and the flag `inSym`, are the model's fine grain, notes/assumptions/3.md.) -/
def Obligations.SingleLeafTakesOneBit : Prop :=
  ∀ (s : State) (sym : Byte) (x : Bool), decNode s.dec.node 0 = .leaf sym → s.dec.bitpos < s.dec.avail →
    windowFits s.cfg s.dec.avail = true → s.dec.wr.toNat < s.dec.origSize.toNat → s.dec.origSize.toNat ≤ s.cfg.decOutCap →
    ∃ t, exec .dWalk s = .next t ∧ exec (.sAny x) s = .next t ∧
      t = s.setDec { s.dec with
        cur := 0
        bitpos := s.dec.bitpos + 1
        obuf := t.dec.obuf
        wr := s.dec.wr + 1
        inSym := false
        ctl := { s.dec.ctl with phase := if s.dec.wr.toNat + 1 = s.dec.origSize.toNat then 6 else s.dec.ctl.phase } } ∧
      Memory.read t.dec.obuf s.dec.wr.toNat = some sym ∧
      ∀ a, a ≠ s.dec.wr.toNat → Memory.read t.dec.obuf a = Memory.read s.dec.obuf a

/-- Rules R98, R227: W_LEFT goes to the left child and W_RIGHT to the right child of the Internal node the walk stands at, each over one bit. At a child that is
Internal the walk stands there and nothing is stored; at a Leaf its byte is stored at WR and counted. The model's own: one walk bit is a step of its own, and
the flag `inSym` says whether a codeword has been begun, hence where the walk stands (the fine grain, DESIGN CHOICE of notes/assumptions/3.md: rule R227 decodes
a whole symbol in one micro-operation). -/
def Obligations.WalkBitsFollowOneEdge : Prop :=
  ∀ (s : State) (l r : Handle), decNode s.dec.node (standAt s.dec) = .internal l r → s.dec.bitpos < s.dec.avail →
    s.dec.wr.toNat < s.dec.origSize.toNat → s.dec.origSize.toNat ≤ s.cfg.decOutCap →
    ∀ (i : Instr) (c : Handle), (i = .wLeft ∧ c = l) ∨ (i = .wRight ∧ c = r) →
      ∃ t, exec i s = .next t ∧
        (∀ a b, decNode s.dec.node c = .internal a b →
          t = s.setDec { s.dec with cur := c, bitpos := s.dec.bitpos + 1, inSym := true }) ∧
        (∀ sym, decNode s.dec.node c = .leaf sym →
          t = s.setDec { s.dec with
            cur := c
            bitpos := s.dec.bitpos + 1
            inSym := false
            wr := s.dec.wr + 1
            obuf := t.dec.obuf
            ctl := { s.dec.ctl with phase := if s.dec.wr.toNat + 1 = s.dec.origSize.toNat then 6 else s.dec.ctl.phase } } ∧
          Memory.read t.dec.obuf s.dec.wr.toNat = some sym ∧
          ∀ a, a ≠ s.dec.wr.toNat → Memory.read t.dec.obuf a = Memory.read s.dec.obuf a)

/-- Rules R286, R290: a data bit needed at AVAIL is DATA_TRUNC: D_WALK whose bits up to AVAIL lead to no Leaf, and each walk bit at AVAIL, end the run in
ERROR 0x17 with OUT_LEN 0, and store nothing. (A walk bit as a step of its own is the model's fine grain, notes/assumptions/3.md; where BITPOS stands at the
fault is notes/assumptions/15.md.) -/
def Obligations.MissingDataBitIsDataTrunc : Prop :=
  ∀ s : State, windowFits s.cfg s.dec.avail = true → s.dec.wr.toNat < s.cfg.decOutCap →
    let bad : Ctl := { state := .error, inLen := s.dec.ctl.inLen, outLen := 0, errCode := .dataTrunc, phase := 0 }
    (∀ i : Instr, s.dec.avail ≤ s.dec.bitpos →
      (i = .dWalk ∨ (∃ x, i = .sAny x ∧ ∃ sym, decNode s.dec.node 0 = .leaf sym) ∨
        ((i = .wLeft ∨ i = .wRight) ∧ ∃ l r, decNode s.dec.node (standAt s.dec) = .internal l r)) →
      ∃ t, exec i s = .next t ∧ t.dec.ctl = bad ∧ t.dec.bitpos = s.dec.bitpos ∧ t.dec.obuf = s.dec.obuf ∧ t.dec.wr = s.dec.wr) ∧
    (∀ (tree : CodeTree) (w : Bits), DecReps s.dec.node 0 tree → Spells s.dec s.dec.bitpos w → s.dec.bitpos + w.length = s.dec.avail →
      (∀ v, v <+: w → tree.walk v = none) →
      ∃ t, exec .dWalk s = .next t ∧ t.dec.ctl = bad ∧ t.dec.bitpos = s.dec.avail ∧ t.dec.obuf = s.dec.obuf ∧ t.dec.wr = s.dec.wr)

/-- Rule R229: D_FINISH takes ORIG_SIZE as OUT_LEN and ends the run in DONE; nothing else changes. -/
def Obligations.DFinishEndsTheRun : Prop :=
  ∀ s : State, exec .dFinish s = .next (s.setDec { s.dec with
    ctl := { state := .done, inLen := s.dec.ctl.inLen, outLen := s.dec.origSize, errCode := s.dec.ctl.errCode, phase := 0 } })

/-! ## Rules of the whole machine -/

/-- Rules R200, R220, R23: the phase graph: from each phase a micro-operation goes along an edge of the graph, ends the run in DONE from the ending phases only, or
ends it in ERROR from the phases that can raise a fault only. -/
def Obligations.PhaseGraph : Prop :=
  ∀ (s t : State) (i : Instr),
    (∀ rest, decode (.phase .enc) (natBits 4 s.enc.ctl.phase.toNat) = .ok (i, rest) → s.enc.ctl.state = .busy → s.enc.ctl.phase ≠ 0 →
      exec i s = .next t →
      (t.enc.ctl.state = .busy ∧ (s.enc.ctl.phase.toNat, t.enc.ctl.phase.toNat) ∈
        [(1, 2), (1, 11), (2, 2), (2, 3), (3, 4), (4, 4), (4, 5), (5, 6), (6, 7), (7, 8), (8, 8), (8, 9), (9, 10)]) ∨
      (t.enc.ctl.state = .done ∧ t.enc.ctl.phase = 0 ∧ (s.enc.ctl.phase = 10 ∨ s.enc.ctl.phase = 11)) ∨
      (t.enc.ctl.state = .error ∧ t.enc.ctl.phase = 0 ∧ (s.enc.ctl.phase = 1 ∨ s.enc.ctl.phase = 7 ∨ s.enc.ctl.phase = 8 ∨ s.enc.ctl.phase = 9))) ∧
    (∀ rest, decode (.phase .dec) (natBits 4 s.dec.ctl.phase.toNat) = .ok (i, rest) → s.dec.ctl.state = .busy → s.dec.ctl.phase ≠ 0 →
      exec i s = .next t →
      (t.dec.ctl.state = .busy ∧ (s.dec.ctl.phase.toNat, t.dec.ctl.phase.toNat) ∈
        [(1, 2), (2, 3), (2, 6), (3, 4), (4, 5), (5, 5), (5, 6)]) ∨
      (t.dec.ctl.state = .done ∧ t.dec.ctl.phase = 0 ∧ s.dec.ctl.phase = 6) ∨
      (t.dec.ctl.state = .error ∧ t.dec.ctl.phase = 0 ∧
        (s.dec.ctl.phase = 1 ∨ s.dec.ctl.phase = 3 ∨ s.dec.ctl.phase = 4 ∨ s.dec.ctl.phase = 5)))

/-- Rules R281, R290 to R292, R297: whenever an instruction takes a unit from BUSY to ERROR, the control registers are those of the fault entry, IN_LEN and the
input buffer are as before, and ERRCODE is a cause of that unit: for ENC only a Capacity cause. -/
def Obligations.FaultEntryIsPrecise : Prop :=
  ∀ (s t : State) (i : Instr) (u : UnitId), exec i s = .next t → (s.ctl u).state = .busy → (t.ctl u).state = .error →
    (t.ctl u).outLen = 0 ∧ (t.ctl u).phase = 0 ∧ (t.ctl u).errCode ≠ .none ∧ (t.ctl u).inLen = (s.ctl u).inLen ∧
    t.ibuf u = s.ibuf u ∧ (u = .enc → (t.ctl u).errCode = .inCap ∨ (t.ctl u).errCode = .outCap)

/-- Rules R20, R303: the units do not touch each other: the micro-operations of ENC leave DEC and both ports, those of DEC (its tokens, walk bits and header
included) leave ENC and both ports, and an instruction at a unit's port leaves the other unit and the other port. -/
def Obligations.UnitsAreIndependent : Prop :=
  ∀ (s t : State) (i : Instr), exec i s = .next t →
    (i.window = .phase .enc → t.dec = s.dec ∧ t.encPort = s.encPort ∧ t.decPort = s.decPort) ∧
    (i.window = .phase .dec ∨ i.window = .tok ∨ i.window = .hdr ∨ (∃ b, i.window = .walk b) →
      t.enc = s.enc ∧ t.encPort = s.encPort ∧ t.decPort = s.decPort) ∧
    (i.window = .cmd .enc ∨ i.window = .status .enc ∨ i.window = .err .enc → t.dec = s.dec ∧ t.decPort = s.decPort) ∧
    (i.window = .cmd .dec ∨ i.window = .status .dec ∨ i.window = .err .dec → t.enc = s.enc ∧ t.encPort = s.encPort)

/-- Rules R36, R40, R43, R61, R66, R81: no instruction of the table changes an input buffer, the parameters, what the host still does, or whose turn it is; a command
or a register read changes no byte of memory and no working register at all; and no instruction but D_INIT moves BITPOS back. -/
def Obligations.InstructionsLeaveTheInput : Prop :=
  ∀ (s t : State) (i : Instr), exec i s = .next t →
    t.enc.ibuf = s.enc.ibuf ∧ t.dec.ibuf = s.dec.ibuf ∧ t.cfg = s.cfg ∧ t.script = s.script ∧ t.sched = s.sched ∧ t.turn = s.turn ∧
    t.grain = s.grain ∧
    ((∃ u, i.window = .cmd u ∨ i.window = .status u ∨ i.window = .err u) →
      t.enc = { s.enc with ctl := t.enc.ctl } ∧ t.dec = { s.dec with ctl := t.dec.ctl }) ∧
    (i ≠ .dInit → s.dec.bitpos ≤ t.dec.bitpos)

/-- The invariant holds of the reset state, with what the model chose there: that children are below their parents in all 511 records rests on the all-Leaf NODE
of notes/assumptions/9.md (rule R45 leaves NODE unspecified), and that the configuration is well formed on the four capacities of notes/assumptions/1.md; both
are DESIGN CHOICE. -/
def Obligations.InvariantHoldsAtReset : Prop := Inv State.reset

/-- The invariant is kept by every step, from every state that meets it, whichever agent moves, in either grain (notes/assumptions/3.md); the invariant asks for
ENC_OUT_CAP below 2^64 (notes/assumptions/14.md). -/
def Obligations.EveryStepKeepsTheInvariant : Prop := ∀ s t : State, Inv s → step s = .next t → Inv t

/-- Rules R46, R64, R232, R265: from every state that meets the invariant, no step ends in a fault of the model: no access outside a buffer, no record outside the
arena, no endless traversal, no undefined register value. A step is refused for one reason only: the host presents a transaction rule R265 does not admit
(notes/assumptions/13.md); in particular no step meets an instruction without a meaning. -/
def Obligations.InvariantStatesAreSafe : Prop :=
  ∀ s : State, Inv s → Safe s ∧
    (∀ r, step s = .refused r → ∃ u t rest, r = .notAdmitted u ∧
      (pickAgent s).1 = .host ∧ s.script = .txn u t :: rest ∧ admitted s.cfg u t = false)

/-- Rules R46, R262: a unit that is BUSY always has its step: from a state that meets the invariant it completes, by the micro-operation its PHASE selects. DEC
in the fine grain of notes/assumptions/3.md runs in D_HEADER, D_TREE and D_WALK the header, the token or the walk bit at hand instead. -/
def Obligations.BusyUnitAlwaysSteps : Prop :=
  ∀ (s : State) (u : UnitId), Inv s → (pickAgent s).1 = .unit u → (s.ctl u).state = .busy →
    ∃ i rest t, exec i (pickAgent s).2 = .next t ∧ step s = .next t ∧
      (u = .enc ∨ s.grain = .microOp ∨ ((s.ctl u).phase ≠ 2 ∧ (s.ctl u).phase ≠ 4 ∧ (s.ctl u).phase ≠ 5) →
        decode (.phase u) (natBits 4 (s.ctl u).phase.toNat) = .ok (i, rest)) ∧
      (u = .dec → s.grain = .stream →
        ((s.ctl u).phase = 2 → decode .hdr (headerBits s.dec) = .ok (i, rest)) ∧
        ((s.ctl u).phase = 4 → decode .tok (tokenBits s.dec) = .ok (i, rest)) ∧
        ((s.ctl u).phase = 5 → decode (.walk (rootIsLeaf s.dec)) (walkBit s.dec) = .ok (i, rest)))

/-- Rules R181, R184, R185, R187: what the packer wrote the unpacker reads: after bits `w` are appended from an empty packer and flushed, the payload bytes moved to
DEC.IBUF spell `w`, PAD_BITS is (8 - |w| mod 8) mod 8, and the payload has 8·(WR - 13) = |w| + PAD_BITS bits. -/
def Obligations.UnpackerReadsWhatThePackerWrote : Prop :=
  ∀ (cfg : Config) (w : Bits) (e e1 e2 : Enc) (d : Dec), cfg.encOutCap < 2 ^ 64 →
    e.acc = 0 → e.nb = 0 → e.nbits = 0 → e.wr = 13 → putBits cfg w e = .ok () e1 → flush cfg e1 = .ok () e2 →
    (∀ a, 13 ≤ a → a < e2.wr.toNat → Memory.read d.ibuf a = Memory.read e2.obuf a) →
    Spells d 0 w ∧ e2.padBits.toNat = (8 - w.length % 8) % 8 ∧ 8 * (e2.wr.toNat - 13) = w.length + e2.padBits.toNat

/-- Rule R203: the encoder's run depends on IN_LEN and IBUF[0 .. IN_LEN-1] alone: two states with the same configuration, the same IN_LEN and the same bytes there,
both at E_INIT, whatever else they hold, have after every number n ≥ 1 of micro-operations the same control registers, and in DONE the same result bytes. -/
def Obligations.EncodingDependsOnTheMessageAlone : Prop :=
  ∀ (s1 s2 t1 : State) (n : Nat) (msg : List Byte), 1 ≤ n → s1.cfg = s2.cfg → s1.cfg.wf → s1.cfg.encOutCap < 2 ^ 64 →
    s1.enc.at 1 → s2.enc.at 1 → s1.enc.ctl.inLen.toNat = msg.length → s2.enc.ctl.inLen.toNat = msg.length →
    Holds s1.enc.ibuf msg → Holds s2.enc.ibuf msg →
    s1.sched = List.replicate n (.unit .enc) → s2.sched = List.replicate n (.unit .enc) →
    Host.Core.run core n s1 = .next t1 →
    ∃ t2, Host.Core.run core n s2 = .next t2 ∧ t2.enc.ctl = t1.enc.ctl ∧
      (t1.enc.ctl.state = .done → ∀ a, a < t1.enc.ctl.outLen.toNat → Memory.read t2.enc.obuf a = Memory.read t1.enc.obuf a)

/-- Rule R231: the round trip. When a run of ENC on a message ends in DONE and its result is given to DEC, whose buffers it and the message fit, DEC's run ends in DONE
with the message. (That ENC's run does not end in Capacity/OUT_CAP rests on Huffman's theorem, rule R211; the statement does not need it.) -/
def Obligations.DecodeOfEncodeIsTheMessage : Prop :=
  ∀ (s t s' : State) (n : Nat) (msg : List Byte), s.cfg.wf → s.cfg.encOutCap < 2 ^ 64 → s.enc.at 1 →
    s.enc.ctl.inLen.toNat = msg.length → Holds s.enc.ibuf msg → s.sched = List.replicate n (.unit .enc) →
    Host.Core.run core n s = .next t → t.enc.ctl.state = .done →
    s'.cfg = s.cfg → s'.grain = .microOp → s'.dec.at 1 → s'.dec.ctl.inLen = t.enc.ctl.outLen →
    (∀ a, a < t.enc.ctl.outLen.toNat → Memory.read s'.dec.ibuf a = Memory.read t.enc.obuf a) →
    t.enc.ctl.outLen.toNat ≤ s.cfg.decInCap → msg.length ≤ s.cfg.decOutCap →
    s'.sched = List.replicate (msg.length + 5) (.unit .dec) →
    ∃ t', Host.Core.run core (msg.length + 5) s' = .next t' ∧ t'.dec.ctl.state = .done ∧ t'.dec.ctl.errCode = .none ∧
      t'.dec.ctl.outLen.toNat = msg.length ∧ Holds t'.dec.obuf msg
end

