-- ==== Sys2Proof/Laws/Encoding.lean ====
section
/-!
SUPPORT. Laws/Encoding.lean: the laws of bit strings: their lengths, that a number written as bits is read back, and what `takeNat` gives.
-/

set_option Elab.async false
namespace Sys2Proof

@[simp] theorem natBits_length (w v : Nat) : (natBits w v).length = w := by
  induction w with
  | zero => rfl
  | succ w ih => simp [natBits, ih]

@[simp] theorem bin8_length (s : Byte) : (bin8 s).length = 8 := natBits_length 8 s.toNat

/-- The low `w` bits of a number, read back. -/
theorem ofBits_natBits_mod (w v : Nat) : ofBits (natBits w v) = v % 2 ^ w := by
  induction w with
  | zero => simp [natBits, ofBits, Nat.mod_one]
  | succ w ih =>
    simp only [natBits, ofBits, natBits_length, ih]
    rw [Nat.pow_succ, Nat.mod_mul, Nat.testBit, Nat.shiftRight_eq_div_pow, Nat.and_comm, Nat.and_one_is_mod]
    rcases Nat.mod_two_eq_zero_or_one (v / 2 ^ w) with h | h
    · simp [h]
    · simp [h, Nat.add_comm]

/-- A number that fits is read back. -/
theorem ofBits_natBits {w v : Nat} (h : v < 2 ^ w) : ofBits (natBits w v) = v := by
  rw [ofBits_natBits_mod, Nat.mod_eq_of_lt h]

/-- A bit vector written as bits is read back. -/
theorem ofBits_natBits_toNat {w : Nat} (x : BitVec w) : ofBits (natBits w x.toNat) = x.toNat := ofBits_natBits x.isLt

theorem ofBits_lt (bs : Bits) : ofBits bs < 2 ^ bs.length := by
  induction bs with
  | nil => simp [ofBits]
  | cons b bs ih =>
    simp only [ofBits, List.length_cons, Nat.pow_succ]
    cases b <;> simp <;> omega

/-- Bits of the right number are what `natBits` writes. -/
theorem natBits_ofBits (bs : Bits) : natBits bs.length (ofBits bs) = bs := by
  induction bs with
  | nil => rfl
  | cons b bs ih =>
    have hlt := ofBits_lt bs
    have low : ∀ (w c r : Nat), r < 2 ^ w → ∀ k, k ≤ w → natBits k (c * 2 ^ w + r) = natBits k r := by
      intro w c r hr k hk
      induction k with
      | zero => rfl
      | succ k ihk =>
        simp only [natBits]
        rw [ihk (by omega), Nat.mul_comm, Nat.testBit_two_pow_mul_add _ hr]
        simp [show k < w by omega]
    simp only [List.length_cons, natBits, ofBits]
    rw [low _ _ _ hlt _ (Nat.le_refl _), ih, Nat.mul_comm, Nat.testBit_two_pow_mul_add _ hlt]
    cases b <;> simp

/-- The first `n` bits of a string that starts with `n` bits. -/
theorem takeNat_append {n : Nat} {as : Bits} (h : as.length = n) (rest : Bits) : takeNat n (as ++ rest) = some (ofBits as, rest) := by
  subst h
  simp [takeNat]

/-- The only way `takeNat` answers. -/
theorem takeNat_eq_some {n v : Nat} {bs rest : Bits} (h : takeNat n bs = some (v, rest)) :
    bs = natBits n v ++ rest ∧ v < 2 ^ n := by
  unfold takeNat at h
  split at h
  · exact absurd h (by simp)
  · rename_i hn
    simp only [Option.some.injEq, Prod.mk.injEq] at h
    obtain ⟨rfl, rfl⟩ := h
    have hl : (bs.take n).length = n := by rw [List.length_take]; omega
    refine ⟨?_, by simpa [hl] using ofBits_lt (bs.take n)⟩
    have := natBits_ofBits (bs.take n)
    rw [hl] at this
    rw [this, List.take_append_drop]

end Sys2Proof
end

