-- ==== Sys2Proof/Laws/Memory.lean ====
section
/-!
SUPPORT. Laws/Memory.lean: the laws of the byte memories: a read after a store, what a store leaves alone, and that every memory operation
keeps the canonical form.
-/

set_option Elab.async false
namespace Sys2Proof.Machine

theorem Memory.read_write_same (m : Memory) (k : Nat) (v : Byte) : Memory.read (Memory.write m k v) k = some v := by
  induction m with
  | nil => simp [Memory.write, Memory.read]
  | cons c m ih =>
    obtain ⟨a, b⟩ := c
    simp only [Memory.write]
    split
    · simp [Memory.read]
    · split
      · simp [Memory.read]
      · rename_i h1 h2
        simp [Memory.read, h2, ih]

theorem Memory.read_write_other (m : Memory) (k j : Nat) (v : Byte) (h : j ≠ k) :
    Memory.read (Memory.write m k v) j = Memory.read m j := by
  induction m with
  | nil => simp [Memory.write, Memory.read, h]
  | cons c m ih =>
    obtain ⟨a, b⟩ := c
    simp only [Memory.write]
    split
    · simp [Memory.read, h]
    · split
      · rename_i h1 h2
        subst h2
        simp [Memory.read, h]
      · simp only [Memory.read, ih]

theorem Memory.read_write (m : Memory) (k j : Nat) (v : Byte) :
    Memory.read (Memory.write m k v) j = if j = k then some v else Memory.read m j := by
  split
  · rename_i h
    subst h
    exact Memory.read_write_same m j v
  · rename_i h
    exact Memory.read_write_other m k j v h

/-- The addresses after a store are the old ones and the one stored to. -/
theorem Memory.mem_write {m : Memory} {k : Nat} {v : Byte} {c : Host.Cell} (h : c ∈ Memory.write m k v) : c = (k, v) ∨ c ∈ m := by
  induction m with
  | nil => simpa [Memory.write] using h
  | cons d m ih =>
    obtain ⟨a, b⟩ := d
    simp only [Memory.write] at h
    split at h
    · simpa using h
    · split at h
      · rcases List.mem_cons.1 h with h | h
        · exact .inl h
        · exact .inr (List.mem_cons_of_mem _ h)
      · rcases List.mem_cons.1 h with h | h
        · exact .inr (by simp [h])
        · rcases ih h with h | h
          · exact .inl h
          · exact .inr (List.mem_cons_of_mem _ h)

/-- A store keeps the canonical form. -/
theorem Memory.write_wf {m : Memory} (h : Memory.wf m) (k : Nat) (v : Byte) : Memory.wf (Memory.write m k v) := by
  induction m with
  | nil => simp [Memory.write, Memory.wf]
  | cons d m ih =>
    obtain ⟨a, b⟩ := d
    obtain ⟨h1, h2⟩ := List.pairwise_cons.1 h
    simp only [Memory.write]
    split
    · rename_i hk
      refine List.pairwise_cons.2 ⟨fun c hc => ?_, h⟩
      rcases List.mem_cons.1 hc with rfl | hc
      · exact hk
      · exact lt_trans hk (h1 c hc)
    · split
      · rename_i _ hk
        subst hk
        exact List.pairwise_cons.2 ⟨h1, h2⟩
      · rename_i hk1 hk2
        refine List.pairwise_cons.2 ⟨fun c hc => ?_, ih h2⟩
        rcases Memory.mem_write hc with rfl | hc
        · show a < k
          omega
        · exact h1 c hc

/-- A store of several bytes keeps the canonical form. -/
theorem Memory.writeBytes_wf {m : Memory} (h : Memory.wf m) (k : Nat) (bs : List Byte) : Memory.wf (Memory.writeBytes m k bs) := by
  induction bs generalizing m k with
  | nil => exact h
  | cons b bs ih => exact ih (Memory.write_wf h k b) (k + 1)

/-- What a store of several bytes leaves at each address. -/
theorem Memory.read_writeBytes (m : Memory) (k : Nat) (bs : List Byte) (j : Nat) :
    Memory.read (Memory.writeBytes m k bs) j = if k ≤ j ∧ j < k + bs.length then bs[j - k]? else Memory.read m j := by
  induction bs generalizing m k with
  | nil => simp [Memory.writeBytes]
  | cons b bs ih =>
    simp only [Memory.writeBytes, ih, Memory.read_write, List.length_cons]
    by_cases h0 : j = k
    · subst h0
      simp
    · by_cases h1 : k + 1 ≤ j ∧ j < k + 1 + bs.length
      · rw [if_pos h1, if_pos (by omega)]
        obtain ⟨i, hi⟩ : ∃ i, j - k = i + 1 := ⟨j - k - 1, by omega⟩
        rw [hi, show j - (k + 1) = i by omega]
        simp
      · rw [if_neg h1, if_neg h0, if_neg (by omega)]

/-- The addresses after a store of several bytes. -/
theorem Memory.mem_writeBytes {m : Memory} {k : Nat} {bs : List Byte} {c : Host.Cell} (h : c ∈ Memory.writeBytes m k bs) :
    (k ≤ c.1 ∧ c.1 < k + bs.length) ∨ c ∈ m := by
  induction bs generalizing m k with
  | nil => exact .inr h
  | cons b bs ih =>
    rcases ih h with h | h
    · left
      simp only [List.length_cons]
      omega
    · rcases Memory.mem_write h with rfl | h
      · left
        simp
      · exact .inr h

/-- Equal reads make equal memories: the canonical form has one list for each content. -/
theorem Memory.ext_of_read {m n : Memory} (hm : Memory.wf m) (hn : Memory.wf n) (h : ∀ k, Memory.read m k = Memory.read n k) : m = n := by
  have low : ∀ (p : Memory) (k : Nat), (∀ c ∈ p, k < c.1) → Memory.read p k = none := by
    intro p k hp
    induction p with
    | nil => rfl
    | cons c p ih =>
      obtain ⟨a, b⟩ := c
      have := hp (a, b) (by simp)
      simp only [Memory.read]
      rw [if_neg (by simp at this; omega)]
      exact ih fun c hc => hp c (List.mem_cons_of_mem _ hc)
  induction m generalizing n with
  | nil =>
    cases n with
    | nil => rfl
    | cons d n =>
      have := h d.1
      simp [Memory.read] at this
  | cons c m ih =>
    obtain ⟨a, b⟩ := c
    obtain ⟨hm1, hm2⟩ := List.pairwise_cons.1 hm
    cases n with
    | nil =>
      have := h a
      simp [Memory.read] at this
    | cons d n =>
      obtain ⟨a', b'⟩ := d
      obtain ⟨hn1, hn2⟩ := List.pairwise_cons.1 hn
      have haa : a = a' := by
        rcases Nat.lt_trichotomy a a' with hlt | rfl | hlt
        · have := h a
          rw [Memory.read, if_pos rfl, Memory.read, if_neg (by omega),
            low n a fun c hc => lt_trans hlt (hn1 c hc)] at this
          exact absurd this (by simp)
        · rfl
        · have := h a'
          rw [Memory.read, if_neg (by omega), low m a' fun c hc => lt_trans hlt (hm1 c hc),
            Memory.read, if_pos rfl] at this
          exact absurd this (by simp)
      subst haa
      have hb : b = b' := by
        have := h a
        simpa [Memory.read] using this
      subst hb
      rw [ih hm2 hn2 fun k => ?_]
      have := h k
      simp only [Memory.read] at this
      by_cases hk : k = a
      · subst hk
        rw [low m k hm1, low n k hn1]
      · simpa [hk] using this

@[simp] theorem cellBytes_length (u : UnitId) (ep : Nat) (m : Memory) (k n : Nat) : (cellBytes u ep m k n).length = n := by
  induction n generalizing k with
  | zero => rfl
  | succ n ih => simp [cellBytes, ih]

/-- Placing bits keeps the canonical form. -/
theorem placeBits_wf {m : Memory} (h : Memory.wf m) (pos : Nat) (bs : Bits) : Memory.wf (placeBits m pos bs) := by
  induction bs generalizing m pos with
  | nil => exact h
  | cons b bs ih => exact ih (Memory.write_wf h _ _) (pos + 1)

/-- The buffers after reset are in canonical form. -/
theorem reset_memory_wf (u : UnitId) : Memory.wf (State.reset.ibuf u) ∧ Memory.wf (State.reset.obuf u) := by
  cases u <;> decide

end Sys2Proof.Machine
end

