-- ==== Sys2Proof/Laws/State.lean ====
section
/-!
SUPPORT. Laws/State.lean: what each update of the state changes and what it leaves, one lemma per field, so that no proof unfolds an update.
-/

set_option Elab.async false
namespace Sys2Proof.Machine

/-! ### setEnc -/

@[simp] theorem State.setEnc_cfg (s : State) (x : Enc) : (s.setEnc x).cfg = s.cfg := rfl
@[simp] theorem State.setEnc_enc (s : State) (x : Enc) : (s.setEnc x).enc = x := rfl
@[simp] theorem State.setEnc_dec (s : State) (x : Enc) : (s.setEnc x).dec = s.dec := rfl
@[simp] theorem State.setEnc_encPort (s : State) (x : Enc) : (s.setEnc x).encPort = s.encPort := rfl
@[simp] theorem State.setEnc_decPort (s : State) (x : Enc) : (s.setEnc x).decPort = s.decPort := rfl
@[simp] theorem State.setEnc_script (s : State) (x : Enc) : (s.setEnc x).script = s.script := rfl
@[simp] theorem State.setEnc_sched (s : State) (x : Enc) : (s.setEnc x).sched = s.sched := rfl
@[simp] theorem State.setEnc_turn (s : State) (x : Enc) : (s.setEnc x).turn = s.turn := rfl
@[simp] theorem State.setEnc_grain (s : State) (x : Enc) : (s.setEnc x).grain = s.grain := rfl

/-! ### setDec -/

@[simp] theorem State.setDec_cfg (s : State) (x : Dec) : (s.setDec x).cfg = s.cfg := rfl
@[simp] theorem State.setDec_enc (s : State) (x : Dec) : (s.setDec x).enc = s.enc := rfl
@[simp] theorem State.setDec_dec (s : State) (x : Dec) : (s.setDec x).dec = x := rfl
@[simp] theorem State.setDec_encPort (s : State) (x : Dec) : (s.setDec x).encPort = s.encPort := rfl
@[simp] theorem State.setDec_decPort (s : State) (x : Dec) : (s.setDec x).decPort = s.decPort := rfl
@[simp] theorem State.setDec_script (s : State) (x : Dec) : (s.setDec x).script = s.script := rfl
@[simp] theorem State.setDec_sched (s : State) (x : Dec) : (s.setDec x).sched = s.sched := rfl
@[simp] theorem State.setDec_turn (s : State) (x : Dec) : (s.setDec x).turn = s.turn := rfl
@[simp] theorem State.setDec_grain (s : State) (x : Dec) : (s.setDec x).grain = s.grain := rfl

/-! ### setScript -/

@[simp] theorem State.setScript_cfg (s : State) (x : List HostEvent) : (s.setScript x).cfg = s.cfg := rfl
@[simp] theorem State.setScript_enc (s : State) (x : List HostEvent) : (s.setScript x).enc = s.enc := rfl
@[simp] theorem State.setScript_dec (s : State) (x : List HostEvent) : (s.setScript x).dec = s.dec := rfl
@[simp] theorem State.setScript_encPort (s : State) (x : List HostEvent) : (s.setScript x).encPort = s.encPort := rfl
@[simp] theorem State.setScript_decPort (s : State) (x : List HostEvent) : (s.setScript x).decPort = s.decPort := rfl
@[simp] theorem State.setScript_script (s : State) (x : List HostEvent) : (s.setScript x).script = x := rfl
@[simp] theorem State.setScript_sched (s : State) (x : List HostEvent) : (s.setScript x).sched = s.sched := rfl
@[simp] theorem State.setScript_turn (s : State) (x : List HostEvent) : (s.setScript x).turn = s.turn := rfl
@[simp] theorem State.setScript_grain (s : State) (x : List HostEvent) : (s.setScript x).grain = s.grain := rfl

/-! ### setSched -/

@[simp] theorem State.setSched_cfg (s : State) (x : List Agent) : (s.setSched x).cfg = s.cfg := rfl
@[simp] theorem State.setSched_enc (s : State) (x : List Agent) : (s.setSched x).enc = s.enc := rfl
@[simp] theorem State.setSched_dec (s : State) (x : List Agent) : (s.setSched x).dec = s.dec := rfl
@[simp] theorem State.setSched_encPort (s : State) (x : List Agent) : (s.setSched x).encPort = s.encPort := rfl
@[simp] theorem State.setSched_decPort (s : State) (x : List Agent) : (s.setSched x).decPort = s.decPort := rfl
@[simp] theorem State.setSched_script (s : State) (x : List Agent) : (s.setSched x).script = s.script := rfl
@[simp] theorem State.setSched_sched (s : State) (x : List Agent) : (s.setSched x).sched = x := rfl
@[simp] theorem State.setSched_turn (s : State) (x : List Agent) : (s.setSched x).turn = s.turn := rfl
@[simp] theorem State.setSched_grain (s : State) (x : List Agent) : (s.setSched x).grain = s.grain := rfl

/-! ### setTurn -/

@[simp] theorem State.setTurn_cfg (s : State) (x : Agent) : (s.setTurn x).cfg = s.cfg := rfl
@[simp] theorem State.setTurn_enc (s : State) (x : Agent) : (s.setTurn x).enc = s.enc := rfl
@[simp] theorem State.setTurn_dec (s : State) (x : Agent) : (s.setTurn x).dec = s.dec := rfl
@[simp] theorem State.setTurn_encPort (s : State) (x : Agent) : (s.setTurn x).encPort = s.encPort := rfl
@[simp] theorem State.setTurn_decPort (s : State) (x : Agent) : (s.setTurn x).decPort = s.decPort := rfl
@[simp] theorem State.setTurn_script (s : State) (x : Agent) : (s.setTurn x).script = s.script := rfl
@[simp] theorem State.setTurn_sched (s : State) (x : Agent) : (s.setTurn x).sched = s.sched := rfl
@[simp] theorem State.setTurn_turn (s : State) (x : Agent) : (s.setTurn x).turn = x := rfl
@[simp] theorem State.setTurn_grain (s : State) (x : Agent) : (s.setTurn x).grain = s.grain := rfl

/-! ### setPort, hold, respond -/

@[simp] theorem State.setPort_cfg (s : State) (u : UnitId) (x : Port) : (s.setPort u x).cfg = s.cfg := by cases u <;> rfl
@[simp] theorem State.setPort_enc (s : State) (u : UnitId) (x : Port) : (s.setPort u x).enc = s.enc := by cases u <;> rfl
@[simp] theorem State.setPort_dec (s : State) (u : UnitId) (x : Port) : (s.setPort u x).dec = s.dec := by cases u <;> rfl
@[simp] theorem State.setPort_script (s : State) (u : UnitId) (x : Port) : (s.setPort u x).script = s.script := by cases u <;> rfl
@[simp] theorem State.setPort_sched (s : State) (u : UnitId) (x : Port) : (s.setPort u x).sched = s.sched := by cases u <;> rfl
@[simp] theorem State.setPort_turn (s : State) (u : UnitId) (x : Port) : (s.setPort u x).turn = s.turn := by cases u <;> rfl
@[simp] theorem State.setPort_grain (s : State) (u : UnitId) (x : Port) : (s.setPort u x).grain = s.grain := by cases u <;> rfl
@[simp] theorem State.setPort_ctl (s : State) (u : UnitId) (w : UnitId) (x : Port) : (s.setPort u x).ctl w = s.ctl w := by cases u <;> cases w <;> rfl
@[simp] theorem State.setPort_isBusy (s : State) (u : UnitId) (w : UnitId) (x : Port) : (s.setPort u x).isBusy w = s.isBusy w := by cases u <;> cases w <;> rfl

@[simp] theorem State.hold_cfg (s : State) (u : UnitId) (t : Txn) : (s.hold u t).cfg = s.cfg := by cases u <;> rfl
@[simp] theorem State.hold_enc (s : State) (u : UnitId) (t : Txn) : (s.hold u t).enc = s.enc := by cases u <;> rfl
@[simp] theorem State.hold_dec (s : State) (u : UnitId) (t : Txn) : (s.hold u t).dec = s.dec := by cases u <;> rfl
@[simp] theorem State.hold_script (s : State) (u : UnitId) (t : Txn) : (s.hold u t).script = s.script := by cases u <;> rfl
@[simp] theorem State.hold_sched (s : State) (u : UnitId) (t : Txn) : (s.hold u t).sched = s.sched := by cases u <;> rfl
@[simp] theorem State.hold_turn (s : State) (u : UnitId) (t : Txn) : (s.hold u t).turn = s.turn := by cases u <;> rfl
@[simp] theorem State.hold_grain (s : State) (u : UnitId) (t : Txn) : (s.hold u t).grain = s.grain := by cases u <;> rfl
@[simp] theorem State.hold_ctl (s : State) (u : UnitId) (w : UnitId) (t : Txn) : (s.hold u t).ctl w = s.ctl w := by cases u <;> cases w <;> rfl
@[simp] theorem State.hold_isBusy (s : State) (u : UnitId) (w : UnitId) (t : Txn) : (s.hold u t).isBusy w = s.isBusy w := by cases u <;> cases w <;> rfl

@[simp] theorem State.respond_cfg (s : State) (u : UnitId) (v : ReadData) : (s.respond u v).cfg = s.cfg := by cases u <;> rfl
@[simp] theorem State.respond_enc (s : State) (u : UnitId) (v : ReadData) : (s.respond u v).enc = s.enc := by cases u <;> rfl
@[simp] theorem State.respond_dec (s : State) (u : UnitId) (v : ReadData) : (s.respond u v).dec = s.dec := by cases u <;> rfl
@[simp] theorem State.respond_script (s : State) (u : UnitId) (v : ReadData) : (s.respond u v).script = s.script := by cases u <;> rfl
@[simp] theorem State.respond_sched (s : State) (u : UnitId) (v : ReadData) : (s.respond u v).sched = s.sched := by cases u <;> rfl
@[simp] theorem State.respond_turn (s : State) (u : UnitId) (v : ReadData) : (s.respond u v).turn = s.turn := by cases u <;> rfl
@[simp] theorem State.respond_grain (s : State) (u : UnitId) (v : ReadData) : (s.respond u v).grain = s.grain := by cases u <;> rfl
@[simp] theorem State.respond_ctl (s : State) (u : UnitId) (w : UnitId) (v : ReadData) : (s.respond u v).ctl w = s.ctl w := by cases u <;> cases w <;> rfl
@[simp] theorem State.respond_isBusy (s : State) (u : UnitId) (w : UnitId) (v : ReadData) : (s.respond u v).isBusy w = s.isBusy w := by cases u <;> cases w <;> rfl

@[simp] theorem State.setPort_port_same (s : State) (u : UnitId) (x : Port) : (s.setPort u x).port u = x := by cases u <;> rfl
@[simp] theorem State.setPort_enc_decPort (s : State) (x : Port) : (s.setPort .enc x).decPort = s.decPort := rfl
@[simp] theorem State.setPort_dec_encPort (s : State) (x : Port) : (s.setPort .dec x).encPort = s.encPort := rfl
theorem State.setPort_port_other (s : State) (u w : UnitId) (x : Port) (h : w ≠ u) : (s.setPort u x).port w = s.port w := by
  cases u <;> cases w <;> first | rfl | exact absurd rfl h
@[simp] theorem State.hold_held (s : State) (u : UnitId) (t : Txn) : ((s.hold u t).port u).held = some t := by cases u <;> rfl
@[simp] theorem State.respond_rdata (s : State) (u : UnitId) (v : ReadData) : ((s.respond u v).port u).rdata = some v := by cases u <;> rfl

/-! ### setCtl, setIbuf -/

@[simp] theorem State.setCtl_cfg (s : State) (u : UnitId) (x : Ctl) : (s.setCtl u x).cfg = s.cfg := by cases u <;> rfl
@[simp] theorem State.setCtl_encPort (s : State) (u : UnitId) (x : Ctl) : (s.setCtl u x).encPort = s.encPort := by cases u <;> rfl
@[simp] theorem State.setCtl_decPort (s : State) (u : UnitId) (x : Ctl) : (s.setCtl u x).decPort = s.decPort := by cases u <;> rfl
@[simp] theorem State.setCtl_script (s : State) (u : UnitId) (x : Ctl) : (s.setCtl u x).script = s.script := by cases u <;> rfl
@[simp] theorem State.setCtl_sched (s : State) (u : UnitId) (x : Ctl) : (s.setCtl u x).sched = s.sched := by cases u <;> rfl
@[simp] theorem State.setCtl_turn (s : State) (u : UnitId) (x : Ctl) : (s.setCtl u x).turn = s.turn := by cases u <;> rfl
@[simp] theorem State.setCtl_grain (s : State) (u : UnitId) (x : Ctl) : (s.setCtl u x).grain = s.grain := by cases u <;> rfl
@[simp] theorem State.setCtl_port (s : State) (u : UnitId) (w : UnitId) (x : Ctl) : (s.setCtl u x).port w = s.port w := by cases u <;> cases w <;> rfl

@[simp] theorem State.setIbuf_cfg (s : State) (u : UnitId) (x : Memory) : (s.setIbuf u x).cfg = s.cfg := by cases u <;> rfl
@[simp] theorem State.setIbuf_encPort (s : State) (u : UnitId) (x : Memory) : (s.setIbuf u x).encPort = s.encPort := by cases u <;> rfl
@[simp] theorem State.setIbuf_decPort (s : State) (u : UnitId) (x : Memory) : (s.setIbuf u x).decPort = s.decPort := by cases u <;> rfl
@[simp] theorem State.setIbuf_script (s : State) (u : UnitId) (x : Memory) : (s.setIbuf u x).script = s.script := by cases u <;> rfl
@[simp] theorem State.setIbuf_sched (s : State) (u : UnitId) (x : Memory) : (s.setIbuf u x).sched = s.sched := by cases u <;> rfl
@[simp] theorem State.setIbuf_turn (s : State) (u : UnitId) (x : Memory) : (s.setIbuf u x).turn = s.turn := by cases u <;> rfl
@[simp] theorem State.setIbuf_grain (s : State) (u : UnitId) (x : Memory) : (s.setIbuf u x).grain = s.grain := by cases u <;> rfl
@[simp] theorem State.setIbuf_port (s : State) (u : UnitId) (w : UnitId) (x : Memory) : (s.setIbuf u x).port w = s.port w := by cases u <;> cases w <;> rfl

@[simp] theorem State.setCtl_ctl_same (s : State) (u : UnitId) (x : Ctl) : (s.setCtl u x).ctl u = x := by cases u <;> rfl
theorem State.setCtl_ctl_other (s : State) (u w : UnitId) (x : Ctl) (h : w ≠ u) : (s.setCtl u x).ctl w = s.ctl w := by
  cases u <;> cases w <;> first | rfl | exact absurd rfl h
@[simp] theorem State.setCtl_ibuf (s : State) (u w : UnitId) (x : Ctl) : (s.setCtl u x).ibuf w = s.ibuf w := by cases u <;> cases w <;> rfl
@[simp] theorem State.setCtl_obuf (s : State) (u w : UnitId) (x : Ctl) : (s.setCtl u x).obuf w = s.obuf w := by cases u <;> cases w <;> rfl
@[simp] theorem State.setIbuf_ibuf_same (s : State) (u : UnitId) (x : Memory) : (s.setIbuf u x).ibuf u = x := by cases u <;> rfl
theorem State.setIbuf_ibuf_other (s : State) (u w : UnitId) (x : Memory) (h : w ≠ u) : (s.setIbuf u x).ibuf w = s.ibuf w := by
  cases u <;> cases w <;> first | rfl | exact absurd rfl h
@[simp] theorem State.setIbuf_ctl (s : State) (u w : UnitId) (x : Memory) : (s.setIbuf u x).ctl w = s.ctl w := by cases u <;> cases w <;> rfl
@[simp] theorem State.setIbuf_obuf (s : State) (u w : UnitId) (x : Memory) : (s.setIbuf u x).obuf w = s.obuf w := by cases u <;> cases w <;> rfl

/-! ### The control registers -/

@[simp] theorem raiseFault_state (k : ErrCode) (c : Ctl) : (raiseFault k c).state = .error := rfl
@[simp] theorem raiseFault_inLen (k : ErrCode) (c : Ctl) : (raiseFault k c).inLen = c.inLen := rfl
@[simp] theorem raiseFault_outLen (k : ErrCode) (c : Ctl) : (raiseFault k c).outLen = 0 := rfl
@[simp] theorem raiseFault_errCode (k : ErrCode) (c : Ctl) : (raiseFault k c).errCode = k := rfl
@[simp] theorem raiseFault_phase (k : ErrCode) (c : Ctl) : (raiseFault k c).phase = phIdle := rfl

@[simp] theorem clearOutcome_state (c : Ctl) : (clearOutcome c).state = .idle := rfl
@[simp] theorem clearOutcome_inLen (c : Ctl) : (clearOutcome c).inLen = c.inLen := rfl
@[simp] theorem clearOutcome_outLen (c : Ctl) : (clearOutcome c).outLen = 0 := rfl
@[simp] theorem clearOutcome_errCode (c : Ctl) : (clearOutcome c).errCode = .none := rfl
@[simp] theorem clearOutcome_phase (c : Ctl) : (clearOutcome c).phase = c.phase := rfl

@[simp] theorem beginRun_state (c : Ctl) : (beginRun c).state = .busy := rfl
@[simp] theorem beginRun_inLen (c : Ctl) : (beginRun c).inLen = c.inLen := rfl
@[simp] theorem beginRun_outLen (c : Ctl) : (beginRun c).outLen = c.outLen := rfl
@[simp] theorem beginRun_errCode (c : Ctl) : (beginRun c).errCode = c.errCode := rfl
@[simp] theorem beginRun_phase (c : Ctl) : (beginRun c).phase = phInit := rfl

@[simp] theorem endRun_state (n : BitVec 64) (c : Ctl) : (endRun n c).state = .done := rfl
@[simp] theorem endRun_inLen (n : BitVec 64) (c : Ctl) : (endRun n c).inLen = c.inLen := rfl
@[simp] theorem endRun_outLen (n : BitVec 64) (c : Ctl) : (endRun n c).outLen = n := rfl
@[simp] theorem endRun_errCode (n : BitVec 64) (c : Ctl) : (endRun n c).errCode = c.errCode := rfl
@[simp] theorem endRun_phase (n : BitVec 64) (c : Ctl) : (endRun n c).phase = phIdle := rfl

@[simp] theorem initOutcome_state (c : Ctl) : (initOutcome c).state = c.state := rfl
@[simp] theorem initOutcome_inLen (c : Ctl) : (initOutcome c).inLen = c.inLen := rfl
@[simp] theorem initOutcome_outLen (c : Ctl) : (initOutcome c).outLen = 0 := rfl
@[simp] theorem initOutcome_errCode (c : Ctl) : (initOutcome c).errCode = .none := rfl
@[simp] theorem initOutcome_phase (c : Ctl) : (initOutcome c).phase = c.phase := rfl

@[simp] theorem gotoPhase_state (p : BitVec 4) (c : Ctl) : (gotoPhase p c).state = c.state := rfl
@[simp] theorem gotoPhase_inLen (p : BitVec 4) (c : Ctl) : (gotoPhase p c).inLen = c.inLen := rfl
@[simp] theorem gotoPhase_outLen (p : BitVec 4) (c : Ctl) : (gotoPhase p c).outLen = c.outLen := rfl
@[simp] theorem gotoPhase_errCode (p : BitVec 4) (c : Ctl) : (gotoPhase p c).errCode = c.errCode := rfl
@[simp] theorem gotoPhase_phase (p : BitVec 4) (c : Ctl) : (gotoPhase p c).phase = p := rfl

end Sys2Proof.Machine
end

