-- ==== Sys2Proof/Laws/Ops.lean ====
section
/-!
SUPPORT. Laws/Ops.lean: one lemma for each shared operation, saying everything it can do.
-/

set_option Elab.async false
namespace Sys2Proof.Machine

/-! ## Sequencing -/

@[simp] theorem Micro.bind_ok {σ α β : Type} (a : α) (s : σ) (f : α → σ → Micro σ β) : (Micro.ok a s).bind f = f a s := rfl
@[simp] theorem Micro.bind_raise {σ α β : Type} (c : ErrCode) (s : σ) (f : α → σ → Micro σ β) :
    (Micro.raise c s : Micro σ α).bind f = .raise c s := rfl

/-- A sequence ends well only through both parts. -/
theorem Micro.bind_eq_ok {σ α β : Type} {m : Micro σ α} {f : α → σ → Micro σ β} {b : β} {t : σ} (h : m.bind f = .ok b t) :
    ∃ a s, m = .ok a s ∧ f a s = .ok b t := by
  cases m with
  | ok a s => exact ⟨a, s, rfl, h⟩
  | raise c s => exact absurd h (by simp)

/-- A sequence raises in its first part or in its second. -/
theorem Micro.bind_eq_raise {σ α β : Type} {m : Micro σ α} {f : α → σ → Micro σ β} {c : ErrCode} {t : σ} (h : m.bind f = .raise c t) :
    m = .raise c t ∨ ∃ a s, m = .ok a s ∧ f a s = .raise c t := by
  cases m with
  | ok a s => exact .inr ⟨a, s, rfl, h⟩
  | raise c' s => exact .inl (by simpa using h)

theorem Micro.bind_assoc {σ α β γ : Type} (m : Micro σ α) (f : α → σ → Micro σ β) (g : β → σ → Micro σ γ) :
    (m.bind f).bind g = m.bind fun a s => (f a s).bind g := by
  cases m <;> rfl

@[simp] theorem settleEnc_ok (e : Enc) : settleEnc (.ok () e) = e := rfl
@[simp] theorem settleEnc_raise (c : ErrCode) (e : Enc) : settleEnc (.raise c e) = { e with ctl := raiseFault c e.ctl } := rfl
@[simp] theorem settleDec_ok (d : Dec) : settleDec (.ok () d) = d := rfl
@[simp] theorem settleDec_raise (c : ErrCode) (d : Dec) :
    settleDec (.raise c d) = { d with ctl := raiseFault c d.ctl, stack := [], inSym := false } := rfl

/-! ## The packer -/

/-- `PutBit` does one of three things: it fills a bit, it stores the byte that is full, or the byte finds no room. -/
theorem putBit_cases (cfg : Config) (b : Bool) (e : Enc) :
    let acc := e.acc ||| ((if b then (1 : Byte) else 0) <<< (7 - e.nb.toNat))
    (e.nb.toNat < 7 ∧ putBit cfg b e = .ok () { e with acc := acc, nb := e.nb + 1, nbits := e.nbits + 1 }) ∨
    (e.nb.toNat = 7 ∧ e.wr.toNat < cfg.encOutCap ∧
      putBit cfg b e = .ok () { e with
        acc := 0, nb := 0, nbits := e.nbits + 1, obuf := Memory.write e.obuf e.wr.toNat acc, wr := e.wr + 1 }) ∨
    (e.nb.toNat = 7 ∧ cfg.encOutCap ≤ e.wr.toNat ∧
      putBit cfg b e = .raise .outCap { e with acc := acc, nb := e.nb + 1, nbits := e.nbits + 1 }) := by
  have h8 : e.nb.toNat < 8 := e.nb.isLt
  simp only [putBit]
  by_cases h : e.nb.toNat = 7
  · by_cases hc : cfg.encOutCap ≤ e.wr.toNat
    · exact .inr (.inr ⟨h, hc, by rw [if_pos (by omega), if_pos hc]⟩)
    · exact .inr (.inl ⟨h, by omega, by rw [if_pos (by omega), if_neg hc]⟩)
  · exact .inl ⟨by omega, by rw [if_neg (by omega)]⟩

/-- What `PutBits` can change: the packer's registers and OBUF; nothing else of ENC. -/
theorem putBits_frame (cfg : Config) (w : Bits) (e : Enc) :
    (∃ acc nb nbits obuf wr, putBits cfg w e = .ok () { e with acc := acc, nb := nb, nbits := nbits, obuf := obuf, wr := wr }) ∨
    (∃ acc nb nbits obuf wr, putBits cfg w e = .raise .outCap { e with acc := acc, nb := nb, nbits := nbits, obuf := obuf, wr := wr }) := by
  induction w generalizing e with
  | nil => exact .inl ⟨e.acc, e.nb, e.nbits, e.obuf, e.wr, rfl⟩
  | cons b bs ih =>
    simp only [putBits]
    rcases putBit_cases cfg b e with ⟨_, h⟩ | ⟨_, _, h⟩ | ⟨_, _, h⟩
    · rw [h]
      exact ih _
    · rw [h]
      exact ih _
    · rw [h]
      exact .inr ⟨_, _, _, _, _, rfl⟩

theorem putBits_append (cfg : Config) (v w : Bits) (e : Enc) :
    putBits cfg (v ++ w) e = (putBits cfg v e).bind fun _ e' => putBits cfg w e' := by
  induction v generalizing e with
  | nil => rfl
  | cons b bs ih =>
    simp only [List.cons_append, putBits, Micro.bind_assoc]
    congr 1
    funext _ e'
    exact ih e'

/-! ## The unpacker -/

/-- `passBit` raises at the limit and otherwise moves BITPOS by one. -/
theorem passBit_cases (limit : Nat) (cause : ErrCode) (d : Dec) :
    (limit ≤ d.bitpos ∧ passBit limit cause d = .raise cause d) ∨
    (d.bitpos < limit ∧ passBit limit cause d = .ok () { d with bitpos := d.bitpos + 1 }) := by
  unfold passBit
  split
  · exact .inl ⟨by assumption, rfl⟩
  · exact .inr ⟨by omega, rfl⟩

/-- `GetBit` raises at the limit and otherwise returns the bit at BITPOS and moves BITPOS by one (rule R185). -/
theorem getBit_cases (limit : Nat) (cause : ErrCode) (d : Dec) :
    (limit ≤ d.bitpos ∧ getBit limit cause d = .raise cause d) ∨
    (d.bitpos < limit ∧ getBit limit cause d = .ok (payloadBit d d.bitpos) { d with bitpos := d.bitpos + 1 }) := by
  unfold getBit
  rcases passBit_cases limit cause d with ⟨h, e⟩ | ⟨h, e⟩
  · exact .inl ⟨h, by rw [e]; rfl⟩
  · exact .inr ⟨h, by rw [e]; rfl⟩

/-- `passBits` moves BITPOS to the end, or up to the limit and raises. -/
theorem passBits_cases (limit : Nat) (cause : ErrCode) (n : Nat) (d : Dec) :
    (d.bitpos + n ≤ limit ∧ passBits limit cause n d = .ok () { d with bitpos := d.bitpos + n }) ∨
    (n ≠ 0 ∧ limit < d.bitpos + n ∧ passBits limit cause n d = .raise cause { d with bitpos := max d.bitpos limit }) ∨
    (n = 0 ∧ passBits limit cause n d = .ok () d) := by
  induction n generalizing d with
  | zero => exact .inr (.inr ⟨rfl, rfl⟩)
  | succ n ih =>
    simp only [passBits]
    rcases passBit_cases limit cause d with ⟨h, e⟩ | ⟨h, e⟩
    · refine .inr (.inl ⟨by omega, by omega, ?_⟩)
      rw [e, Micro.bind_raise, Nat.max_eq_left h]
    · rw [e, Micro.bind_ok]
      rcases ih { d with bitpos := d.bitpos + 1 } with ⟨h', e'⟩ | ⟨hn, h', e'⟩ | ⟨hn, e'⟩
      · refine .inl ⟨by simp only at h'; omega, ?_⟩
        rw [e']
        simp only [Nat.add_assoc, Nat.add_comm 1 n]
      · refine .inr (.inl ⟨by omega, by simp only at h'; omega, ?_⟩)
        rw [e']
        simp only
        congr 2
        omega
      · subst hn
        exact .inl ⟨by omega, e'⟩

/-! ## Handles -/

/-- A handle is given exactly while the arena has a free record. -/
theorem nextHandle_eq_some {n : Fin 512} {h : Handle} {m : Fin 512} (e : nextHandle n = some (h, m)) :
    h.val = n.val ∧ m.val = n.val + 1 ∧ n.val < 511 := by
  unfold nextHandle at e
  split at e
  · rename_i hn
    simp only [Option.some.injEq, Prod.mk.injEq] at e
    obtain ⟨rfl, rfl⟩ := e
    exact ⟨rfl, rfl, hn⟩
  · exact absurd e (by simp)

theorem nextHandle_eq_none {n : Fin 512} : nextHandle n = none ↔ n.val = 511 := by
  unfold nextHandle
  have := n.isLt
  split <;> simp <;> omega

@[simp] theorem encNode_set_same (v : Vector EncNode 511) (h : Handle) (x : EncNode) : encNode (v.set h.val x h.isLt) h = x := by
  simp [encNode]
theorem encNode_set_other (v : Vector EncNode 511) (h g : Handle) (x : EncNode) (hg : g ≠ h) :
    encNode (v.set h.val x h.isLt) g = encNode v g := by
  simp only [encNode]
  exact Vector.getElem_set_ne h.isLt g.isLt fun e => hg (Fin.ext e.symm)
@[simp] theorem decNode_set_same (v : Vector DecNode 511) (h : Handle) (x : DecNode) : decNode (v.set h.val x h.isLt) h = x := by
  simp [decNode]
theorem decNode_set_other (v : Vector DecNode 511) (h g : Handle) (x : DecNode) (hg : g ≠ h) :
    decNode (v.set h.val x h.isLt) g = decNode v g := by
  simp only [decNode]
  exact Vector.getElem_set_ne h.isLt g.isLt fun e => hg (Fin.ext e.symm)

/-! ## Completed subtrees -/

/-- A complete subtree writes the Internal nodes whose right subtree it ends, innermost first, and the last of them is given on. -/
theorem giveNode_closes (c : Handle × Handle) (ps : List (Handle × Handle)) (st : List Frame) (h : Handle) (d : Dec) :
    giveNode (((c :: ps).map fun c => .needRight c.1 c.2) ++ st) h d =
      giveNode ((ps.map fun c => .needRight c.1 c.2) ++ st) c.1 { d with node := d.node.set c.1.val (.internal c.2 h) c.1.isLt } := rfl

/-! ## The lock-out -/

/-- A transaction goes one of two ways: held without effect, or accepted (rule R263). -/
theorem whenFree_cases (u : UnitId) (t : Txn) (s : State) (f : State → State) :
    ((s.ctl u).state = .busy ∧ whenFree u t s f = s.hold u t) ∨ ((s.ctl u).state ≠ .busy ∧ whenFree u t s f = f s) := by
  unfold whenFree State.isBusy
  by_cases h : (s.ctl u).state = .busy
  · exact .inl ⟨h, by simp [h]⟩
  · exact .inr ⟨h, by simp [h]⟩

end Sys2Proof.Machine
end

