-- ==== Sys2Proof/Laws/PerInstr.lean ====
section
/-!
SUPPORT. Laws/PerInstr.lean: the family `EncodingWidth`: the encoder writes exactly as many bits as spec/opcode_table.json gives the row.
-/

set_option Elab.async false
namespace Sys2Proof.Laws.EncodingWidth

/-- The encoding has the width of the row. -/
def Statement (i : Instr) : Prop := (encode i).length = i.width

theorem nop (u : UnitId) : Statement (.nop u) := by simp [Statement, encode, Instr.width]
theorem start (u : UnitId) : Statement (.start u) := by simp [Statement, encode, Instr.width]
theorem clear (u : UnitId) : Statement (.clear u) := by simp [Statement, encode, Instr.width]
theorem cmdReserved (u : UnitId) (v : Byte) : Statement (.cmdReserved u v) := by simp [Statement, encode, Instr.width]
theorem eIdle : Statement (.eIdle) := by simp [Statement, encode, Instr.width]
theorem eInit : Statement (.eInit) := by simp [Statement, encode, Instr.width]
theorem eCount : Statement (.eCount) := by simp [Statement, encode, Instr.width]
theorem eLeaves : Statement (.eLeaves) := by simp [Statement, encode, Instr.width]
theorem eMerge : Statement (.eMerge) := by simp [Statement, encode, Instr.width]
theorem eRoot : Statement (.eRoot) := by simp [Statement, encode, Instr.width]
theorem eCodegen : Statement (.eCodegen) := by simp [Statement, encode, Instr.width]
theorem eTree : Statement (.eTree) := by simp [Statement, encode, Instr.width]
theorem eData : Statement (.eData) := by simp [Statement, encode, Instr.width]
theorem eFlush : Statement (.eFlush) := by simp [Statement, encode, Instr.width]
theorem eHeader : Statement (.eHeader) := by simp [Statement, encode, Instr.width]
theorem eEmpty : Statement (.eEmpty) := by simp [Statement, encode, Instr.width]
theorem dIdle : Statement (.dIdle) := by simp [Statement, encode, Instr.width]
theorem dInit : Statement (.dInit) := by simp [Statement, encode, Instr.width]
theorem dHeader : Statement (.dHeader) := by simp [Statement, encode, Instr.width]
theorem dCheck : Statement (.dCheck) := by simp [Statement, encode, Instr.width]
theorem dTree : Statement (.dTree) := by simp [Statement, encode, Instr.width]
theorem dWalk : Statement (.dWalk) := by simp [Statement, encode, Instr.width]
theorem dFinish : Statement (.dFinish) := by simp [Statement, encode, Instr.width]
theorem tInternal : Statement (.tInternal) := by simp [Statement, encode, Instr.width]
theorem tLeaf (sym : Byte) : Statement (.tLeaf sym) := by simp [Statement, encode, Instr.width]
theorem wLeft : Statement (.wLeft) := by simp [Statement, encode, Instr.width]
theorem wRight : Statement (.wRight) := by simp [Statement, encode, Instr.width]
theorem sAny (x : Bool) : Statement (.sAny x) := by simp [Statement, encode, Instr.width]
theorem hdr (o : BitVec 64) (t : BitVec 32) (p : Byte) : Statement (.hdr o t p) := by simp [Statement, encode, Instr.width]
theorem stIdle (u : UnitId) : Statement (.stIdle u) := by simp [Statement, encode, Instr.width]
theorem stBusy (u : UnitId) : Statement (.stBusy u) := by simp [Statement, encode, Instr.width]
theorem stDone (u : UnitId) : Statement (.stDone u) := by simp [Statement, encode, Instr.width]
theorem stError (u : UnitId) : Statement (.stError u) := by simp [Statement, encode, Instr.width]
theorem errNone (u : UnitId) : Statement (.errNone u) := by simp [Statement, encode, Instr.width]
theorem hdrShort : Statement (.hdrShort) := by simp [Statement, encode, Instr.width]
theorem padRange : Statement (.padRange) := by simp [Statement, encode, Instr.width]
theorem treeLen : Statement (.treeLen) := by simp [Statement, encode, Instr.width]
theorem treeTrunc : Statement (.treeTrunc) := by simp [Statement, encode, Instr.width]
theorem treeNodes : Statement (.treeNodes) := by simp [Statement, encode, Instr.width]
theorem treeExcess : Statement (.treeExcess) := by simp [Statement, encode, Instr.width]
theorem dataTrunc : Statement (.dataTrunc) := by simp [Statement, encode, Instr.width]
theorem inCap (u : UnitId) : Statement (.inCap u) := by simp [Statement, encode, Instr.width]
theorem outCap (u : UnitId) : Statement (.outCap u) := by simp [Statement, encode, Instr.width]

end Sys2Proof.Laws.EncodingWidth
end

