-- ==== Sys2Proof/Laws/Queue.lean ====
section
/-!
SUPPORT. Laws/Queue.lean: the queue as a set (rule R32) and its order (rule R142): insertion keeps the list strictly rising, the order is a
strict total order, and `ExtractMin` gives the member that comes before every other.
-/

set_option Elab.async false
namespace Sys2Proof.Machine

theorem mem_queueInsert {h g : Handle} {q : List Handle} : g ∈ queueInsert h q ↔ g = h ∨ g ∈ q := by
  induction q with
  | nil => simp [queueInsert]
  | cons a q ih =>
    simp only [queueInsert]
    split
    · simp
    · split
      · rename_i _ e
        subst e
        simp
      · simp only [List.mem_cons, ih]
        tauto

/-- Insertion keeps the canonical form of the set. -/
theorem queueInsert_sorted {h : Handle} {q : List Handle} (hq : q.Pairwise (· < ·)) : (queueInsert h q).Pairwise (· < ·) := by
  induction q with
  | nil => simp [queueInsert]
  | cons a q ih =>
    obtain ⟨h1, h2⟩ := List.pairwise_cons.1 hq
    simp only [queueInsert]
    split
    · rename_i hlt
      exact List.pairwise_cons.2 ⟨fun c hc => by rcases List.mem_cons.1 hc with rfl | hc; exacts [hlt, lt_trans hlt (h1 c hc)], hq⟩
    · split
      · exact hq
      · rename_i hn he
        refine List.pairwise_cons.2 ⟨fun c hc => ?_, ih h2⟩
        rcases mem_queueInsert.1 hc with rfl | hc
        · exact lt_of_le_of_ne (not_lt.1 hn) (fun e => he e.symm)
        · exact h1 c hc

/-- A new handle makes the queue one longer. -/
theorem length_queueInsert {h : Handle} {q : List Handle} (hq : h ∉ q) : (queueInsert h q).length = q.length + 1 := by
  induction q with
  | nil => rfl
  | cons a q ih =>
    simp only [List.mem_cons, not_or] at hq
    simp only [queueInsert]
    split
    · rfl
    · split
      · rename_i _ e
        exact absurd e hq.1
      · simp [ih hq.2]

/-- As a list, the queue with a new handle is that handle and the queue in another order. -/
theorem perm_queueInsert {h : Handle} {q : List Handle} (hq : h ∉ q) : (queueInsert h q).Perm (h :: q) := by
  induction q with
  | nil => rfl
  | cons a q ih =>
    simp only [List.mem_cons, not_or] at hq
    simp only [queueInsert]
    split
    · rfl
    · split
      · rename_i _ e
        exact absurd e hq.1
      · exact ((ih hq.2).cons a).trans (List.Perm.swap ..)

/-- `comesBefore` written out over naturals (rule R142). -/
theorem comesBefore_iff (cfg : Config) (nodes : Vector EncNode 511) (g h : Handle) :
    comesBefore cfg nodes g h = true ↔
      (nodeFreq (encNode nodes g)).toNat < (nodeFreq (encNode nodes h)).toNat ∨
        ((nodeFreq (encNode nodes g)).toNat = (nodeFreq (encNode nodes h)).toNat ∧
          (tieOf cfg g < tieOf cfg h ∨ (tieOf cfg g = tieOf cfg h ∧ g.val < h.val))) := by
  simp [comesBefore, BitVec.lt_def, BitVec.toNat_inj]

theorem comesBefore_irrefl (cfg : Config) (nodes : Vector EncNode 511) (g : Handle) : comesBefore cfg nodes g g = false := by
  rw [Bool.eq_false_iff, Ne, comesBefore_iff]
  omega

theorem comesBefore_trans {cfg : Config} {nodes : Vector EncNode 511} {a b c : Handle}
    (h1 : comesBefore cfg nodes a b = true) (h2 : comesBefore cfg nodes b c = true) : comesBefore cfg nodes a c = true := by
  rw [comesBefore_iff] at *
  omega

theorem comesBefore_total {cfg : Config} {nodes : Vector EncNode 511} {a b : Handle} (h : a ≠ b) :
    comesBefore cfg nodes a b = true ∨ comesBefore cfg nodes b a = true := by
  have : a.val ≠ b.val := fun e => h (Fin.ext e)
  rw [comesBefore_iff, comesBefore_iff]
  omega

theorem firstOf_mem (cfg : Config) (nodes : Vector EncNode 511) (b : Handle) (q : List Handle) :
    firstOf cfg nodes b q ∈ b :: q := by
  induction q generalizing b with
  | nil => simp [firstOf]
  | cons h q ih =>
    simp only [firstOf]
    split
    · exact List.mem_cons_of_mem _ (ih h)
    · rcases List.mem_cons.1 (ih b) with h' | h'
      · simp [h']
      · exact List.mem_cons_of_mem _ (List.mem_cons_of_mem _ h')

/-- The extracted handle is a member of the queue, and the queue afterwards is the one before without it. -/
theorem extractMin_eq_some {cfg : Config} {nodes : Vector EncNode 511} {q q' : List Handle} {a : Handle}
    (h : extractMin cfg nodes q = some (a, q')) : a ∈ q ∧ q' = q.erase a := by
  cases q with
  | nil => exact absurd h (by simp [extractMin])
  | cons b q =>
    simp only [extractMin, Option.some.injEq, Prod.mk.injEq] at h
    obtain ⟨rfl, rfl⟩ := h
    exact ⟨firstOf_mem cfg nodes b q, rfl⟩

theorem extractMin_eq_none {cfg : Config} {nodes : Vector EncNode 511} {q : List Handle} : extractMin cfg nodes q = none ↔ q = [] := by
  cases q <;> simp [extractMin]

end Sys2Proof.Machine
end

