-- ==== Sys2Proof/Tests/Slice0.lean ====
section
/-!
SUPPORT. Tests/Slice0.lean: the author's own tests. Expected values are those of spec/30_encoding.md, spec/10_state.md and spec/95_test_vectors.md (V1 to V8,
X-vectors), written out by hand. The theorems named witness_<statement> show a concrete state that meets the hypotheses of that statement.
-/

set_option Elab.async false
namespace Sys2Proof.Tests
open Sys2Proof.Machine

/-! ## Helpers -/

/-- A view of the next state. -/
def after {α : Type} (o : Host.Outcome State Fault Refusal) (f : State → α) : Option α :=
  match o with
  | .next t => some (f t)
  | _ => none

/-- A next state with a decidable property, found by evaluation. -/
theorem exists_next {o : Host.Outcome State Fault Refusal} {P : State → Prop} (d : ∀ t, Decidable (P t))
    (h : after o (fun t => @decide (P t) (d t)) = some true) : ∃ t, o = .next t ∧ P t := by
  cases o with
  | next t => exact ⟨t, rfl, by simpa [after] using h⟩
  | fault _ => simp [after] at h
  | refused _ => simp [after] at h

/-- ENC alone, BUSY in a phase, its step next. -/
def encState (p : BitVec 4) (e : Enc) : State :=
  { State.reset with enc := { e with ctl := { e.ctl with state := .busy, phase := p } }, sched := [.unit .enc] }

/-- DEC alone, BUSY in a phase, its step next. -/
def decState (p : BitVec 4) (d : Dec) : State :=
  { State.reset with dec := { d with ctl := { d.ctl with state := .busy, phase := p } }, sched := [.unit .dec] }

/-- A host that has one thing to do. -/
def hostState (l : List HostEvent) : State := { State.reset with script := l }

/-- ENC with the message "aab" of vector V5 loaded. -/
def aab : Enc :=
  { Enc.reset with ctl := { Ctl.reset with inLen := 3 }, ibuf := [(0, 0x61), (1, 0x61), (2, 0x62)], wr := 13, origSize := 3 }

/-- The frequencies of V5. -/
def aabFreq : Enc := { aab with freq := ((Vector.replicate 256 0).set 0x61 2).set 0x62 1, rd := 3 }

/-- The two Leaves of V5, queued. -/
def aabLeaves : Enc := { aabFreq with node := (Enc.reset.node.set 0 (.leaf 0x61 2)).set 1 (.leaf 0x62 1), nnode := 2, pq := [0, 1] }

/-- The tree of V5. -/
def aabTree : Enc := { aabLeaves with node := aabLeaves.node.set 2 (.internal 3 1 0), nnode := 3, pq := [2] }

/-- The code table of V5. -/
def aabCodes : Enc := { aabTree with root := 2, pq := [], code := ((Vector.replicate 256 []).set 0x62 [false]).set 0x61 [true] }

/-- After the tree stream of V5: 01011000 10101100 001. -/
def aabStream : Enc := { aabCodes with acc := 0x20, nb := 3, wr := 15, nbits := 19, treeBits := 0x13, rd := 0, obuf := [(13, 0x58), (14, 0xac)] }

/-- After the data of V5. -/
def aabData : Enc := { aabStream with acc := 0x38, nb := 6, nbits := 22, rd := 3 }

/-- DEC with the packed file of V5 loaded. -/
def aabFile : Dec :=
  { Dec.reset with
    ctl := { Ctl.reset with inLen := 16 }
    ibuf := [(0, 0), (1, 0), (2, 0), (3, 0), (4, 0), (5, 0), (6, 0), (7, 3)] ++
      [(8, 0), (9, 0), (10, 0), (11, 0x13), (12, 2), (13, 0x58), (14, 0xac), (15, 0x38)] }

/-- Its header loaded. -/
def aabHead : Dec := { aabFile with origSize := 3, treeBits := 0x13, padBits := 2 }

/-- Its header checked. -/
def aabChecked : Dec := { aabHead with avail := 22 }

/-- Its tree rebuilt. -/
def aabRebuilt : Dec :=
  { aabChecked with
    node := ((Dec.reset.node.set 0 (.internal 1 2)).set 1 (.leaf 0x62)).set 2 (.leaf 0x61), nnode := 3, bitpos := 19 }

/-- A decoder whose tree is a single Leaf (V2). -/
def oneLeaf : Dec :=
  { Dec.reset with
    ctl := { Ctl.reset with inLen := 15 }, ibuf := [(13, 0xa0), (14, 0x80)], node := Dec.reset.node.set 0 (.leaf 0x41), nnode := 1,
    origSize := 1, treeBits := 9, padBits := 6, avail := 10, bitpos := 9 }

/-- The tree of V6 in DEC. -/
def v6Tree : Dec :=
  { Dec.reset with
    ctl := { Ctl.reset with inLen := 18 }, ibuf := [(13, 0x28), (14, 0x74), (15, 0x2a), (16, 0x0f), (17, 0xa8)]
    node := ((((Dec.reset.node.set 0 (.internal 1 4)).set 1 (.internal 2 3)).set 2 (.leaf 0x43)).set 3 (.leaf 0x42)).set 4 (.leaf 0x41)
    nnode := 5, origSize := 7, treeBits := 29, padBits := 1, avail := 39, bitpos := 29 }

/-! ## WellFormed (rule R259: a reserved command is 0x03 to 0xFF) -/

theorem test_wf_refuses_nop_as_reserved : (Instr.cmdReserved .enc 0x00).wf = false := by decide
theorem test_wf_refuses_clear_as_reserved : (Instr.cmdReserved .dec 0x02).wf = false := by decide
theorem test_wf_admits_first_reserved : (Instr.cmdReserved .enc 0x03).wf = true := by decide

/-! ## Decoding words written out from spec/30_encoding.md -/

/-- Rule R108. -/
theorem test_decode_cmd : ∀ u : UnitId,
    decode (.cmd u) [false, false, false, false, false, false, false, false] = .ok (.nop u, []) ∧
    decode (.cmd u) [false, false, false, false, false, false, false, true] = .ok (.start u, []) ∧
    decode (.cmd u) [false, false, false, false, false, false, true, false] = .ok (.clear u, []) ∧
    decode (.cmd u) [false, false, false, false, false, false, true, true] = .ok (.cmdReserved u 0x03, []) ∧
    decode (.cmd u) [true, false, true, false, false, true, false, true] = .ok (.cmdReserved u 0xa5, []) := by
  intro u; cases u <;> decide

/-- Rules R27, R111. -/
theorem test_decode_enc_phase :
    decode (.phase .enc) [false, false, false, false] = .ok (.eIdle, []) ∧ decode (.phase .enc) [false, false, false, true] = .ok (.eInit, []) ∧
    decode (.phase .enc) [false, false, true, false] = .ok (.eCount, []) ∧ decode (.phase .enc) [false, false, true, true] = .ok (.eLeaves, []) ∧
    decode (.phase .enc) [false, true, false, false] = .ok (.eMerge, []) ∧ decode (.phase .enc) [false, true, false, true] = .ok (.eRoot, []) ∧
    decode (.phase .enc) [false, true, true, false] = .ok (.eCodegen, []) ∧ decode (.phase .enc) [false, true, true, true] = .ok (.eTree, []) ∧
    decode (.phase .enc) [true, false, false, false] = .ok (.eData, []) ∧ decode (.phase .enc) [true, false, false, true] = .ok (.eFlush, []) ∧
    decode (.phase .enc) [true, false, true, false] = .ok (.eHeader, []) ∧ decode (.phase .enc) [true, false, true, true] = .ok (.eEmpty, []) ∧
    decode (.phase .enc) [true, true, false, false] = .error .reservedPhase := by
  refine ⟨?_, ?_, ?_, ?_, ?_, ?_, ?_, ?_, ?_, ?_, ?_, ?_, ?_⟩ <;> decide

/-- Rules R27, R111. -/
theorem test_decode_dec_phase :
    decode (.phase .dec) [false, false, false, false] = .ok (.dIdle, []) ∧ decode (.phase .dec) [false, false, false, true] = .ok (.dInit, []) ∧
    decode (.phase .dec) [false, false, true, false] = .ok (.dHeader, []) ∧ decode (.phase .dec) [false, false, true, true] = .ok (.dCheck, []) ∧
    decode (.phase .dec) [false, true, false, false] = .ok (.dTree, []) ∧ decode (.phase .dec) [false, true, false, true] = .ok (.dWalk, []) ∧
    decode (.phase .dec) [false, true, true, false] = .ok (.dFinish, []) ∧
    decode (.phase .dec) [false, true, true, true] = .error .reservedPhase := by decide

/-- Rules R94 to R96: `1` and then the byte, most significant bit first. -/
theorem test_decode_tok :
    decode .tok [false] = .ok (.tInternal, []) ∧
    decode .tok [true, false, true, true, false, false, false, true, false, true] = .ok (.tLeaf 0x62, [true]) ∧
    decode .tok [true, false, true] = .error .truncated := by decide

/-- Rules R98, R100. -/
theorem test_decode_walk :
    decode (.walk false) [false] = .ok (.wLeft, []) ∧ decode (.walk false) [true] = .ok (.wRight, []) ∧
    decode (.walk true) [false] = .ok (.sAny false, []) ∧ decode (.walk true) [true] = .ok (.sAny true, []) := by decide

/-- Rule R91 on the header bytes of V5, 00 00 00 00 00 00 00 03 00 00 00 13 02: three big-endian fields. -/
theorem test_decode_hdr :
    decode .hdr (List.replicate 62 false ++ ([true, true] ++ (List.replicate 27 false ++ ([true, false, false, true, true] ++
      (List.replicate 6 false ++ [true, false]))))) = .ok (.hdr 3 0x13 2, []) := by decide +kernel

/-- Rule R109. -/
theorem test_decode_status : ∀ u : UnitId,
    decode (.status u) [false, false, false, false, false, false, false, false] = .ok (.stIdle u, []) ∧
    decode (.status u) [false, false, false, false, false, false, false, true] = .ok (.stBusy u, []) ∧
    decode (.status u) [false, false, false, false, false, false, true, false] = .ok (.stDone u, []) ∧
    decode (.status u) [false, false, false, false, false, false, true, true] = .ok (.stError u, []) ∧
    decode (.status u) [false, false, false, false, false, true, false, false] = .error .undefinedStatus := by
  intro u; cases u <;> decide

/-- Rules R110, R281. -/
theorem test_decode_err :
    decode (.err .dec) [false, false, false, false, false, false, false, false] = .ok (.errNone .dec, []) ∧
    decode (.err .dec) [false, false, false, true, false, false, false, true] = .ok (.hdrShort, []) ∧
    decode (.err .dec) [false, false, false, true, false, false, true, false] = .ok (.padRange, []) ∧
    decode (.err .dec) [false, false, false, true, false, false, true, true] = .ok (.treeLen, []) ∧
    decode (.err .dec) [false, false, false, true, false, true, false, false] = .ok (.treeTrunc, []) ∧
    decode (.err .dec) [false, false, false, true, false, true, false, true] = .ok (.treeNodes, []) ∧
    decode (.err .dec) [false, false, false, true, false, true, true, false] = .ok (.treeExcess, []) ∧
    decode (.err .dec) [false, false, false, true, false, true, true, true] = .ok (.dataTrunc, []) ∧
    decode (.err .enc) [false, false, true, false, false, false, false, true] = .ok (.inCap .enc, []) ∧
    decode (.err .enc) [false, false, true, false, false, false, true, false] = .ok (.outCap .enc, []) ∧
    decode (.err .enc) [false, false, false, true, false, false, false, true] = .error .undefinedErrCode := by
  refine ⟨?_, ?_, ?_, ?_, ?_, ?_, ?_, ?_, ?_, ?_, ?_⟩ <;> decide

/-- The phase numbers the operations use are those of the encoding (rule R27). -/
theorem test_phase_numbers :
    natBits 4 phIdle.toNat = encode .eIdle ∧ natBits 4 phIdle.toNat = encode .dIdle ∧ natBits 4 phInit.toNat = encode .eInit ∧
    natBits 4 phInit.toNat = encode .dInit ∧ natBits 4 phECount.toNat = encode .eCount ∧ natBits 4 phELeaves.toNat = encode .eLeaves ∧
    natBits 4 phEMerge.toNat = encode .eMerge ∧ natBits 4 phERoot.toNat = encode .eRoot ∧ natBits 4 phECodegen.toNat = encode .eCodegen ∧
    natBits 4 phETree.toNat = encode .eTree ∧ natBits 4 phEData.toNat = encode .eData ∧ natBits 4 phEFlush.toNat = encode .eFlush ∧
    natBits 4 phEHeader.toNat = encode .eHeader ∧ natBits 4 phEEmpty.toNat = encode .eEmpty ∧ natBits 4 phDHeader.toNat = encode .dHeader ∧
    natBits 4 phDCheck.toNat = encode .dCheck ∧ natBits 4 phDTree.toNat = encode .dTree ∧ natBits 4 phDWalk.toNat = encode .dWalk ∧
    natBits 4 phDFinish.toNat = encode .dFinish := by decide

/-! ## One step of each instruction -/

/-- Rules R257, R295: from DONE; IN_LEN stays. -/
theorem test_clear : after (exec (.clear .enc) (State.reset.setCtl .enc { state := .done, inLen := 7, outLen := 18, errCode := .none, phase := 0 }))
    (fun t => t.enc.ctl) = some { state := .idle, inLen := 7, outLen := 0, errCode := .none, phase := 0 } := by decide +kernel

/-- Rule R256: from ERROR; the outcome of the run before stays until INIT. -/
theorem test_start : after (exec (.start .dec) (State.reset.setCtl .dec { state := .error, inLen := 7, outLen := 0, errCode := .hdrShort, phase := 0 }))
    (fun t => t.dec.ctl) = some { state := .busy, inLen := 7, outLen := 0, errCode := .hdrShort, phase := 1 } := by decide +kernel

/-- Rule R263: held while BUSY. -/
theorem test_nop_held : after (exec (.nop .enc) (encState 2 aab)) (fun t => (t.encPort.held, t.enc.ctl.phase)) =
    some (some (.csrWrite 0 0), 2) := by decide +kernel

/-- Rule R259. -/
theorem test_cmdReserved : after (exec (.cmdReserved .dec 0xff) State.reset) (fun t => (t.dec.ctl, t.decPort)) =
    some (Ctl.reset, Port.reset) := by decide +kernel

/-- Rules R27, R46. -/
theorem test_idle : after (exec .eIdle State.reset) (fun t => t.enc.ctl) = some Ctl.reset ∧
    after (exec .dIdle State.reset) (fun t => t.dec.ctl) = some Ctl.reset := by decide +kernel

/-- Rule R201 on V5, and on V1. -/
theorem test_eInit : after (exec .eInit (encState 1 { aab with wr := 0, origSize := 9 })) (fun t => (t.enc.ctl.phase, t.enc.wr, t.enc.origSize)) =
    some (2, 13, 3) ∧ after (exec .eInit (encState 1 Enc.reset)) (fun t => t.enc.ctl.phase) = some 11 := by decide +kernel

/-- Rule R288: X-vectors, IN_LEN above ENC_IN_CAP. -/
theorem test_eInit_inCap : after (exec .eInit (encState 1 { aab with ctl := { aab.ctl with inLen := 1001 } })) (fun t => t.enc.ctl) =
    some { state := .error, inLen := 1001, outLen := 0, errCode := .inCap, phase := 0 } := by decide +kernel

/-- Rule R131 on the second and the third byte of V5. -/
theorem test_eCount : after (exec .eCount (encState 2 { aab with rd := 1 })) (fun t => (freqOf t.enc 0x61, t.enc.rd, t.enc.ctl.phase)) = some (1, 2, 2) ∧
    after (exec .eCount (encState 2 { aab with rd := 2 })) (fun t => (freqOf t.enc 0x62, t.enc.rd, t.enc.ctl.phase)) = some (1, 3, 3) := by decide +kernel

/-- Rule R141 on V5. -/
theorem test_eLeaves : after (exec .eLeaves (encState 3 aabFreq))
    (fun t => (t.enc.nnode, t.enc.pq, encNode t.enc.node 0, encNode t.enc.node 1, t.enc.ctl.phase)) =
    some (2, [0, 1], .leaf 0x61 2, .leaf 0x62 1, 4) := by decide +kernel

/-- Rule R143 on V5: the rarer becomes the left child. -/
theorem test_eMerge : after (exec .eMerge (encState 4 aabLeaves)) (fun t => (t.enc.nnode, t.enc.pq, encNode t.enc.node 2, t.enc.ctl.phase)) =
    some (3, [2], .internal 3 1 0, 4) ∧
    after (exec .eMerge (encState 4 aabTree)) (fun t => (t.enc.nnode, t.enc.pq, t.enc.ctl.phase)) = some (3, [2], 5) := by decide +kernel

/-- Rule R142 on V4: among equal frequencies the smaller handle first. -/
theorem test_extractMin_tie : extractMin Config.default ((Enc.reset.node.set 0 (.leaf 0x61 1)).set 1 (.leaf 0x62 1)) [0, 1] = some (0, [1]) ∧
    extractMin { Config.default with tieRank := [5, 4] } ((Enc.reset.node.set 0 (.leaf 0x61 1)).set 1 (.leaf 0x62 1)) [0, 1] = some (1, [0]) := by
  decide +kernel

/-- Rule R145 on V5. -/
theorem test_eRoot : after (exec .eRoot (encState 5 aabTree)) (fun t => (t.enc.root, t.enc.pq, t.enc.ctl.phase)) = some (2, [], 6) := by decide +kernel

/-- Rule R152 on V5, and the synthetic code on V2. -/
theorem test_eCodegen : after (exec .eCodegen (encState 6 { aabTree with root := 2 })) (fun t => (codeOf t.enc 0x61, codeOf t.enc 0x62, t.enc.ctl.phase)) =
    some ([true], [false], 7) ∧
    after (exec .eCodegen (encState 6 { Enc.reset with node := Enc.reset.node.set 0 (.leaf 0x41 1) })) (fun t => codeOf t.enc 0x41) = some [false] := by
  decide +kernel

/-- Rule R163 on V5: the first 19 bits 01011000 10101100 001. -/
theorem test_eTree : after (exec .eTree (encState 7 aabCodes))
    (fun t => (t.enc.obuf, t.enc.acc, t.enc.nb, t.enc.wr, t.enc.nbits)) = some ([(13, 0x58), (14, 0xac)], 0x20, 3, 15, 19) ∧
    after (exec .eTree (encState 7 aabCodes)) (fun t => (t.enc.treeBits, t.enc.rd, t.enc.ctl.phase)) = some (0x13, 0, 8) := by decide +kernel

/-- Rule R207 on the first byte of V5. -/
theorem test_eData : after (exec .eData (encState 8 aabStream)) (fun t => (t.enc.acc, t.enc.nb, t.enc.nbits, t.enc.rd, t.enc.ctl.phase)) =
    some (0x30, 4, 20, 1, 8) := by decide +kernel

/-- Rule R184 on V5. -/
theorem test_eFlush : after (exec .eFlush (encState 9 aabData)) (fun t => (t.enc.padBits, t.enc.obuf, t.enc.wr, t.enc.nb, t.enc.ctl.phase)) =
    some (2, [(13, 0x58), (14, 0xac), (15, 0x38)], 16, 0, 10) := by decide +kernel

/-- Rules R72, R209 on V5. -/
theorem test_eHeader : after (exec .eHeader (encState 10 { aabData with padBits := 2, wr := 16 }))
    (fun t => (t.enc.ctl, Memory.read t.enc.obuf 7, Memory.read t.enc.obuf 11, Memory.read t.enc.obuf 12, Memory.read t.enc.obuf 0)) =
    some ({ state := .done, inLen := 3, outLen := 16, errCode := .none, phase := 0 }, some 3, some 0x13, some 2, some 0) := by decide +kernel

/-- Rule R210 on V1. -/
theorem test_eEmpty : after (exec .eEmpty (encState 11 Enc.reset)) (fun t => (t.enc.ctl.state, t.enc.ctl.outLen, Memory.read t.enc.obuf 12)) =
    some (.done, 13, some 0) := by decide +kernel

/-- Rules R221, R282. -/
theorem test_dInit : after (exec .dInit (decState 1 aabFile)) (fun t => t.dec.ctl.phase) = some 2 ∧
    after (exec .dInit (decState 1 { aabFile with ctl := { aabFile.ctl with inLen := 12 } })) (fun t => t.dec.ctl) =
      some { state := .error, inLen := 12, outLen := 0, errCode := .hdrShort, phase := 0 } := by decide +kernel

/-- Rule R222 on V5. -/
theorem test_dHeader : after (exec .dHeader (decState 2 aabFile)) (fun t => (t.dec.origSize, t.dec.treeBits, t.dec.padBits, t.dec.ctl.phase)) =
    some (3, 0x13, 2, 3) := by decide +kernel

/-- Rule R223. -/
theorem test_hdr : after (exec (.hdr 0 0 0) (decState 2 aabFile)) (fun t => (t.dec.origSize, t.dec.ctl.phase)) = some (0, 6) := by decide +kernel

/-- Rule R224 on V5, and PAD_RANGE. -/
theorem test_dCheck : after (exec .dCheck (decState 3 aabHead)) (fun t => (t.dec.avail, t.dec.ctl.phase)) = some (22, 4) ∧
    after (exec .dCheck (decState 3 { aabHead with padBits := 8 })) (fun t => t.dec.ctl.errCode) = some .padRange := by decide +kernel

/-- Rule R166 on V5. -/
theorem test_dTree : after (exec .dTree (decState 4 aabChecked))
    (fun t => (decNode t.dec.node 0, decNode t.dec.node 1, decNode t.dec.node 2, t.dec.nnode, t.dec.bitpos, t.dec.ctl.phase)) =
    some (.internal 1 2, .leaf 0x62, .leaf 0x61, 3, 19, 5) := by decide +kernel

/-- Rule R168: a window one bit longer than the tree. -/
theorem test_dTree_excess : after (exec .dTree (decState 4 { aabChecked with treeBits := 0x14 })) (fun t => t.dec.ctl.errCode) = some .treeExcess := by
  decide +kernel

/-- Rule R227 on the first symbol of V5: (WR, BITPOS, CUR) = (1, 20, 2). -/
theorem test_dWalk : after (exec .dWalk (decState 5 aabRebuilt)) (fun t => (t.dec.wr, t.dec.bitpos, t.dec.cur, Memory.read t.dec.obuf 0, t.dec.ctl.phase)) =
    some (1, 20, 2, some 0x61, 5) := by decide +kernel

/-- Rule R286. -/
theorem test_dWalk_trunc : after (exec .dWalk (decState 5 { v6Tree with bitpos := 38 })) (fun t => (t.dec.ctl.errCode, t.dec.bitpos, t.dec.ctl.outLen)) =
    some (.dataTrunc, 39, 0) := by decide +kernel

/-- Rule R229. -/
theorem test_dFinish : after (exec .dFinish (decState 6 { aabRebuilt with wr := 3, bitpos := 22 })) (fun t => t.dec.ctl) =
    some { state := .done, inLen := 16, outLen := 3, errCode := .none, phase := 0 } := by decide +kernel

/-- Rules R94, R165 on the first token of V5. -/
theorem test_tInternal : after (exec .tInternal (decState 4 aabChecked)) (fun t => (t.dec.nnode, t.dec.bitpos, t.dec.stack)) =
    some (1, 1, [.needLeft 0]) := by decide +kernel

/-- Rules R95, R165 on the last token of V5. -/
theorem test_tLeaf : after (exec (.tLeaf 0x61) (decState 4 { aabChecked with
      node := Dec.reset.node.set 1 (.leaf 0x62), nnode := 2, bitpos := 10, stack := [.needRight 0 1] }))
    (fun t => (decNode t.dec.node 0, decNode t.dec.node 2, t.dec.nnode, t.dec.stack, t.dec.ctl.phase)) =
    some (.internal 1 2, .leaf 0x61, 3, [], 5) := by decide +kernel

/-- Rules R98, R227 on V6: from the root 0 goes to the Internal node 1, 1 to the Leaf of 0x41. -/
theorem test_walk_bits : after (exec .wLeft (decState 5 v6Tree)) (fun t => (t.dec.cur, t.dec.bitpos, t.dec.inSym, t.dec.wr)) = some (1, 30, true, 0) ∧
    after (exec .wRight (decState 5 v6Tree)) (fun t => (t.dec.cur, t.dec.bitpos, t.dec.inSym, Memory.read t.dec.obuf 0)) =
      some (4, 30, false, some 0x41) := by decide +kernel

/-- Rule R226 on V2: the bit's value is not examined. -/
theorem test_sAny : after (exec (.sAny true) (decState 5 oneLeaf)) (fun t => (t.dec.bitpos, Memory.read t.dec.obuf 0, t.dec.ctl.phase)) =
    some (10, some 0x41, 6) := by decide +kernel

/-- Rules R23, R109. -/
theorem test_status : after (exec (.stBusy .enc) (encState 2 aab)) (fun t => t.encPort.rdata) = some (some (.byte 0x01)) ∧
    after (exec (.stIdle .dec) State.reset) (fun t => t.decPort.rdata) = some (some (.byte 0x00)) ∧
    after (exec (.stDone .dec) State.reset) (fun t => t.decPort.rdata) = some (some (.byte 0x02)) ∧
    after (exec (.stError .dec) State.reset) (fun t => t.decPort.rdata) = some (some (.byte 0x03)) := by decide +kernel

/-- Rules R110, R281. -/
theorem test_err : after (exec (.errNone .enc) State.reset) (fun t => t.encPort.rdata) = some (some (.byte 0x00)) ∧
    after (exec .hdrShort State.reset) (fun t => t.decPort.rdata) = some (some (.byte 0x11)) ∧
    after (exec .padRange State.reset) (fun t => t.decPort.rdata) = some (some (.byte 0x12)) ∧
    after (exec .treeLen State.reset) (fun t => t.decPort.rdata) = some (some (.byte 0x13)) ∧
    after (exec .treeTrunc State.reset) (fun t => t.decPort.rdata) = some (some (.byte 0x14)) ∧
    after (exec .treeNodes State.reset) (fun t => t.decPort.rdata) = some (some (.byte 0x15)) ∧
    after (exec .treeExcess State.reset) (fun t => t.decPort.rdata) = some (some (.byte 0x16)) ∧
    after (exec .dataTrunc State.reset) (fun t => t.decPort.rdata) = some (some (.byte 0x17)) ∧
    after (exec (.inCap .dec) State.reset) (fun t => t.decPort.rdata) = some (some (.byte 0x21)) ∧
    after (exec (.outCap .enc) State.reset) (fun t => t.encPort.rdata) = some (some (.byte 0x22)) := by decide +kernel

/-! ## Steps from words of the table -/

/-- START, a T_LEAF and a header, placed after reset. -/
theorem test_placed_words :
    after (step (State.reset.withFetchWord 8 0x01)) (fun t => t.enc.ctl.state) = some .busy ∧
    after (step (State.reset.withFetchWord 9 0x141)) (fun t => (decNode t.dec.node 0, t.dec.ctl.phase)) = some (.leaf 0x41, 5) ∧
    after (step (State.reset.withFetchWord 104 0x00000000000000030000001302)) (fun t => (t.dec.origSize, t.dec.treeBits, t.dec.padBits)) =
      some (3, 0x13, 2) := by decide +kernel

/-- Rules R253, R254: the host writes a byte, and the length. -/
theorem test_host_write : after (step (hostState [.txn .enc (.bufWrite 0 0x41)])) (fun t => (t.enc.ibuf, t.script)) = some ([(0, 0x41)], []) ∧
    after (step (hostState [.txn .enc (.csrWrite 2 1)])) (fun t => t.enc.ctl.inLen) = some 1 := by decide +kernel

/-- Rule R251: a read of STATUS is accepted while the unit is BUSY and its port holds a command, which stays held. -/
theorem test_status_read_passes : after (step { encState 2 aab with
      sched := [.host], script := [.txn .enc (.csrRead 1)], encPort := { Port.reset with held := some (.csrWrite 0 1) } }) (fun t => (t.encPort.rdata, t.encPort.held, t.script)) =
    some (some (.byte 0x01), some (.csrWrite 0 1), []) := by decide +kernel

/-- Rule R321: the reset event drops a run. -/
theorem test_reset_event : after (step { encState 2 aab with script := [.reset], sched := [.host] }) (fun t => (t.enc.ctl, t.enc.ibuf, t.enc.epoch)) =
    some (Ctl.reset, [], 1) := by decide +kernel

/-! ## Witnesses: states that meet the hypotheses of the statements -/

/-- ResetEventResetsBothUnits. -/
theorem witness_ResetEventResetsBothUnits :
    (pickAgent (hostState [.reset])).1 = .host ∧ (hostState [.reset]).script = .reset :: [] := by decide +kernel

/-- InstructionsWithoutEffect, StartBeginsARun, ClearReturnsToIdle, RegisterValuesAreReturned: a unit in IDLE, and for ClearReturnsToIdle's second clause without a
result; a unit in DONE. -/
theorem witness_unitsNotBusy :
    (∀ u, (State.reset.ctl u).state ≠ .busy ∧ (State.reset.ctl u).state = .idle ∧ (State.reset.ctl u).outLen = 0 ∧ (State.reset.ctl u).errCode = .none) ∧
    ((State.reset.setCtl .dec { state := .done, inLen := 16, outLen := 3, errCode := .none, phase := 0 }).ctl .dec).state ≠ .busy := by
  refine ⟨fun u => ?_, ?_⟩
  · cases u <;> decide +kernel
  · decide +kernel

/-- The control registers of ENC in the middle of a run. -/
theorem ctlOk_running : CtlOk .enc (encState 2 aab).enc.ctl :=
  ⟨by decide +kernel, by decide +kernel, by decide +kernel, by decide +kernel, by decide +kernel, by decide +kernel⟩

theorem ctlOk_idle (u : UnitId) : CtlOk u Ctl.reset := by
  cases u <;> exact ⟨by decide, by decide, by decide, by decide, by decide, by decide⟩

/-- BusyUnitLocksTheHostOut: both parts. -/
theorem witness_BusyUnitLocksTheHostOut :
    let s : State := { encState 2 aab with sched := [.host], script := [.txn .enc (.csrRead 4)] };
    (s.ctl .enc).state = .busy ∧ (pickAgent s).1 = .host ∧ s.script = .txn .enc (.csrRead 4) :: [] ∧ (s.port .enc).held = none ∧
    admitted s.cfg .enc (.csrRead 4) = true ∧ Txn.csrRead 4 ≠ .csrRead 1 ∧ CtlOk .enc (s.ctl .enc) :=
  ⟨by decide +kernel, by decide +kernel, by decide +kernel, by decide +kernel, by decide +kernel, by decide +kernel, ctlOk_running⟩

/-- A state in which the port of ENC takes the next step and holds a transaction. -/
def holding (t : Txn) (s : State) : State := { s with sched := [.port .enc], encPort := { Port.reset with held := some t } }

/-- The control registers of ENC in DONE with a one-byte result. -/
theorem ctlOk_done : CtlOk .enc { Ctl.reset with state := .done, outLen := 1 } :=
  ⟨by decide, by decide, by decide, by decide, by decide, by decide⟩

/-- HeldCommandIsAcceptedAfterTheRun: each kind of transaction at a boundary (the last command byte, the largest length, the last cell of each buffer, the last
byte of a one-byte result), BUSY and not BUSY. -/
theorem witness_HeldCommandIsAcceptedAfterTheRun :
    let done : Enc := { Enc.reset with ctl := { Ctl.reset with state := .done, outLen := 1 }, obuf := [(0, 0x41)] };
    ∀ t, t ∈ [Txn.csrWrite 0 255, .csrWrite 2 (2 ^ 64 - 1), .bufWrite 999 0, .csrRead 2, .csrRead 3, .csrRead 4, .bufRead 0, .bufRead 1332] →
      (let s := holding t (encState 2 aab);
        (pickAgent s).1 = .port .enc ∧ (s.port .enc).held = some t ∧ t ≠ .csrRead 1 ∧ (s.ctl .enc).state = .busy) ∧
      (let s := holding t { State.reset with enc := done };
        (pickAgent s).1 = .port .enc ∧ (s.port .enc).held = some t ∧ t ≠ .csrRead 1 ∧ (s.ctl .enc).state ≠ .busy ∧ CtlOk .enc (s.ctl .enc) ∧
        ResultOk s.cfg .enc (s.ctl .enc) (s.obuf .enc) ∧ 999 < inCapOf s.cfg .enc ∧ 1332 < outCapOf s.cfg .enc) := by
  intro done t ht
  have hn : t ≠ .csrRead 1 := by rintro rfl; revert ht; decide
  refine ⟨⟨rfl, rfl, hn, rfl⟩, rfl, rfl, hn, by show RunState.done ≠ .busy; decide,
    ctlOk_done, fun _ => ⟨?_, fun a h => ?_⟩, by show 999 < 1000; omega, by show 1332 < 1333; omega⟩
  · show 1 ≤ 1333
    omega
  · have : a < 1 := h
    obtain rfl : a = 0 := by omega
    rfl

/-- RegisterReadsReturnTheRegister: a read of STATUS while BUSY and a command held, and of each other register in IDLE. -/
theorem witness_RegisterReadsReturnTheRegister :
    (let p : Port := { Port.reset with held := some (.csrWrite 0 1) };
      let s : State := { encState 2 aab with sched := [.host], encPort := p, script := [.txn .enc (.csrRead 1)] };
      (pickAgent s).1 = .host ∧ s.script = .txn .enc (.csrRead 1) :: [] ∧ (s.ctl .enc).state = .busy) ∧
    (∀ idx, idx = 2 ∨ idx = 3 ∨ idx = 4 →
      let s := hostState [.txn .enc (.csrRead idx)];
      (pickAgent s).1 = .host ∧ s.script = .txn .enc (.csrRead idx) :: [] ∧ (s.port .enc).held = none ∧ (s.ctl .enc).state ≠ .busy ∧
        CtlOk .enc (s.ctl .enc)) :=
  ⟨by decide +kernel, fun idx _ => ⟨rfl, rfl, rfl, (by intro h; cases h), ctlOk_idle .enc⟩⟩

/-- HostWritesChangeOnePlace: the largest length, the last cell. -/
theorem witness_HostWritesChangeOnePlace :
    (let s := hostState [.txn .dec (.csrWrite 2 (2 ^ 64 - 1))];
      (pickAgent s).1 = .host ∧ (s.port .dec).held = none ∧ (s.ctl .dec).state ≠ .busy ∧ s.script = .txn .dec (.csrWrite 2 (2 ^ 64 - 1)) :: []) ∧
    (let s := hostState [.txn .dec (.bufWrite 1332 0x41)];
      (pickAgent s).1 = .host ∧ (s.port .dec).held = none ∧ (s.ctl .dec).state ≠ .busy ∧ s.script = .txn .dec (.bufWrite 1332 0x41) :: [] ∧
        1332 < inCapOf s.cfg .dec) := by decide +kernel

/-- DEC in DONE with the one-byte result 0x41. -/
def doneState (addr : Nat) : State :=
  { hostState [.txn .dec (.bufRead addr)] with
    dec := { Dec.reset with ctl := { Ctl.reset with state := .done, outLen := 1 }, obuf := [(0, 0x41)] } }

theorem resultOk_done (addr : Nat) : ResultOk Config.default .dec (doneState addr).dec.ctl (doneState addr).dec.obuf := fun _ =>
  ⟨by show 1 ≤ 1000; omega, fun a h => by
    have : a < 1 := h
    obtain rfl : a = 0 := by omega
    rfl⟩

/-- BufReadReturnsTheResultByte: the last byte of the result, and the first and the last cell outside it. -/
theorem witness_BufReadReturnsTheResultByte : ∀ addr, addr = 0 ∨ addr = 1 ∨ addr = 999 →
    let s := doneState addr;
    (pickAgent s).1 = .host ∧ s.script = .txn .dec (.bufRead addr) :: [] ∧ (s.port .dec).held = none ∧ (s.ctl .dec).state ≠ .busy ∧
      addr < outCapOf s.cfg .dec ∧ ResultOk s.cfg .dec (s.ctl .dec) (s.obuf .dec) ∧
      (addr = 0 → (s.ctl .dec).state = .done ∧ addr < (s.ctl .dec).outLen.toNat) ∧
      (addr ≠ 0 → ¬((s.ctl .dec).state = .done ∧ addr < (s.ctl .dec).outLen.toNat)) := by
  intro addr h
  refine ⟨rfl, rfl, rfl, by simp [State.ctl, doneState], ?_, resultOk_done addr, ?_, ?_⟩
  · show addr < 1000
    omega
  · rintro rfl
    exact ⟨rfl, by decide⟩
  · rintro h0 ⟨_, h1⟩
    have : addr < 1 := h1
    omega

/-- UnlistedTransactionsAreRefused: one for each clause, at the boundary of its range. -/
theorem witness_UnlistedTransactionsAreRefused : ∀ t : Txn,
    t ∈ [Txn.csrRead 0, .csrWrite 1 0, .csrWrite 3 0, .csrWrite 4 0, .csrRead 5, .csrWrite 5 0, .csrWrite 0 (2 ^ 8), .csrWrite 2 (2 ^ 64)] ++
      [Txn.bufWrite 1000 0, .bufRead 1333] →
    let s := hostState [.txn .enc t];
    (pickAgent s).1 = .host ∧ s.script = .txn .enc t :: [] ∧ (s.port .enc).held = none ∧
      inCapOf s.cfg .enc ≤ 1000 ∧ outCapOf s.cfg .enc ≤ 1333 :=
  fun _ _ => ⟨rfl, rfl, rfl, Nat.le_refl 1000, Nat.le_refl 1333⟩

/-- StepRunsTheDecodedInstruction: each clause. -/
theorem witness_StepRunsTheDecodedInstruction :
    ((pickAgent (encState 2 aab)).1 = .unit .enc ∧ (encState 2 aab).enc.ctl.state = .busy ∧
      decode (.phase .enc) (natBits 4 (encState 2 aab).enc.ctl.phase.toNat) = .ok (.eCount, [])) ∧
    (let s := State.reset.setSched [.unit .enc, .unit .dec];
      (pickAgent s).1 = .unit .enc ∧ s.enc.ctl.state ≠ .busy ∧ (pickAgent (pickAgent s).2).1 = .unit .dec ∧ s.dec.ctl.state ≠ .busy) ∧
    ((pickAgent (decState 4 aabChecked)).1 = .unit .dec ∧ (decState 4 aabChecked).dec.ctl.state = .busy ∧ (decState 4 aabChecked).grain = .microOp ∧
      decode (.phase .dec) (natBits 4 (decState 4 aabChecked).dec.ctl.phase.toNat) = .ok (.dTree, [])) ∧
    ((pickAgent (decState 2 aabFile)).1 = .unit .dec ∧ (decState 2 aabFile).dec.ctl.state = .busy ∧ (decState 2 aabFile).dec.ctl.phase = 2 ∧
      13 ≤ (decState 2 aabFile).cfg.decInCap ∧ decode .hdr (headerBits (decState 2 aabFile).dec) = .ok (.hdr 3 0x13 2, [])) ∧
    ((decState 4 aabChecked).dec.ctl.phase = 4 ∧ windowFits Config.default (decState 4 aabChecked).dec.treeBits.toNat = true ∧
      decode .tok (tokenBits (decState 4 aabChecked).dec) = .ok (.tInternal, [true, false, true, true, false, false, false, true])) ∧
    ((decState 5 aabRebuilt).dec.ctl.phase = 5 ∧ windowFits Config.default (decState 5 aabRebuilt).dec.avail = true ∧
      decode (.walk (rootIsLeaf (decState 5 aabRebuilt).dec)) (walkBit (decState 5 aabRebuilt).dec) = .ok (.wRight, [])) ∧
    (let s := hostState [.txn .enc (.csrWrite 0 255)];
      (pickAgent s).1 = .host ∧ s.script = .txn .enc (.csrWrite 0 255) :: [] ∧ (s.port .enc).held = none ∧
        decode (.cmd .enc) (natBits 8 255) = .ok (.cmdReserved .enc 0xff, [])) := by
  refine ⟨?_, ?_, ?_, ?_, ?_, ?_, ?_⟩ <;> decide +kernel

/-- The grain of the three stream clauses of StepRunsTheDecodedInstruction is a field like any other. -/
theorem witness_streamGrain : ({ decState 4 aabChecked with grain := .stream } : State).grain = .stream ∧
    (pickAgent { decState 4 aabChecked with grain := .stream }).1 = .unit .dec := by decide +kernel

/-- StepRunsTheDecodedInstruction: the fine grain in a phase without stream elements. -/
theorem witness_streamGrain_phase :
    let s : State := { decState 6 aabRebuilt with grain := .stream };
    (pickAgent s).1 = .unit .dec ∧ s.dec.ctl.state = .busy ∧ s.grain = .stream ∧ s.dec.ctl.phase ≠ 2 ∧ s.dec.ctl.phase ≠ 4 ∧ s.dec.ctl.phase ≠ 5 ∧
    decode (.phase .dec) (natBits 4 s.dec.ctl.phase.toNat) = .ok (.dFinish, []) := by decide +kernel

/-- PlacedTableWordIsFetched: words of one bit, four bits, a byte, nine bits and 104 bits. -/
theorem witness_PlacedTableWordIsFetched :
    decodeTableWord 1 1 = some .wRight ∧ decodeTableWord 4 11 = some .eEmpty ∧ decodeTableWord 8 0x01 = some (.start .enc) ∧
    decodeTableWord 8 0xff = some (.cmdReserved .enc 0xff) ∧ decodeTableWord 9 0x1ff = some (.tLeaf 0xff) ∧
    decodeTableWord 104 (2 ^ 104 - 1) = some (.hdr (-1) (-1) (-1)) := by decide +kernel

/-- DecodeOfEncodeIsTheInstruction, EncodeOfDecodeIsTheWord. -/
theorem witness_encoding : (Instr.tLeaf 0xff).wf = true ∧ (Instr.cmdReserved .enc 0x03).wf = true ∧
    decode .tok [true, true, true, true, true, true, true, true, true, false] = .ok (.tLeaf 0xff, [false]) := by decide +kernel

/-- EInitClearsTheEncoder: the length one above ENC_IN_CAP, and at it. -/
theorem witness_EInitClearsTheEncoder :
    (encState 1 { aab with ctl := { aab.ctl with inLen := 1001 } }).cfg.encInCap < (1001 : BitVec 64).toNat ∧
    (1000 : BitVec 64).toNat ≤ (encState 1 { aab with ctl := { aab.ctl with inLen := 1000 } }).cfg.encInCap := by decide +kernel

/-- ECountCountsOneByte: the last byte. -/
theorem witness_ECountCountsOneByte :
    let s := encState 2 { aab with rd := 2 };
    s.enc.rd.toNat < s.enc.ctl.inLen.toNat ∧ s.enc.ctl.inLen.toNat ≤ s.cfg.encInCap ∧ Memory.read s.enc.ibuf s.enc.rd.toNat = some 0x62 := by
  decide +kernel

theorem holds_aab : Holds aab.ibuf [0x61, 0x61, 0x62] := by
  intro k h
  have : k < 3 := h
  obtain rfl | rfl | rfl : k = 0 ∨ k = 1 ∨ k = 2 := by omega
  all_goals rfl

/-- CountingGivesTheByteFrequencies. -/
theorem witness_CountingGivesTheByteFrequencies :
    let e := (encState 2 aab).enc;
    Config.default.wf ∧ ([0x61, 0x61, 0x62] : List Byte) ≠ [] ∧ ([0x61, 0x61, 0x62] : List Byte).length ≤ Config.default.encInCap ∧
    e.ctl.inLen.toNat = ([0x61, 0x61, 0x62] : List Byte).length ∧ Holds e.ibuf [0x61, 0x61, 0x62] ∧ e.rd = 0 ∧ e.ctl.phase = 2 ∧
    ∀ b : Byte, freqOf e b = 0 :=
  ⟨by decide, by decide, by decide, by decide, holds_aab, rfl, rfl, fun b => by simp [encState, aab, Enc.reset, freqOf]⟩

/-- ELeavesMakesOneLeafPerSymbol. -/
theorem witness_ELeavesMakesOneLeafPerSymbol : (encState 3 aabFreq).enc.nnode.val = 0 ∧ (encState 3 aabFreq).enc.pq = [] := by decide +kernel

/-- ExtractMinGivesTheFirst. -/
theorem witness_ExtractMinGivesTheFirst : ([0, 1] : List Handle).Nodup ∧ ([0, 1] : List Handle) ≠ [] ∧ Config.default.tieRank = [] := by decide

/-- EMergeJoinsTheTwoFirst: both clauses. -/
theorem witness_EMergeJoinsTheTwoFirst :
    extractMin (encState 4 aabLeaves).cfg (encState 4 aabLeaves).enc.node (encState 4 aabLeaves).enc.pq = some (1, [0]) ∧
    extractMin (encState 4 aabLeaves).cfg (encState 4 aabLeaves).enc.node [0] = some (0, []) ∧ (encState 4 aabLeaves).enc.nnode.val < 511 ∧
    (encState 4 aabTree).enc.pq = [2] := by decide +kernel

/-- MergingTakesOneStepPerPair: the arena full but for one record. -/
theorem witness_MergingTakesOneStepPerPair :
    let e : Enc := { aabLeaves with nnode := 510, pq := [508, 509] };
    let s := encState 4 e;
    s.enc.pq.length = 1 + 1 ∧ s.enc.pq.Pairwise (· < ·) ∧ (∀ h ∈ s.enc.pq, h.val < s.enc.nnode.val) ∧ s.enc.nnode.val + (1 + 1) ≤ 512 ∧
    s.enc.ctl.phase = 4 := by decide +kernel

/-- MergingTakesOneStepPerPair: the two Leaves of V5. -/
theorem witness_MergingTakesOneStepPerPair_leaves :
    let s := encState 4 aabLeaves;
    s.enc.pq.length = 1 + 1 ∧ s.enc.pq.Pairwise (· < ·) ∧ (∀ h ∈ s.enc.pq, h.val < s.enc.nnode.val) ∧ s.enc.nnode.val + (1 + 1) ≤ 512 ∧
    s.enc.ctl.phase = 4 ∧ ([0x61, 0x62] : List Byte).Nodup ∧
    List.Forall₂ (fun h b => ∃ f, encNode s.enc.node h = .leaf b f) s.enc.pq [0x61, 0x62] :=
  ⟨by decide +kernel, by decide +kernel, by decide +kernel, by decide +kernel, by decide +kernel, by decide,
    .cons ⟨2, by decide +kernel⟩ (.cons ⟨1, by decide +kernel⟩ .nil)⟩

/-- ERootTakesTheLastHandle. -/
theorem witness_ERootTakesTheLastHandle : (encState 5 aabTree).enc.pq = [2] := by decide +kernel

/-- The arena of V5 is in order. -/
theorem arenaOk_aab : ArenaOk aabTree.node := by
  intro g f l r e
  by_cases h2 : g = 2
  · subst h2
    have : encNode aabTree.node 2 = .internal 3 1 0 := by decide +kernel
    rw [this] at e
    cases e
    decide
  · have e2 : encNode aabTree.node g = encNode aabLeaves.node g := encNode_set_other aabLeaves.node 2 g _ h2
    rw [e2] at e
    by_cases h1 : g = 1
    · subst h1
      have : encNode aabLeaves.node 1 = .leaf 0x62 1 := by decide +kernel
      rw [this] at e
      cases e
    · have e1 : encNode aabLeaves.node g = encNode (Enc.reset.node.set 0 (.leaf 0x61 2)) g := encNode_set_other _ 1 g _ h1
      rw [e1] at e
      by_cases h0 : g = 0
      · subst h0
        have : encNode (Enc.reset.node.set 0 (.leaf 0x61 2)) 0 = .leaf 0x61 2 := by decide +kernel
        rw [this] at e
        cases e
      · have e0 : encNode (Enc.reset.node.set 0 (.leaf 0x61 2)) g = encNode Enc.reset.node g := encNode_set_other _ 0 g _ h0
        rw [e0] at e
        simp [encNode, Enc.reset] at e

/-- The tree of V5. -/
def tree5 : CodeTree := .node (.leaf 0x62) (.leaf 0x61)

theorem encReps_aab : EncReps aabTree.node 2 tree5 :=
  ⟨3, 1, 0, by decide +kernel, ⟨1, by decide +kernel⟩, ⟨2, by decide +kernel⟩⟩

/-- ECodegenFillsTheTable: the arena, and for its last clause a root that is a Leaf. -/
theorem witness_ECodegenFillsTheTable : ArenaOk (encState 6 aabTree).enc.node ∧ encNode (encState 6 aabTree).enc.node (encState 6 aabTree).enc.root = .leaf 0x61 2 :=
  ⟨arenaOk_aab, by decide +kernel⟩

/-- CodesArePathsToTheLeaves. -/
theorem witness_CodesArePathsToTheLeaves :
    let s := encState 6 { aabTree with root := 2 };
    ArenaOk s.enc.node ∧ EncReps s.enc.node s.enc.root (.node (.leaf 0x62) (.leaf 0x61)) ∧
    (CodeTree.node (.leaf 0x62) (.leaf 0x61)).syms.Nodup ∧ ∃ t, exec .eCodegen s = .next t ∧ t.enc.ctl.phase = 7 :=
  ⟨arenaOk_aab, encReps_aab, by decide, exists_next (fun _ => inferInstance) (by decide +kernel)⟩

/-- ETreeEmitsTheTree: with room, and with one byte too few. -/
theorem witness_ETreeEmitsTheTree :
    let s := encState 7 { aabCodes with wr := 13 };
    ArenaOk s.enc.node ∧ EncReps s.enc.node s.enc.root tree5 ∧ s.cfg.encOutCap < 2 ^ 64 ∧ s.enc.nbits = 0 ∧ s.enc.nb = 0 ∧ s.enc.acc = 0 ∧ s.enc.wr = 13 ∧
    13 + tree5.ser.length / 8 ≤ s.cfg.encOutCap ∧ (14 : Nat) < 13 + tree5.ser.length / 8 :=
  ⟨arenaOk_aab, encReps_aab, by decide +kernel, by decide +kernel, by decide +kernel, by decide +kernel, by decide +kernel, by decide +kernel,
    by decide +kernel⟩

/-- PutBitFillsFromTheTop: NB = 6, and NB = 7 with and without room. -/
theorem witness_PutBitFillsFromTheTop :
    (∀ k, k < 8 - (6 : BitVec 3).toNat → (0x38 : Byte).getLsbD k = false) ∧ (6 : BitVec 3).toNat < 7 ∧
    (∀ k, k < 8 - (7 : BitVec 3).toNat → (0x38 : Byte).getLsbD k = false) ∧ (7 : BitVec 3).toNat = 7 ∧
    (1332 : BitVec 64).toNat < Config.default.encOutCap ∧ Config.default.encOutCap ≤ (1333 : BitVec 64).toNat := by decide +kernel

/-- The packer of V5 before the data is in order. -/
theorem packerOk_aab : PackerOk aabStream := ⟨by decide +kernel, by decide +kernel, by decide +kernel⟩

/-- PackerAppendsInOrder: across a byte boundary. -/
theorem witness_PackerAppendsInOrder : Config.default.encOutCap < 2 ^ 64 ∧ PackerOk aabStream ∧
    after (match putBits Config.default [true, true, false, true, false, true] aabStream with
      | .ok _ e => .next (encState 8 e) | .raise _ _ => .fault .noSuchNode) (fun t => (t.enc.wr, t.enc.nb, t.enc.nbits)) = some (16, 1, 25) :=
  ⟨by decide, packerOk_aab, by decide +kernel⟩

/-- EDataEmitsOneCodeword: the last byte; the room is enough, and it would not be in an OBUF of 14 bytes. -/
theorem witness_EDataEmitsOneCodeword :
    let s := encState 8 { aabStream with rd := 2 };
    s.enc.rd.toNat < s.enc.ctl.inLen.toNat ∧ s.enc.ctl.inLen.toNat ≤ s.cfg.encInCap ∧ s.cfg.encOutCap < 2 ^ 64 ∧ PackerOk s.enc ∧
    13 + (s.enc.nbits + (codeOf s.enc 0x62).length) / 8 ≤ s.cfg.encOutCap ∧ (14 : Nat) < 13 + (s.enc.nbits + (codeOf s.enc 0x62).length) / 8 :=
  ⟨by decide +kernel, by decide +kernel, by decide +kernel, packerOk_aab, by decide +kernel, by decide +kernel⟩

/-- EFlushPadsToAByte: a whole number of bytes; a part of one with room for the last byte; and without. -/
theorem witness_EFlushPadsToAByte :
    (encState 9 { aabData with nb := 0 }).enc.nb = 0 ∧ (encState 9 { aabData with wr := 1332 }).enc.nb ≠ 0 ∧
    (1332 : BitVec 64).toNat < State.reset.cfg.encOutCap ∧ State.reset.cfg.encOutCap ≤ (1333 : BitVec 64).toNat := by decide +kernel

/-- EHeaderStoresTheHeader, EEmptyStoresTheEmptyFile. -/
theorem witness_wellFormedConfig : (encState 10 aabData).cfg.wf ∧ (encState 11 Enc.reset).cfg.wf := by decide +kernel

/-- DInitChecksTheLength: 1334 bytes in an IBUF of 1333, 12 bytes, 13 bytes. -/
theorem witness_DInitChecksTheLength :
    Config.default.decInCap < (1334 : BitVec 64).toNat ∧ (12 : BitVec 64).toNat < 13 ∧ 13 ≤ (13 : BitVec 64).toNat ∧
    (13 : BitVec 64).toNat ≤ Config.default.decInCap ∧ (1333 : BitVec 64).toNat ≤ Config.default.decInCap := by decide

/-- HeaderIsLoaded: the header of V5. -/
theorem witness_HeaderIsLoaded : 13 ≤ (decState 2 aabFile).cfg.decInCap ∧ headerBits (decState 2 aabFile).dec = encode (.hdr 3 0x13 2) := by
  decide +kernel

/-- DCheckReportsTheFirstFailure: PAD_BITS 8; PAD_BITS 1 with no payload; V5 as it is; TREE_BITS one too many; a message one too long. -/
theorem witness_DCheckReportsTheFirstFailure :
    13 ≤ (13 : BitVec 64).toNat ∧ 7 < (8 : Byte).toNat ∧ 8 * ((13 : BitVec 64).toNat - 13) < (1 : Byte).toNat ∧
    (let d := aabHead;
      13 ≤ d.ctl.inLen.toNat ∧ d.padBits.toNat ≤ 7 ∧ d.padBits.toNat ≤ 8 * (d.ctl.inLen.toNat - 13) ∧
      d.treeBits.toNat ≤ 8 * (d.ctl.inLen.toNat - 13) - d.padBits.toNat ∧ d.origSize.toNat ≤ Config.default.decOutCap ∧
      8 * (d.ctl.inLen.toNat - 13) - d.padBits.toNat < (23 : BitVec 32).toNat ∧ Config.default.decOutCap < (1001 : BitVec 64).toNat) := by decide +kernel

/-- GetBitReadsOneBit: at the limit, and one below it. -/
theorem witness_GetBitReadsOneBit : (22 : Nat) ≤ { aabRebuilt with bitpos := 22 }.bitpos ∧ { aabRebuilt with bitpos := 21 }.bitpos < 22 ∧
    Memory.read { aabRebuilt with bitpos := 21 }.ibuf (13 + 21 / 8) = some 0x38 := by decide +kernel

theorem spells_of_bits {d : Dec} {pos : Nat} {w : Bits} (h : ∀ k : Fin w.length, payloadBit d (pos + k) = w[k]) : Spells d pos w :=
  fun k hk => h ⟨k, hk⟩

/-- DTreeRebuildsTheTree, DTreeAlwaysEnds, DTreeIsItsTokens: the tree of V5. -/
theorem witness_DTree :
    let s : State := { decState 4 aabChecked with grain := .stream };
    tree5.size ≤ 511 ∧ s.dec.nnode.val = 0 ∧ s.dec.bitpos = 0 ∧ s.dec.treeBits.toNat = tree5.ser.length ∧
    windowFits s.cfg tree5.ser.length = true ∧ Spells s.dec 0 tree5.ser ∧ s.dec.at 4 ∧ s.grain = .stream ∧ s.dec.stack = [] ∧ s.dec.inSym = false ∧
    ∃ t, exec .dTree s = .next t ∧ t.dec.ctl.phase = 5 :=
  ⟨by decide, by decide +kernel, by decide +kernel, by decide +kernel, by decide +kernel, spells_of_bits (by decide +kernel), ⟨rfl, rfl⟩, rfl, rfl, rfl,
    exists_next (fun _ => inferInstance) (by decide +kernel)⟩

/-- TokensTakeTheNextHandle: the boundary of each clause. -/
theorem witness_TokensTakeTheNextHandle :
    (decState 4 { aabChecked with nnode := 511 }).dec.nnode.val = 511 ∧ (510 : Handle).val = { aabChecked with nnode := 510 }.nnode.val ∧
    (let d := { aabChecked with bitpos := 19 };
      d.nnode.val < 511 ∧ d.bitpos ≤ d.treeBits.toNat ∧ d.treeBits.toNat < d.bitpos + 1) ∧
    (let d := { aabChecked with bitpos := 11 };
      d.nnode.val < 511 ∧ d.bitpos ≤ d.treeBits.toNat ∧ d.treeBits.toNat < d.bitpos + 9) ∧
    (let d := { aabChecked with bitpos := 18 };
      (0 : Handle).val = d.nnode.val ∧ d.bitpos + 1 ≤ d.treeBits.toNat) ∧
    (let d := { aabChecked with bitpos := 10, stack := [.needLeft 0], nnode := 1 };
      (1 : Handle).val = d.nnode.val ∧ d.bitpos + 9 ≤ d.treeBits.toNat ∧ d.stack = ([] : List Frame) ++ .needLeft 0 :: []) ∧
    (let d := { aabChecked with treeBits := 9 };
      (0 : Handle).val = d.nnode.val ∧ d.bitpos + 9 = d.treeBits.toNat ∧ d.stack = []) ∧
    (let d := { aabChecked with treeBits := 10 };
      d.nnode.val < 511 ∧ d.bitpos + 9 < d.treeBits.toNat ∧ d.stack = []) ∧
    (let d := { v6Tree with bitpos := 11, nnode := 3, stack := [.needRight 1 2, .needLeft 0] };
      (3 : Handle).val = d.nnode.val ∧ ([3, 1] : List Handle).Pairwise (· > ·) ∧ d.bitpos + 9 ≤ d.treeBits.toNat ∧
        d.stack = ([(1, 2)] : List (Handle × Handle)).map (fun c => .needRight c.1 c.2) ++ .needLeft 0 :: []) ∧
    (let d := { v6Tree with bitpos := 20, nnode := 6, stack := [.needRight 3 4, .needRight 0 1] };
      (6 : Handle).val = d.nnode.val ∧ ([6, 3, 0] : List Handle).Pairwise (· > ·) ∧ d.bitpos + 9 = d.treeBits.toNat ∧
        d.stack = ([(3, 4), (0, 1)] : List (Handle × Handle)).map fun c => .needRight c.1 c.2) ∧
    (let d := { v6Tree with bitpos := 19, nnode := 6, stack := [.needRight 3 4, .needRight 0 1] };
      d.nnode.val < 511 ∧ d.bitpos + 9 < d.treeBits.toNat ∧
        d.stack = ([(3, 4), (0, 1)] : List (Handle × Handle)).map fun c => .needRight c.1 c.2) := by
  refine ⟨?_, ?_, ?_, ?_, ?_, ?_, ?_, ?_, ?_, ?_, ?_⟩ <;> decide +kernel

/-- DWalkEmitsTheSymbol: the last symbol of V5. -/
theorem witness_DWalkEmitsTheSymbol :
    let s := decState 5 { aabRebuilt with bitpos := 21, wr := 2 };
    DecReps s.dec.node 0 (.node (.leaf 0x62) (.leaf 0x61)) ∧ (CodeTree.node (.leaf 0x62) (.leaf 0x61)).walk [false] = some 0x62 ∧
    Spells s.dec s.dec.bitpos [false] ∧ s.dec.bitpos + [false].length ≤ s.dec.avail ∧ windowFits s.cfg s.dec.avail = true ∧
    s.dec.wr.toNat < s.dec.origSize.toNat ∧ s.dec.origSize.toNat ≤ s.cfg.decOutCap := by
  refine ⟨⟨1, 2, by decide +kernel, ?_, ?_⟩, by decide, spells_of_bits (by decide +kernel), by decide +kernel, by decide +kernel, by decide +kernel,
    by decide +kernel⟩
  · show decNode _ 1 = _
    decide +kernel
  · show decNode _ 2 = _
    decide +kernel

/-- SingleLeafTakesOneBit: the one bit of V2. -/
theorem witness_SingleLeafTakesOneBit :
    let s := decState 5 oneLeaf;
    decNode s.dec.node 0 = .leaf 0x41 ∧ s.dec.bitpos < s.dec.avail ∧ windowFits s.cfg s.dec.avail = true ∧
    s.dec.wr.toNat < s.dec.origSize.toNat ∧ s.dec.origSize.toNat ≤ s.cfg.decOutCap := by decide +kernel

/-- WalkBitsFollowOneEdge: at the root of V6, whose left child is Internal and whose right child is a Leaf. -/
theorem witness_WalkBitsFollowOneEdge :
    let s := decState 5 { v6Tree with bitpos := 38, wr := 6 };
    decNode s.dec.node (standAt s.dec) = .internal 1 4 ∧ s.dec.bitpos < s.dec.avail ∧ s.dec.wr.toNat < s.dec.origSize.toNat ∧
    s.dec.origSize.toNat ≤ s.cfg.decOutCap ∧ decNode s.dec.node 1 = .internal 2 3 ∧ decNode s.dec.node 4 = .leaf 0x41 := by decide +kernel

/-- MissingDataBitIsDataTrunc: at AVAIL with a tree and with a single Leaf; and one bit before it, where 0 leads to an Internal node. -/
theorem witness_MissingDataBitIsDataTrunc :
    (let s := decState 5 { v6Tree with bitpos := 39 };
      windowFits s.cfg s.dec.avail = true ∧ s.dec.wr.toNat < s.cfg.decOutCap ∧ s.dec.avail ≤ s.dec.bitpos ∧
        decNode s.dec.node (standAt s.dec) = .internal 1 4) ∧
    (let s := decState 5 { oneLeaf with bitpos := 10 };
      windowFits s.cfg s.dec.avail = true ∧ s.dec.wr.toNat < s.cfg.decOutCap ∧ s.dec.avail ≤ s.dec.bitpos ∧ decNode s.dec.node 0 = .leaf 0x41) := by
  refine ⟨?_, ?_⟩ <;> decide +kernel

/-- MissingDataBitIsDataTrunc, second part: the bit 0 of V6 at position 38 is the last one, and the root's left child is Internal. -/
theorem witness_MissingDataBitIsDataTrunc_inside :
    let tree : CodeTree := .node (.node (.leaf 0x43) (.leaf 0x42)) (.leaf 0x41);
    let s := decState 5 { v6Tree with bitpos := 38 };
    DecReps s.dec.node 0 tree ∧ Spells s.dec s.dec.bitpos [false] ∧ s.dec.bitpos + [false].length = s.dec.avail ∧
    ∀ v, v <+: [false] → tree.walk v = none := by
  refine ⟨⟨1, 4, by decide +kernel, ⟨2, 3, by decide +kernel, ?_, ?_⟩, ?_⟩, spells_of_bits (by decide +kernel), by decide +kernel, ?_⟩
  · show decNode _ 2 = _
    decide +kernel
  · show decNode _ 3 = _
    decide +kernel
  · show decNode _ 4 = _
    decide +kernel
  · intro v hv
    rcases v with _ | ⟨b, _ | ⟨c, v⟩⟩
    · rfl
    · have := hv.eq_of_length rfl
      cases this
      rfl
    · have := hv.length_le
      simp at this

/-- PhaseGraph, FaultEntryIsPrecise, UnitsAreIndependent, InstructionsLeaveTheInput: an edge of each unit, and a fault. -/
theorem witness_instructionsComplete :
    (∃ t, exec .eMerge (encState 4 aabTree) = .next t ∧ t.enc.ctl.phase = 5) ∧
    (∃ t, exec .dTree (decState 4 aabChecked) = .next t ∧ t.dec.ctl.phase = 5) ∧
    (∃ t, exec .eInit (encState 1 { aab with ctl := { aab.ctl with inLen := 1001 } }) = .next t ∧ (t.ctl .enc).state = .error) :=
  ⟨exists_next (fun _ => inferInstance) (by decide +kernel), exists_next (fun _ => inferInstance) (by decide +kernel),
    exists_next (fun _ => inferInstance) (by decide +kernel)⟩

/-- ENC counting the second byte of V5, DEC idle. -/
def counting : State := encState 2 { aab with rd := 1, node := aabTree.node }

/-- EveryStepKeepsTheInvariant, InvariantStatesAreSafe, BusyUnitAlwaysSteps: a state in the middle of a run. -/
theorem witness_Inv : Inv counting ∧ (pickAgent counting).1 = .unit .enc ∧ (counting.ctl .enc).state = .busy ∧ counting.grain = .microOp ∧
    ∃ t, step counting = .next t ∧ t.enc.rd = 2 := by
  refine ⟨⟨by decide +kernel, by decide +kernel, ?_, ?_, ?_, ?_⟩, by decide +kernel, by decide +kernel, by decide +kernel,
    exists_next (fun _ => inferInstance) (by decide +kernel)⟩
  · refine ⟨⟨by decide +kernel, by decide +kernel, by decide +kernel, by decide +kernel, by decide +kernel, by decide +kernel⟩,
      ⟨by decide +kernel, by decide +kernel, by decide +kernel, by decide +kernel⟩, ?_, arenaOk_aab, ?_, ?_, ?_, ?_, ?_, ?_, ?_⟩
    · intro h; exact absurd h (by decide +kernel)
    · intro _ _; decide +kernel
    · intro _ _ _; decide +kernel
    · intro _; decide +kernel
    · intro h; exact absurd h.2 (by decide +kernel)
    · intro h; exact absurd h.2 (by decide +kernel)
    · intro h; exact absurd h.2 (by decide +kernel)
    · intro _ _ _
      refine ⟨by decide +kernel, by decide +kernel, fun a h1 h2 => ?_⟩
      have : a < 13 := h2
      omega
  · have hn : counting.dec.ctl.state ≠ .busy := by decide +kernel
    refine ⟨ctlOk_idle .dec, ⟨by decide +kernel, by decide +kernel, by decide +kernel, by decide +kernel⟩, ?_, ?_, ?_, ?_, ?_, ?_, ?_, ?_⟩
    · intro h; exact absurd h (by decide +kernel)
    · intro h; exact absurd h hn
    · rintro (h | h) <;> exact absurd h.1 hn
    · intro h; exact absurd h.1 hn
    · intro h; exact absurd h.1 hn
    · intro h; exact absurd h.1 hn
    · intro h; exact absurd h.1 hn
    · intro h; exact absurd h hn
  · intro t h; cases h
  · intro t h; cases h

/-- DEC alone in a run, in the fine grain. -/
def streaming (p : BitVec 4) (d : Dec) : State := { decState p d with grain := .stream }

/-- The invariant of such a state is that of DEC. -/
theorem inv_streaming {p : BitVec 4} {d : Dec} (h : DecOk Config.default (decState p d).dec) : Inv (streaming p d) := by
  refine ⟨by show Config.default.wf; decide, by show Config.default.encOutCap < 2 ^ 64; decide, ?_, h, ?_, ?_⟩
  · have hn : Enc.reset.ctl.state ≠ .busy := by decide
    refine ⟨ctlOk_idle .enc, ⟨.nil, .nil, nofun, nofun⟩, ?_, ?_, fun h => absurd h hn, fun h => absurd h hn, fun h => absurd h.1 hn,
      fun h => absurd h.1 hn, fun h => absurd h.1 hn, fun h => absurd h.1 hn, fun h => absurd h hn⟩
    · intro h; cases h
    · intro g f l r e
      simp [streaming, decState, State.reset, Enc.reset, encNode] at e
  · intro t h; cases h
  · intro t h; cases h

/-- EveryStepKeepsTheInvariant, InvariantStatesAreSafe, BusyUnitAlwaysSteps: DEC on V5 in the fine grain, at the header, at the tree and at the data. -/
theorem witness_Inv_stream : ∀ x ∈ [((2 : BitVec 4), aabFile), (4, aabChecked), (5, aabRebuilt)],
    let s := streaming x.1 x.2;
    Inv s ∧ (pickAgent s).1 = .unit .dec ∧ (s.ctl .dec).state = .busy ∧ s.grain = .stream ∧ (s.ctl .dec).phase = x.1 := by
  intro x hx
  refine ⟨inv_streaming ?_, rfl, rfl, rfl, rfl⟩
  simp only [List.mem_cons, List.not_mem_nil, or_false] at hx
  obtain rfl | rfl | rfl := hx
  all_goals
    refine ⟨⟨by decide +kernel, by decide +kernel, by decide +kernel, by decide +kernel, by decide +kernel, by decide +kernel⟩,
      ⟨by decide +kernel, by decide +kernel, by decide +kernel, by decide +kernel⟩, nofun, fun _ _ => by decide +kernel, ?_, ?_, ?_, ?_, ?_,
      fun _ _ => by decide +kernel⟩
    · rintro (h | h) <;> first | exact absurd h.2 (by decide +kernel) | decide +kernel
    · intro h; exact absurd h.2 (by decide +kernel)
    · intro h; first | exact absurd h.2 (by decide +kernel) | decide +kernel
    · intro h
      first
      | exact absurd h.2 (by decide +kernel)
      | exact ⟨by decide +kernel, by decide +kernel, by decide +kernel, by decide +kernel, fun hs => absurd hs (by decide +kernel)⟩
    · intro h; exact absurd h.2 (by decide +kernel)

/-- UnpackerReadsWhatThePackerWrote: one bit appended and flushed. -/
theorem witness_UnpackerReadsWhatThePackerWrote :
    let e : Enc := { Enc.reset with wr := 13 };
    let d : Dec := { Dec.reset with ibuf := [(13, 0x80)] };
    Config.default.encOutCap < 2 ^ 64 ∧ e.acc = 0 ∧ e.nb = 0 ∧ e.nbits = 0 ∧ e.wr = 13 ∧
    ∃ e1 e2, putBits Config.default [true] e = .ok () e1 ∧ flush Config.default e1 = .ok () e2 ∧
      ∀ a, 13 ≤ a → a < e2.wr.toNat → Memory.read d.ibuf a = Memory.read e2.obuf a := by
  refine ⟨by decide, rfl, rfl, rfl, rfl, _, _, rfl, rfl, ?_⟩
  intro a h1 h2
  have : a < 14 := h2
  obtain rfl : a = 13 := by omega
  decide +kernel

/-- ENC and DEC of V2: the message 41 and its packed file. -/
def v2 : State :=
  { encState 1 { Enc.reset with ctl := { Ctl.reset with inLen := 1 }, ibuf := [(0, 0x41)] } with sched := List.replicate 10 (.unit .enc) }

/-- The decoder's side of V2. -/
def v2File : State :=
  { decState 1 { Dec.reset with
      ctl := { Ctl.reset with inLen := 15 }
      ibuf := [(0, 0), (1, 0), (2, 0), (3, 0), (4, 0), (5, 0), (6, 0), (7, 1)] ++
        [(8, 0), (9, 0), (10, 0), (11, 9), (12, 6), (13, 0xa0), (14, 0x80)] } with
    sched := List.replicate 6 (.unit .dec) }

theorem holds_v2 : Holds v2.enc.ibuf [0x41] := by
  intro k h
  have : k < 1 := h
  obtain rfl : k = 0 := by omega
  rfl

/-- EncodingDependsOnTheMessageAlone: V2, and the same message after another run's leavings. -/
theorem witness_EncodingDependsOnTheMessageAlone :
    let s2 : State := { v2 with enc := { v2.enc with acc := 0x55, nnode := 3, wr := 99, pq := [1], ibuf := [(0, 0x41), (1, 0x42)] } };
    1 ≤ 10 ∧ v2.cfg = s2.cfg ∧ v2.cfg.wf ∧ v2.cfg.encOutCap < 2 ^ 64 ∧ v2.enc.at 1 ∧ s2.enc.at 1 ∧
    v2.enc.ctl.inLen.toNat = ([0x41] : List Byte).length ∧ s2.enc.ctl.inLen.toNat = ([0x41] : List Byte).length ∧
    Holds v2.enc.ibuf [0x41] ∧ Holds s2.enc.ibuf [0x41] ∧ v2.sched = List.replicate 10 (.unit .enc) ∧ s2.sched = List.replicate 10 (.unit .enc) ∧
    ∃ t, Host.Core.run core 10 v2 = .next t ∧ t.enc.ctl.state = .done := by
  refine ⟨by decide, rfl, by decide +kernel, by decide +kernel, ⟨rfl, rfl⟩, ⟨rfl, rfl⟩, rfl, rfl, holds_v2, ?_, rfl, rfl,
    exists_next (fun _ => inferInstance) (by decide +kernel)⟩
  intro k h
  have : k < 1 := h
  obtain rfl : k = 0 := by omega
  rfl

/-- DecodeOfEncodeIsTheMessage: V2. -/
theorem witness_DecodeOfEncodeIsTheMessage :
    v2.cfg.wf ∧ v2.cfg.encOutCap < 2 ^ 64 ∧ v2.enc.at 1 ∧ v2.enc.ctl.inLen.toNat = ([0x41] : List Byte).length ∧ Holds v2.enc.ibuf [0x41] ∧
    v2.sched = List.replicate 10 (.unit .enc) ∧ v2File.cfg = v2.cfg ∧ v2File.grain = .microOp ∧ v2File.dec.at 1 ∧
    v2File.sched = List.replicate (([0x41] : List Byte).length + 5) (.unit .dec) ∧ ([0x41] : List Byte).length ≤ v2.cfg.decOutCap ∧
    ∃ t, Host.Core.run core 10 v2 = .next t ∧ t.enc.ctl.state = .done ∧ v2File.dec.ctl.inLen = t.enc.ctl.outLen ∧
      (∀ a, a < t.enc.ctl.outLen.toNat → Memory.read v2File.dec.ibuf a = Memory.read t.enc.obuf a) ∧ t.enc.ctl.outLen.toNat ≤ v2.cfg.decInCap :=
  ⟨by decide +kernel, by decide +kernel, ⟨rfl, rfl⟩, rfl, holds_v2, rfl, rfl, rfl, ⟨rfl, rfl⟩, rfl, by decide +kernel,
    exists_next (fun _ => inferInstance) (by decide +kernel)⟩

end Sys2Proof.Tests
end

namespace Sys2Proof.Machine

/-! ## D_TREE one token at a time

`Deser` (rule R165) against the token steps of the fine grain: the calls of `Deser` that are pending are the frames of the stack
(rule R42(b)), so a call of `deser` with the stack `st` below it ends, token by token, where `giveNode st` takes its result. -/

/-! ### Reading several bits -/

/-- The bits at a position depend on IBUF, its epoch and the limit alone. -/
theorem streamBits_congr {d e : Dec} (hi : e.ibuf = d.ibuf) (he : e.epoch = d.epoch) (limit n pos : Nat) :
    streamBits e limit n pos = streamBits d limit n pos := by
  induction n generalizing pos with
  | zero => rfl
  | succ n ih => simp only [streamBits, payloadBit, hi, he, ih]

@[simp] theorem streamBits_length (d : Dec) (limit n pos : Nat) : (streamBits d limit n pos).length = n := by
  induction n generalizing pos with
  | zero => rfl
  | succ n ih => simp [streamBits, ih]

/-- `GetBits` passes over its bits and returns the number they spell, after those read before (rule R186). -/
theorem getBitsFrom_eq (limit : Nat) (cause : ErrCode) (n acc : Nat) (d : Dec) :
    getBitsFrom limit cause n acc d =
      (passBits limit cause n d).bind fun _ d' => .ok (acc * 2 ^ n + ofBits (streamBits d limit n d.bitpos)) d' := by
  induction n generalizing acc d with
  | zero => simp [getBitsFrom, passBits, streamBits, ofBits]
  | succ n ih =>
    rcases passBit_cases limit cause d with ⟨_, e⟩ | ⟨h, e⟩
    · simp [getBitsFrom, getBit, passBits, e]
    · have hbits := streamBits_congr (d := d) (e := { d with bitpos := d.bitpos + 1 }) rfl rfl limit n (d.bitpos + 1)
      simp only [getBitsFrom, getBit, passBits, e, Micro.bind_ok, ih, hbits, streamBits, ofBits, streamBits_length, h, decide_true,
        Bool.true_and]
      congr 1
      funext _ d'
      congr 1
      ring

theorem getBits_eq (n limit : Nat) (cause : ErrCode) (d : Dec) :
    getBits n limit cause d =
      (passBits limit cause n d).bind fun _ d' => .ok (ofBits (streamBits d limit n d.bitpos)) d' := by
  simp [getBits, getBitsFrom_eq]

/-- Passing over one bit or more, by whether they all lie below the limit. -/
theorem passBits_eq_ite (limit : Nat) (cause : ErrCode) {n : Nat} (hn : n ≠ 0) (d : Dec) :
    passBits limit cause n d =
      if d.bitpos + n ≤ limit then .ok () { d with bitpos := d.bitpos + n } else .raise cause { d with bitpos := max d.bitpos limit } := by
  rcases passBits_cases limit cause n d with ⟨h, e⟩ | ⟨_, h, e⟩ | ⟨h, _⟩
  · rw [e, if_pos h]
  · rw [e, if_neg (by omega)]
  · exact absurd h hn

/-! ### What `Deser` leaves alone -/

/-- A completed call of `Deser` has taken a handle, and has changed no register but NODE, NNODE and BITPOS. -/
theorem deser_frame {k : Nat} {d d' : Dec} {h : Handle} (e : deser k d = .ok h d') :
    d.nnode.val < d'.nnode.val ∧ d' = { d with node := d'.node, nnode := d'.nnode, bitpos := d'.bitpos } := by
  induction k generalizing d d' h with
  | zero => simp [deser] at e
  | succ k ih =>
    simp only [deser] at e
    split at e
    · simp at e
    · rename_i g n hn
      obtain ⟨-, hval, -⟩ := nextHandle_eq_some hn
      obtain ⟨b, d1, e1, e⟩ := Micro.bind_eq_ok e
      obtain rfl : d1 = { d with nnode := n, bitpos := d.bitpos + 1 } := by
        rcases getBit_cases d.treeBits.toNat .treeTrunc { d with nnode := n } with ⟨_, r⟩ | ⟨_, r⟩ <;> rw [r] at e1 <;> cases e1
        rfl
      split at e
      · rw [getBits_eq, passBits_eq_ite _ _ (by decide)] at e
        split at e
        · simp only [Micro.bind_ok, Micro.ok.injEq] at e
          obtain ⟨-, rfl⟩ := e
          exact ⟨by simp [hval], rfl⟩
        · simp at e
      · obtain ⟨l, d2, el, e⟩ := Micro.bind_eq_ok e
        obtain ⟨r, d3, er, e⟩ := Micro.bind_eq_ok e
        obtain ⟨hl, fl⟩ := ih el
        obtain ⟨hr, fr⟩ := ih er
        simp only [Micro.ok.injEq] at e
        obtain ⟨-, rfl⟩ := e
        refine ⟨by simp only at hl ⊢; omega, ?_⟩
        rw [fr, fl]

/-- A completed subtree is given to the pending calls named, whatever stack DEC holds. -/
theorem giveNode_congr {d e : Dec} {st' : List Frame} (st : List Frame) (h : Handle) (he : e = { d with stack := st' }) :
    giveNode st h e = giveNode st h d := by
  subst he
  induction st generalizing h d with
  | nil => rfl
  | cons f st ih =>
    cases f with
    | needLeft p => rfl
    | needRight p l => exact ih (d := { d with node := d.node.set p.val (.internal l h) p.isLt }) p

/-! ### The token at BITPOS -/

/-- The first bit of the token at BITPOS, which tells the two tokens apart (rule R93); past the window it stands as 0. -/
def tokenBit (d : Dec) : Bool := decide (d.bitpos < d.treeBits.toNat) && payloadBit d d.bitpos

/-- The symbol of a T_LEAF at BITPOS (rule R96). -/
def tokenSym (d : Dec) : Byte := BitVec.ofNat 8 (ofBits (streamBits d d.treeBits.toNat 8 (d.bitpos + 1)))

/-- The token at BITPOS, as DEC reads it. -/
def tokenAt (d : Dec) : Micro Dec Unit := if tokenBit d then tokLeaf (tokenSym d) d else tokInternal d

/-- One token step of DEC in the fine grain; none outside D_TREE. -/
def tokenStep (s : State) (d : Dec) : Option Dec :=
  match streamJob (s.setDec d) with
  | .run .tInternal => some (settleDec (tokInternal d))
  | .run (.tLeaf sym) => some (settleDec (tokLeaf sym d))
  | _ => none

/-- DEC stands in D_TREE, and its tree window lies in IBUF. -/
def InTree (cfg : Config) (d : Dec) : Prop := d.ctl.phase = phDTree ∧ windowFits cfg d.treeBits.toNat = true

theorem tokenStep_eq {s : State} {d : Dec} (hd : InTree s.cfg d) : tokenStep s d = some (settleDec (tokenAt d)) := by
  obtain ⟨hphase, hfits⟩ := hd
  have hjob : streamJob (s.setDec d) = .run (if tokenBit d then .tLeaf (tokenSym d) else .tInternal) := by
    have hbits : tokenBits d = tokenBit d :: streamBits d d.treeBits.toNat 8 (d.bitpos + 1) := rfl
    have htake := takeNat_append (streamBits_length d d.treeBits.toNat 8 (d.bitpos + 1)) []
    rw [List.append_nil] at htake
    simp only [streamJob, State.setDec_dec, State.setDec_cfg, hphase, hfits, decode, hbits]
    cases tokenBit d with
    | false => rfl
    | true => simp [decodeTok, htake, jobOf, tokenSym, phDTree, phDHeader]
  unfold tokenStep tokenAt
  rw [hjob]
  cases tokenBit d <;> rfl

/-! ### One token against `Deser` -/

/-- With no handle left, either token and `Deser` raise the same fault (rule R169). -/
theorem tokenAt_of_full {d : Dec} (hn : nextHandle d.nnode = none) (k : Nat) :
    tokenAt d = .raise .treeNodes d ∧ deser (k + 1) d = .raise .treeNodes d := by
  constructor
  · unfold tokenAt tokLeaf tokInternal
    simp [hn]
  · simp [deser, hn]

/-- A T_LEAF does what a call of `Deser` that reads a Leaf does, and hands the Leaf to the pending calls (rules R95, R165). -/
theorem tokenAt_of_leaf {d : Dec} {h : Handle} {n : Fin 512} (hn : nextHandle d.nnode = some (h, n)) (hb : tokenBit d = true) (k : Nat)
    (st : List Frame) : settleDec (tokenAt { d with stack := st }) = settleDec ((deser (k + 1) d).bind (giveNode st)) := by
  have hb' : tokenBit { d with stack := st } = true := hb
  obtain ⟨hlt, hbit⟩ : d.bitpos < d.treeBits.toNat ∧ payloadBit d d.bitpos = true := by simpa [tokenBit] using hb
  have hget : getBit d.treeBits.toNat .treeTrunc { d with nnode := n } = .ok true { d with nnode := n, bitpos := d.bitpos + 1 } := by
    rcases getBit_cases d.treeBits.toNat .treeTrunc { d with nnode := n } with ⟨hge, _⟩ | ⟨_, e⟩
    · exact absurd hge (by simpa using hlt)
    · rw [e, ← hbit]
      rfl
  simp only [tokenAt, hb', if_true, tokLeaf, deser, hn, hget, Micro.bind_ok, getBits_eq, Micro.bind_assoc]
  rw [passBits_eq_ite _ _ (by decide), passBits_eq_ite _ _ (by decide)]
  by_cases hfit : d.bitpos + 9 ≤ d.treeBits.toNat
  · simp only [hfit, Nat.add_assoc, if_true, Micro.bind_ok, Nat.reduceAdd]
    congr 1
    exact giveNode_congr st h rfl
  · have hmax : max d.bitpos d.treeBits.toNat = max (d.bitpos + 1) d.treeBits.toNat := by omega
    simp [hfit, Nat.add_assoc, hmax]

/-- A T_INTERNAL does what a call of `Deser` does before it reads the two subtrees, and leaves that call pending (rules R94, R165); past the
window both raise the same fault (rule R167). -/
theorem tokenAt_of_internal {d : Dec} {h : Handle} {n : Fin 512} (hn : nextHandle d.nnode = some (h, n)) (hb : tokenBit d = false) (k : Nat)
    (st : List Frame) :
    let d1 : Dec := { d with nnode := n, bitpos := d.bitpos + 1 }
    (tokenAt { d with stack := st } = .raise .treeTrunc { d with nnode := n, stack := st } ∧
      deser (k + 1) d = .raise .treeTrunc { d with nnode := n }) ∨
    (tokenAt { d with stack := st } = .ok () { d1 with stack := .needLeft h :: st } ∧
      deser (k + 1) d = (deser k d1).bind fun l d2 => (deser k d2).bind fun r d3 =>
        .ok h { d3 with node := d3.node.set h.val (.internal l r) h.isLt }) := by
  have hb' : tokenBit { d with stack := st } = false := hb
  simp only [tokenAt, hb', tokInternal, deser, hn]
  rw [passBits_eq_ite _ _ (by decide)]
  rcases getBit_cases d.treeBits.toNat .treeTrunc { d with nnode := n } with ⟨hge, e⟩ | ⟨hlt, e⟩
  · simp only at hge
    left
    simp [e, hge, show ¬ d.bitpos + 1 ≤ d.treeBits.toNat by omega]
  · simp only at hlt
    have hbit : payloadBit { d with nnode := n } d.bitpos = false := by simpa [tokenBit, payloadBit, hlt] using hb
    right
    simp [e, hbit, hlt]

/-! ### D_TREE -/

/-- DEC goes from one state to another by token steps. -/
def TokenSteps (s : State) : Dec → Dec → Prop := Relation.ReflTransGen fun d e => tokenStep s d = some e

/-- Token steps, as the number of them. -/
theorem TokenSteps.iterate {s : State} {d e : Dec} (h : TokenSteps s d e) :
    ∃ n, Nat.iterate (fun o => o.bind (tokenStep s)) n (some d) = some e := by
  induction h using Relation.ReflTransGen.head_induction_on with
  | refl => exact ⟨0, rfl⟩
  | head hstep _ ih =>
    obtain ⟨n, hn⟩ := ih
    exact ⟨n + 1, by rw [Function.iterate_succ_apply, Option.bind_some, hstep, hn]⟩

/-- A call of `Deser` with pending calls below it, token by token: DEC comes to where those calls take its result, or to its fault. The
handles left bound the depth, so `deser` never ends for want of fuel. -/
theorem tokenSteps_deser {s : State} {k : Nat} {d : Dec} (st : List Frame) (hk : 512 ≤ k + d.nnode.val) (hd : InTree s.cfg d) :
    TokenSteps s { d with stack := st } (settleDec ((deser k d).bind (giveNode st))) := by
  induction k generalizing d st with
  | zero => exact absurd d.nnode.isLt (by omega)
  | succ k ih =>
    have hstep : TokenSteps s { d with stack := st } (settleDec (tokenAt { d with stack := st })) :=
      .single (tokenStep_eq hd)
    cases hn : nextHandle d.nnode with
    | none =>
      rw [(tokenAt_of_full (d := { d with stack := st }) hn k).1] at hstep
      rw [(tokenAt_of_full hn k).2]
      exact hstep
    | some hm =>
      obtain ⟨h, m⟩ := hm
      cases hb : tokenBit d with
      | true => rwa [tokenAt_of_leaf hn hb k st] at hstep
      | false =>
        obtain ⟨-, hval, -⟩ := nextHandle_eq_some hn
        rcases tokenAt_of_internal hn hb k st with ⟨htok, hdes⟩ | ⟨htok, hdes⟩
        · rw [htok] at hstep
          rw [hdes]
          exact hstep
        · rw [htok, settleDec_ok] at hstep
          rw [hdes]
          have hleft := ih (d := { d with nnode := m, bitpos := d.bitpos + 1 }) (.needLeft h :: st) (by simp only; omega) hd
          refine hstep.trans (hleft.trans ?_)
          cases el : deser k { d with nnode := m, bitpos := d.bitpos + 1 } with
          | raise c d2 => exact .refl
          | ok l d2 =>
            obtain ⟨hlt, hframe⟩ := deser_frame el
            have hd2 : InTree s.cfg d2 := by
              rw [hframe]
              exact hd
            have hright := ih (d := d2) (.needRight h l :: st) (by simp only at hlt; omega) hd2
            simp only [Micro.bind_ok, Micro.bind_assoc]
            exact hright

/-- The whole tree, token by token. -/
theorem tokenSteps_deserTree {s : State} {d : Dec} (hd : InTree s.cfg d) (hn : d.nnode.val = 0) (hst : d.stack = []) :
    TokenSteps s d (settleDec (deserTree d)) := by
  have hstack : { d with stack := [] } = d := by rw [← hst]
  have hresult : (deser 512 d).bind (giveNode []) = deserTree d := by
    unfold deserTree
    cases e : deser 512 d with
    | raise c d' => rfl
    | ok h d' =>
      have hst' : d'.stack = [] := by rw [(deser_frame e).2, hst]
      simp only [Micro.bind_ok, giveNode, ← hst']
  have hsteps := tokenSteps_deser (k := 512) [] (by omega) hd
  rwa [hstack, hresult] at hsteps

/-- Settles O44: a call of `Deser` is its tokens, by induction on its depth with the pending calls as the stack. -/
theorem dTreeIsItsTokens : Obligations.DTreeIsItsTokens := by
  intro s t hat _ hn _ hst _ hfits hexec
  have hrun : exec .dTree s = .next (s.setDec (settleDec (deserTree s.dec))) := if_pos hfits
  obtain rfl : s.setDec (settleDec (deserTree s.dec)) = t := by simpa [hrun] using hexec
  exact (tokenSteps_deserTree ⟨hat.2, hfits⟩ hn hst).iterate

end Sys2Proof.Machine

namespace Sys2Proof.Machine

/-! ## Where a micro-operation can end

`Micro.Ends P` says what holds of a unit after a piece of a micro-operation, whether it went on with a value or raised a fault; a raised
fault has a cause. -/

/-- Wherever the piece ends, `P` holds of the unit, and a fault it raises has a cause (rule R281). -/
def Micro.Ends {σ α : Type} (P : σ → Prop) : Micro σ α → Prop
  | .ok _ s => P s
  | .raise c s => c ≠ .none ∧ P s

theorem Micro.Ends.bind {σ α β : Type} {P : σ → Prop} {m : Micro σ α} {f : α → σ → Micro σ β} (hm : m.Ends P)
    (hf : ∀ a s, P s → (f a s).Ends P) : (m.bind f).Ends P := by
  cases m with
  | ok a s => exact hf a s hm
  | raise c s => exact hm

/-! ## What reading the stream changes

The registers the deserializer and the walk read with. Everything else of DEC, the buffers among it, stays as it is, and BITPOS does not
move back (rule R36). -/

/-- DEC after reading some of its stream: NODE, NNODE, CUR, BITPOS and the stack alone can differ, and BITPOS has not moved back. -/
def Reads (d d' : Dec) : Prop :=
  ∃ node nnode cur bitpos stack,
    d' = { d with node := node, nnode := nnode, cur := cur, bitpos := bitpos, stack := stack } ∧ d.bitpos ≤ bitpos

theorem Reads.refl (d : Dec) : Reads d d := ⟨_, _, _, _, _, rfl, le_rfl⟩

theorem Reads.trans {d e f : Dec} (h : Reads d e) (h' : Reads e f) : Reads d f := by
  obtain ⟨_, _, _, _, _, rfl, hle⟩ := h
  obtain ⟨_, _, _, _, _, rfl, hle'⟩ := h'
  exact ⟨_, _, _, _, _, rfl, hle.trans hle'⟩

theorem Reads.ibuf_eq {d e : Dec} (h : Reads d e) : e.ibuf = d.ibuf := by
  obtain ⟨_, _, _, _, _, rfl, _⟩ := h
  rfl

theorem Reads.bitpos_le {d e : Dec} (h : Reads d e) : d.bitpos ≤ e.bitpos := by
  obtain ⟨_, _, _, _, _, rfl, hle⟩ := h
  exact hle

/-- Passing over bits only reads, whether they all lie below the limit or not. -/
theorem passBits_reads {limit n : Nat} {cause : ErrCode} (hc : cause ≠ .none) {d d' : Dec} (h : Reads d d') :
    (passBits limit cause n d').Ends (Reads d) := by
  have hmove : ∀ k, d'.bitpos ≤ k → Reads d { d' with bitpos := k } := fun k hk => h.trans ⟨_, _, _, _, _, rfl, hk⟩
  rcases passBits_cases limit cause n d' with ⟨_, e⟩ | ⟨_, _, e⟩ | ⟨_, e⟩
  · rw [e]
    exact hmove _ (Nat.le_add_right ..)
  · rw [e]
    exact ⟨hc, hmove _ (Nat.le_max_left ..)⟩
  · rw [e]
    exact h

theorem getBit_reads {limit : Nat} {cause : ErrCode} (hc : cause ≠ .none) {d d' : Dec} (h : Reads d d') :
    (getBit limit cause d').Ends (Reads d) := by
  rcases getBit_cases limit cause d' with ⟨_, e⟩ | ⟨_, e⟩
  · rw [e]
    exact ⟨hc, h⟩
  · rw [e]
    exact h.trans ⟨_, _, _, _, _, rfl, Nat.le_succ _⟩

theorem getBits_reads {n limit : Nat} {cause : ErrCode} (hc : cause ≠ .none) {d d' : Dec} (h : Reads d d') :
    (getBits n limit cause d').Ends (Reads d) := by
  rw [getBits_eq]
  exact (passBits_reads hc h).bind fun _ _ h' => h'

/-- `Deser` only reads (rule R165), whether it completes the subtree or raises a fault. -/
theorem deser_reads {k : Nat} {d d' : Dec} (h : Reads d d') : (deser k d').Ends (Reads d) := by
  induction k generalizing d' with
  | zero => exact ⟨by decide, h⟩
  | succ k ih =>
    simp only [deser]
    split
    · exact ⟨by decide, h⟩
    · rename_i g n _
      have hn : Reads d { d' with nnode := n } := h.trans ⟨_, _, _, _, _, rfl, le_rfl⟩
      have hset : ∀ e x, Reads d e → Reads d { e with node := e.node.set g.val x g.isLt } :=
        fun e x he => he.trans ⟨_, _, _, _, _, rfl, le_rfl⟩
      refine (getBit_reads (by decide) hn).bind fun b d1 h1 => ?_
      cases b with
      | true => exact (getBits_reads (by decide) h1).bind fun _ d2 h2 => hset d2 _ h2
      | false => exact (ih h1).bind fun _ d2 h2 => (ih h2).bind fun _ d3 h3 => hset d3 _ h3

/-! ## D_TREE and its tokens -/

/-- How a piece of D_TREE begun in `d` can end: in a fault, with the tree not complete, or with the tree complete and its window used up
(rules R166 to R169). -/
inductive TreeEnd (d : Dec) : Micro Dec Unit → Prop
  | fault {c : ErrCode} {d' : Dec} (hc : c ≠ .none) (h : Reads d d') : TreeEnd d (.raise c d')
  | more {d' : Dec} (h : Reads d d') (hpos : d'.bitpos ≤ d.treeBits.toNat) : TreeEnd d (.ok () d')
  | done {d' : Dec} (h : Reads d d') (hpos : d'.bitpos = d.treeBits.toNat) :
    TreeEnd d (.ok () { d' with ctl := gotoPhase phDWalk d'.ctl })

theorem finishTree_treeEnd {d d' : Dec} (h : Reads d d') : TreeEnd d (finishTree d') := by
  have hbits : d'.treeBits = d.treeBits := by
    obtain ⟨_, _, _, _, _, rfl, _⟩ := h
    rfl
  unfold finishTree
  split
  · exact .fault (by decide) h
  · rename_i hpos
    exact .done h (by rw [← hbits]; omega)

theorem deserTree_treeEnd (d : Dec) : TreeEnd d (deserTree d) := by
  have hreads : (deser 512 d).Ends (Reads d) := deser_reads (Reads.refl d)
  unfold deserTree
  cases hd : deser 512 d with
  | ok h d' =>
    rw [hd] at hreads
    exact finishTree_treeEnd hreads
  | raise c d' =>
    rw [hd] at hreads
    exact .fault hreads.1 hreads.2

/-- A completed subtree ends where an Internal node awaits its right subtree, or the tree is complete. -/
theorem giveNode_treeEnd {d d' : Dec} {st : List Frame} {g : Handle} (h : Reads d d') (hpos : d'.bitpos ≤ d.treeBits.toNat) :
    TreeEnd d (giveNode st g d') := by
  induction st generalizing g d' with
  | nil => exact finishTree_treeEnd (h.trans ⟨_, _, _, _, _, rfl, le_rfl⟩)
  | cons f st ih =>
    cases f with
    | needLeft p => exact .more (h.trans ⟨_, _, _, _, _, rfl, le_rfl⟩) hpos
    | needRight p l => exact ih (h.trans ⟨_, _, _, _, _, rfl, le_rfl⟩) hpos

/-- A token's bits passed over: the window is at its end, or what follows them goes on below it. -/
theorem passToken_treeEnd {d : Dec} {n : Fin 512} {k : Nat} (hk : k ≠ 0) {f : Unit → Dec → Micro Dec Unit}
    (hf : ∀ d', Reads d d' → d'.bitpos ≤ d.treeBits.toNat → TreeEnd d (f () d')) :
    TreeEnd d ((passBits d.treeBits.toNat .treeTrunc k { d with nnode := n }).bind f) := by
  rw [passBits_eq_ite _ _ hk]
  split
  · rename_i hfit
    exact hf _ ⟨_, _, _, _, _, rfl, Nat.le_add_right ..⟩ hfit
  · exact .fault (by decide) ⟨_, _, _, _, _, rfl, Nat.le_max_left ..⟩

theorem tokInternal_treeEnd (d : Dec) : TreeEnd d (tokInternal d) := by
  unfold tokInternal
  split
  · exact .fault (by decide) (Reads.refl d)
  · exact passToken_treeEnd (by decide) fun d' h hpos => .more (h.trans ⟨_, _, _, _, _, rfl, le_rfl⟩) hpos

theorem tokLeaf_treeEnd (sym : Byte) (d : Dec) : TreeEnd d (tokLeaf sym d) := by
  unfold tokLeaf
  split
  · exact .fault (by decide) (Reads.refl d)
  · exact passToken_treeEnd (by decide) fun d' h hpos => giveNode_treeEnd (h.trans ⟨_, _, _, _, _, rfl, le_rfl⟩) hpos

/-! ## D_WALK and its walk bits -/

/-- How a piece of D_WALK begun in `d` can end: in a fault, at an Internal node inside a codeword, or with a symbol emitted
(rules R226 to R228). The bits it used lie below AVAIL, if BITPOS did before. -/
inductive WalkEnd (d : Dec) : Micro Dec Unit → Prop
  | fault {c : ErrCode} {d' : Dec} (hc : c ≠ .none) (h : Reads d d') : WalkEnd d (.raise c d')
  | inside {d' : Dec} (h : Reads d d') (hpos : d'.bitpos ≤ d.avail) (hnode : d'.node = d.node)
    (hstand : ∃ l r, decNode d.node (standAt d) = .internal l r) (hcur : ∃ l r, decNode d.node d'.cur = .internal l r) :
    WalkEnd d (.ok () { d' with inSym := true })
  | emitted {d' : Dec} (h : Reads d d') (hpos : d.bitpos ≤ d.avail → d'.bitpos ≤ d.avail) (sym : Byte) :
    WalkEnd d (.ok () (emitSym sym d'))

theorem walkFrom_walkEnd {d d' : Dec} (k : Nat) (h : Reads d d') (hpos : d.bitpos ≤ d.avail → d'.bitpos ≤ d.avail) :
    WalkEnd d (walkFrom k d') := by
  induction k generalizing d' with
  | zero =>
    simp only [walkFrom]
    split
    · exact .emitted h hpos _
    · exact .fault (by decide) h
  | succ k ih =>
    simp only [walkFrom]
    split
    · exact .emitted h hpos _
    · have hav : d'.avail = d.avail := by
        obtain ⟨_, _, _, _, _, rfl, _⟩ := h
        rfl
      rcases getBit_cases d'.avail .dataTrunc d' with ⟨_, e⟩ | ⟨hlt, e⟩
      · rw [e]
        exact .fault (by decide) h
      · rw [e]
        exact ih (h.trans ⟨_, _, _, _, _, rfl, Nat.le_succ _⟩) fun _ => by simp only; omega

/-- One data bit passed over with CUR set: DATA_TRUNC at AVAIL, or what follows goes on below it. -/
theorem passWalkBit_walkEnd {d : Dec} {c : Handle} {f : Unit → Dec → Micro Dec Unit}
    (hf : ∀ d', Reads d d' → d'.bitpos ≤ d.avail → d'.node = d.node → WalkEnd d (f () d')) :
    WalkEnd d ((passBit d.avail .dataTrunc { d with cur := c }).bind f) := by
  rcases passBit_cases d.avail .dataTrunc { d with cur := c } with ⟨_, e⟩ | ⟨hlt, e⟩
  · rw [e]
    exact .fault (by decide) ⟨_, _, _, _, _, rfl, le_rfl⟩
  · rw [e]
    exact hf _ ⟨_, _, _, _, _, rfl, Nat.le_succ _⟩ hlt rfl

theorem walkSymbol_walkEnd (d : Dec) : WalkEnd d (walkSymbol d) := by
  have hcur : Reads d { d with cur := 0 } := ⟨_, _, _, _, _, rfl, le_rfl⟩
  unfold walkSymbol
  split
  · rename_i sym _
    simp only [getBit, Micro.bind_assoc, Micro.bind_ok]
    exact passWalkBit_walkEnd fun d' h hpos _ => .emitted h (fun _ => hpos) sym
  · exact walkFrom_walkEnd _ hcur id

theorem walkEdge_walkEnd (right : Bool) {l r : Handle} {d : Dec} (hstand : decNode d.node (standAt d) = .internal l r) :
    WalkEnd d (walkEdge right l r d) := by
  unfold walkEdge
  refine passWalkBit_walkEnd fun d' h hpos hnode => ?_
  have hchild : ∀ c, Reads d { d' with cur := c } := fun c => h.trans ⟨_, _, _, _, _, rfl, le_rfl⟩
  simp only
  split
  · exact .emitted (hchild (if right then r else l)) (fun _ => hpos) _
  · rename_i hc
    exact .inside (hchild (if right then r else l)) hpos hnode ⟨l, r, hstand⟩ ⟨_, _, hc⟩

theorem anyBit_walkEnd (sym : Byte) (d : Dec) : WalkEnd d (anyBit sym d) := by
  unfold anyBit
  exact passWalkBit_walkEnd fun d' h hpos _ => .emitted h (fun _ => hpos) sym

/-! ## The input and BITPOS under a piece of D_TREE or D_WALK -/

/-- The input buffer as it was, and BITPOS not moved back. -/
def KeepsInput (d d' : Dec) : Prop := d'.ibuf = d.ibuf ∧ d.bitpos ≤ d'.bitpos

theorem TreeEnd.keepsInput {d : Dec} {m : Micro Dec Unit} (h : TreeEnd d m) : KeepsInput d (settleDec m) := by
  cases h with
  | fault _ h => exact ⟨h.ibuf_eq, h.bitpos_le⟩
  | more h => exact ⟨h.ibuf_eq, h.bitpos_le⟩
  | done h => exact ⟨h.ibuf_eq, h.bitpos_le⟩

theorem WalkEnd.keepsInput {d : Dec} {m : Micro Dec Unit} (h : WalkEnd d m) : KeepsInput d (settleDec m) := by
  cases h with
  | fault _ h => exact ⟨h.ibuf_eq, h.bitpos_le⟩
  | inside h => exact ⟨h.ibuf_eq, h.bitpos_le⟩
  | emitted h => exact ⟨h.ibuf_eq, h.bitpos_le⟩

/-! ## What an instruction leaves alone, by the window it stands in -/

/-- Whose step the bits of a window are (rules R90, R108 to R111): a unit's, or the host's at a unit's port. -/
def Window.agent : Window → Agent
  | .cmd u | .status u | .err u => .port u
  | .phase u => .unit u
  | .tok | .walk _ | .hdr => .unit .dec

/-- If there is a next state, it is `s` with another ENC, of which `P` holds. -/
def SetsEnc (P : Enc → Prop) (s : State) (o : Host.Outcome State Fault Refusal) : Prop :=
  ∀ t, o = .next t → ∃ e, t = s.setEnc e ∧ P e

theorem SetsEnc.next {P : Enc → Prop} {s : State} {e : Enc} (h : P e) : SetsEnc P s (.next (s.setEnc e)) :=
  fun _ ht => ⟨e, (Host.Outcome.next.inj ht).symm, h⟩

theorem SetsEnc.fault {P : Enc → Prop} {s : State} {f : Fault} : SetsEnc P s (.fault f) := fun _ h => by simp at h

/-- If there is a next state, it is `s` with another DEC, of which `P` holds. -/
def SetsDec (P : Dec → Prop) (s : State) (o : Host.Outcome State Fault Refusal) : Prop :=
  ∀ t, o = .next t → ∃ d, t = s.setDec d ∧ P d

theorem SetsDec.next {P : Dec → Prop} {s : State} {d : Dec} (h : P d) : SetsDec P s (.next (s.setDec d)) :=
  fun _ ht => ⟨d, (Host.Outcome.next.inj ht).symm, h⟩

theorem SetsDec.fault {P : Dec → Prop} {s : State} {f : Fault} : SetsDec P s (.fault f) := fun _ h => by simp at h

theorem settleEnc_ibuf {m : Micro Enc Unit} {b : Memory} (h : m.Ends fun e => e.ibuf = b) : (settleEnc m).ibuf = b := by
  cases m with
  | ok a e => exact h
  | raise c e => exact h.2

theorem putBits_ibuf (cfg : Config) (w : Bits) (e : Enc) : (putBits cfg w e).Ends fun e' => e'.ibuf = e.ibuf := by
  rcases putBits_frame cfg w e with ⟨_, _, _, _, _, h⟩ | ⟨_, _, _, _, _, h⟩ <;> rw [h]
  · rfl
  · exact ⟨by decide, rfl⟩

theorem addLeaf_ibuf {sym : Byte} {e e' : Enc} (h : addLeaf sym e = some e') : e'.ibuf = e.ibuf := by
  unfold addLeaf at h
  split at h
  · cases h
    rfl
  · split at h <;> cases h
    rfl

theorem addLeaves_ibuf {syms : List Byte} {e e' : Enc} (h : addLeaves syms e = some e') : e'.ibuf = e.ibuf := by
  induction syms generalizing e with
  | nil =>
    cases h
    rfl
  | cons sym syms ih =>
    simp only [addLeaves] at h
    split at h
    · cases h
    · rename_i e1 h1
      rw [ih h, addLeaf_ibuf h1]

theorem mergeStep_ibuf {cfg : Config} {e e' : Enc} (h : mergeStep cfg e = some e') : e'.ibuf = e.ibuf := by
  unfold mergeStep at h
  split at h
  · cases h
    rfl
  · split at h
    · cases h
      rfl
    · split at h <;> cases h
      rfl

/-- The micro-operations of ENC change ENC alone, and not its input buffer (rules R20, R61). -/
theorem exec_setsEnc {i : Instr} (hw : Window.agent i.window = .unit .enc) (s : State) :
    SetsEnc (fun e => e.ibuf = s.enc.ibuf) s (exec i s) := by
  cases i with
  | eIdle => exact .next (e := s.enc) rfl
  | eInit =>
    refine .next (settleEnc_ibuf ?_)
    simp only [encInit]
    split
    · exact ⟨by decide, rfl⟩
    · rfl
  | eCount =>
    simp only [exec, execECount]
    split
    · exact .next rfl
    · exact .fault
  | eLeaves =>
    simp only [exec, execELeaves]
    split
    · rename_i e he
      exact .next (addLeaves_ibuf he :)
    · exact .fault
  | eMerge =>
    simp only [exec, execEMerge]
    split
    · rename_i e he
      exact .next (mergeStep_ibuf he)
    · exact .fault
  | eRoot =>
    refine .next ?_
    unfold takeRoot
    split <;> rfl
  | eCodegen =>
    simp only [exec, execECodegen]
    split
    · exact .next rfl
    · exact .fault
  | eTree =>
    simp only [exec, execETree]
    split
    · exact .next (settleEnc_ibuf ((putBits_ibuf _ _ _).bind fun _ _ h => h))
    · exact .fault
  | eData =>
    simp only [exec, execEData]
    split
    · exact .next (settleEnc_ibuf ((putBits_ibuf _ _ _).bind fun _ _ h => h))
    · exact .fault
  | eFlush =>
    refine .next (settleEnc_ibuf ?_)
    simp only [flush]
    split
    · rfl
    · split
      · exact ⟨by decide, rfl⟩
      · rfl
  | eHeader =>
    simp only [exec, execEHeader]
    split
    · exact .next rfl
    · exact .fault
  | eEmpty =>
    simp only [exec, execEEmpty]
    split
    · exact .next rfl
    · exact .fault
  | _ => cases hw

theorem decInit_ibuf (cfg : Config) (d : Dec) : (settleDec (decInit cfg d)).ibuf = d.ibuf := by
  simp only [decInit]
  split
  · rfl
  · split <;> rfl

theorem loadHeader_keepsInput (o : BitVec 64) (t : BitVec 32) (p : Byte) (d : Dec) : KeepsInput d (loadHeader o t p d) := ⟨rfl, le_rfl⟩

theorem readHeader_keepsInput (d : Dec) : KeepsInput d (readHeader d) := loadHeader_keepsInput _ _ _ d

theorem checkHeader_keepsInput (cfg : Config) (d : Dec) : KeepsInput d (settleDec (checkHeader cfg d)) := by
  have hsame : ∀ d' : Dec, d'.ibuf = d.ibuf → d'.bitpos = d.bitpos → KeepsInput d d' := fun d' hi hb => ⟨hi, hb.ge⟩
  simp only [checkHeader]
  split
  · exact hsame _ rfl rfl
  · split
    · exact hsame _ rfl rfl
    · split <;> exact hsame _ rfl rfl

theorem walkBitAt_setsDec (right : Bool) (s : State) : SetsDec (KeepsInput s.dec) s (walkBitAt right s) := by
  unfold walkBitAt
  split
  · split
    · rename_i hstand
      exact .next (walkEdge_walkEnd right hstand).keepsInput
    · exact .fault
  · exact .fault

/-- The micro-operations, tokens, walk bits and header of DEC change DEC alone, and not its input buffer (rules R20, R61); D_INIT alone moves
BITPOS back (rule R36). -/
theorem exec_setsDec {i : Instr} (hw : Window.agent i.window = .unit .dec) (s : State) :
    SetsDec (fun d => d.ibuf = s.dec.ibuf ∧ (i ≠ .dInit → s.dec.bitpos ≤ d.bitpos)) s (exec i s) := by
  have keeps : ∀ {o}, SetsDec (KeepsInput s.dec) s o →
      SetsDec (fun d => d.ibuf = s.dec.ibuf ∧ (i ≠ .dInit → s.dec.bitpos ≤ d.bitpos)) s o := by
    intro o h t ht
    obtain ⟨d, rfl, hi, hb⟩ := h t ht
    exact ⟨d, rfl, hi, fun _ => hb⟩
  cases i with
  | dIdle => exact .next (d := s.dec) ⟨rfl, fun _ => le_rfl⟩
  | dInit => exact .next ⟨decInit_ibuf _ _, fun h => absurd rfl h⟩
  | dHeader =>
    simp only [exec, execDHeader]
    split
    · exact keeps (.next (readHeader_keepsInput _))
    · exact .fault
  | hdr o t p => exact keeps (.next (loadHeader_keepsInput _ _ _ _))
  | dCheck => exact keeps (.next (checkHeader_keepsInput _ _))
  | dTree =>
    simp only [exec, execDTree]
    split
    · exact keeps (.next (deserTree_treeEnd _).keepsInput)
    · exact .fault
  | tInternal => exact keeps (.next (tokInternal_treeEnd _).keepsInput)
  | tLeaf sym => exact keeps (.next (tokLeaf_treeEnd _ _).keepsInput)
  | dWalk =>
    simp only [exec, execDWalk]
    split
    · exact keeps (.next (walkSymbol_walkEnd _).keepsInput)
    · exact .fault
  | wLeft => exact keeps (walkBitAt_setsDec false s)
  | wRight => exact keeps (walkBitAt_setsDec true s)
  | sAny x =>
    simp only [exec, execSAny]
    split
    · split
      · exact keeps (.next (anyBit_walkEnd _ _).keepsInput)
      · exact .fault
    · exact .fault
  | dFinish => exact .next ⟨rfl, fun _ => le_rfl⟩
  | _ => cases hw

/-- `t` is `s` but for the port and the control registers of one unit. -/
def AtPort (u : UnitId) (s t : State) : Prop := ∃ c p, t = (s.setCtl u c).setPort u p

theorem AtPort.setCtl (u : UnitId) (s : State) (c : Ctl) : AtPort u s (s.setCtl u c) := by
  cases u
  · exact ⟨c, s.encPort, rfl⟩
  · exact ⟨c, s.decPort, rfl⟩

theorem AtPort.setPort (u : UnitId) (s : State) (p : Port) : AtPort u s (s.setPort u p) := by
  cases u
  · exact ⟨s.enc.ctl, p, rfl⟩
  · exact ⟨s.dec.ctl, p, rfl⟩

theorem AtPort.refl (u : UnitId) (s : State) : AtPort u s s := by
  cases u
  · exact ⟨s.enc.ctl, s.encPort, rfl⟩
  · exact ⟨s.dec.ctl, s.decPort, rfl⟩

theorem AtPort.whenFree {u : UnitId} {x : Txn} {s : State} {f : State → State} (h : AtPort u s (f s)) :
    AtPort u s (whenFree u x s f) := by
  rcases whenFree_cases u x s f with ⟨_, e⟩ | ⟨_, e⟩ <;> rw [e]
  · exact .setPort u s _
  · exact h

theorem AtPort.returnErr (u : UnitId) (c : ErrCode) (s : State) : AtPort u s (returnErr u c s) := .whenFree (.setPort u s _)

/-- A command or a register read at a unit's port always completes, and changes that port and that unit's control registers alone. -/
theorem exec_atPort {i : Instr} {u : UnitId} (hw : Window.agent i.window = .port u) (s : State) :
    ∃ t, exec i s = .next t ∧ AtPort u s t := by
  cases i with
  | nop v => cases hw; exact ⟨_, rfl, .whenFree (.refl ..)⟩
  | start v => cases hw; exact ⟨_, rfl, .whenFree (.setCtl ..)⟩
  | clear v => cases hw; exact ⟨_, rfl, .whenFree (.setCtl ..)⟩
  | cmdReserved v b => cases hw; exact ⟨_, rfl, .whenFree (.refl ..)⟩
  | stIdle v => cases hw; exact ⟨_, rfl, .setPort ..⟩
  | stBusy v => cases hw; exact ⟨_, rfl, .setPort ..⟩
  | stDone v => cases hw; exact ⟨_, rfl, .setPort ..⟩
  | stError v => cases hw; exact ⟨_, rfl, .setPort ..⟩
  | errNone v => cases hw; exact ⟨_, rfl, .returnErr ..⟩
  | hdrShort => cases hw; exact ⟨_, rfl, .returnErr ..⟩
  | padRange => cases hw; exact ⟨_, rfl, .returnErr ..⟩
  | treeLen => cases hw; exact ⟨_, rfl, .returnErr ..⟩
  | treeTrunc => cases hw; exact ⟨_, rfl, .returnErr ..⟩
  | treeNodes => cases hw; exact ⟨_, rfl, .returnErr ..⟩
  | treeExcess => cases hw; exact ⟨_, rfl, .returnErr ..⟩
  | dataTrunc => cases hw; exact ⟨_, rfl, .returnErr ..⟩
  | inCap v => cases hw; exact ⟨_, rfl, .returnErr ..⟩
  | outCap v => cases hw; exact ⟨_, rfl, .returnErr ..⟩
  | _ => cases hw

/-- What an instruction can change, by whose step it is. -/
theorem exec_frame {s t : State} {i : Instr} (h : exec i s = .next t) :
    (Window.agent i.window = .unit .enc ∧ ∃ e, t = s.setEnc e ∧ e.ibuf = s.enc.ibuf) ∨
    (Window.agent i.window = .unit .dec ∧
      ∃ d, t = s.setDec d ∧ d.ibuf = s.dec.ibuf ∧ (i ≠ .dInit → s.dec.bitpos ≤ d.bitpos)) ∨
    (∃ u, Window.agent i.window = .port u ∧ AtPort u s t) := by
  rcases hw : Window.agent i.window with _ | u | ⟨_ | _⟩
  · cases hwin : i.window <;> simp [hwin, Window.agent] at hw
  · obtain ⟨t', ht', hport⟩ := exec_atPort hw s
    obtain rfl : t' = t := Host.Outcome.next.inj (ht'.symm.trans h)
    exact .inr (.inr ⟨u, rfl, hport⟩)
  · exact .inl ⟨rfl, exec_setsEnc hw s t h⟩
  · exact .inr (.inl ⟨rfl, exec_setsDec hw s t h⟩)

/-- Settles O52: an instruction changes one unit, or one port and its unit, by whose step it is. -/
theorem unitsAreIndependent : Obligations.UnitsAreIndependent := by
  intro s t i h
  obtain ⟨hw, e, rfl, -⟩ | ⟨hw, d, rfl, -⟩ | ⟨u, hw, c, p, rfl⟩ := exec_frame h
  · refine ⟨fun _ => ⟨rfl, rfl, rfl⟩, ?_, fun _ => ⟨rfl, rfl⟩, ?_⟩
    · rintro (hi | hi | hi | ⟨b, hi⟩) <;> rw [hi] at hw <;> cases hw
    · rintro (hi | hi | hi) <;> rw [hi] at hw <;> cases hw
  · refine ⟨fun hi => ?_, fun _ => ⟨rfl, rfl, rfl⟩, ?_, fun _ => ⟨rfl, rfl⟩⟩
    · rw [hi] at hw
      cases hw
    · rintro (hi | hi | hi) <;> rw [hi] at hw <;> cases hw
  · refine ⟨fun hi => ?_, ?_, ?_, ?_⟩
    · rw [hi] at hw
      cases hw
    · rintro (hi | hi | hi | ⟨b, hi⟩) <;> rw [hi] at hw <;> cases hw
    · rintro (hi | hi | hi) <;> rw [hi] at hw <;> cases hw <;> exact ⟨rfl, rfl⟩
    · rintro (hi | hi | hi) <;> rw [hi] at hw <;> cases hw <;> exact ⟨rfl, rfl⟩

/-- Settles O53: the frames of ENC's, DEC's and the ports' instructions, one after the other. -/
theorem instructionsLeaveTheInput : Obligations.InstructionsLeaveTheInput := by
  intro s t i h
  obtain ⟨hw, e, rfl, hibuf⟩ | ⟨hw, d, rfl, hibuf, hpos⟩ | ⟨u, hw, c, p, rfl⟩ := exec_frame h
  · refine ⟨hibuf, rfl, rfl, rfl, rfl, rfl, rfl, ?_, fun _ => le_rfl⟩
    rintro ⟨u, hi | hi | hi⟩ <;> rw [hi] at hw <;> cases hw
  · refine ⟨rfl, hibuf, rfl, rfl, rfl, rfl, rfl, ?_, hpos⟩
    rintro ⟨u, hi | hi | hi⟩ <;> rw [hi] at hw <;> cases hw
  · cases u <;> exact ⟨rfl, rfl, rfl, rfl, rfl, rfl, rfl, fun _ => ⟨rfl, rfl⟩, fun _ => le_rfl⟩

end Sys2Proof.Machine

namespace Sys2Proof.Machine

/-! ## The parts of the invariant -/

/-! ### The control registers -/

/-- No run, or a run at its INIT micro-operation: the working registers are free. -/
def Ctl.Quiet (c : Ctl) : Prop := c.state = .busy → c.phase = phInit

/-- A run past its INIT micro-operation: no result and no fault yet (rules R25, R26). -/
structure Ctl.Running (c : Ctl) : Prop where
  busy : c.state = .busy
  noFault : c.errCode = .none
  noResult : c.outLen = 0

theorem legalPhase_idle (u : UnitId) : legalPhase u phIdle = true := by cases u <;> rfl

theorem legalPhase_init (u : UnitId) : legalPhase u phInit = true := by cases u <;> rfl

theorem Ctl.Running.goto {c : Ctl} (h : c.Running) (p : BitVec 4) : (gotoPhase p c).Running := ⟨h.busy, h.noFault, h.noResult⟩

theorem CtlOk.isRunning {u : UnitId} {c : Ctl} (h : CtlOk u c) (hb : c.state = .busy) (hp : c.phase ≠ phInit) : c.Running :=
  ⟨hb, (h.running hb hp).1, (h.running hb hp).2⟩

theorem Ctl.Running.ctlOk {u : UnitId} {c : Ctl} (h : c.Running) (hl : legalPhase u c.phase = true) (hi : c.phase ≠ phIdle) : CtlOk u c where
  legal := hl
  idle_iff := iff_of_false hi fun hn => hn h.busy
  error_iff hn := absurd h.busy hn
  running _ _ := ⟨h.noFault, h.noResult⟩
  noResult _ := h.noResult
  cause _ := .inl h.noFault

/-- Taking a fault (rules R290, R297). -/
theorem ctlOk_raiseFault {u : UnitId} {k : ErrCode} (hk : k ≠ .none) (hu : u = .enc → k = .inCap ∨ k = .outCap) (c : Ctl) :
    CtlOk u (raiseFault k c) where
  legal := legalPhase_idle u
  idle_iff := iff_of_true rfl nofun
  error_iff _ := iff_of_false hk fun hn => hn rfl
  running := nofun
  noResult _ := rfl
  cause h := .inr (hu h)

/-- The end of a run (rules R209, R210, R229). -/
theorem ctlOk_endRun {u : UnitId} {c : Ctl} (h : c.errCode = .none) (n : BitVec 64) : CtlOk u (endRun n c) where
  legal := legalPhase_idle u
  idle_iff := iff_of_true rfl nofun
  error_iff _ := iff_of_true h nofun
  running := nofun
  noResult := by rintro (h | h) <;> cases h
  cause _ := .inl h

theorem CtlOk.phase_eq_idle {u : UnitId} {c : Ctl} (h : CtlOk u c) (hn : c.state ≠ .busy) : c.phase = phIdle := h.idle_iff.2 hn

theorem CtlOk.clearOutcome {u : UnitId} {c : Ctl} (h : CtlOk u c) (hn : c.state ≠ .busy) : CtlOk u (clearOutcome c) where
  legal := h.legal
  idle_iff := iff_of_true (h.phase_eq_idle hn) nofun
  error_iff _ := iff_of_true rfl nofun
  running := nofun
  noResult _ := rfl
  cause _ := .inl rfl

theorem CtlOk.beginRun {u : UnitId} {c : Ctl} (h : CtlOk u c) : CtlOk u (beginRun c) where
  legal := legalPhase_init u
  idle_iff := iff_of_false (by simp [phInit, phIdle]) fun hn => hn rfl
  error_iff hn := absurd rfl hn
  running _ hp := absurd rfl hp
  noResult := by rintro (h | h) <;> cases h
  cause := h.cause

theorem CtlOk.setInLen {u : UnitId} {c : Ctl} (h : CtlOk u c) (v : BitVec 64) : CtlOk u { c with inLen := v } :=
  ⟨h.legal, h.idle_iff, h.error_iff, h.running, h.noResult, h.cause⟩

theorem ctlOk_reset (u : UnitId) : CtlOk u Ctl.reset where
  legal := legalPhase_idle u
  idle_iff := iff_of_true rfl nofun
  error_iff _ := iff_of_true rfl nofun
  running := nofun
  noResult _ := rfl
  cause _ := .inl rfl

/-! ### The configuration (rule R7) -/

/-- A header fits ENC.OBUF. -/
theorem encOutCap_ge {cfg : Config} (h : cfg.wf) : 13 ≤ cfg.encOutCap := by
  obtain ⟨-, hout, -⟩ := h
  omega

/-- A header fits DEC.IBUF. -/
theorem decInCap_ge {cfg : Config} (h : cfg.wf) : 13 ≤ cfg.decInCap := by
  obtain ⟨-, -, hin, -⟩ := h
  exact hin

/-! ### The buffers -/

theorem BufOk.write_obuf {cfg : Config} {u : UnitId} {ibuf obuf : Memory} (h : BufOk cfg u ibuf obuf) {k : Nat}
    (hk : k < outCapOf cfg u) (v : Byte) : BufOk cfg u ibuf (Memory.write obuf k v) where
  ibuf_wf := h.ibuf_wf
  obuf_wf := Memory.write_wf h.obuf_wf k v
  ibuf_in := h.ibuf_in
  obuf_in c hc := by
    rcases Memory.mem_write hc with rfl | hc
    · exact hk
    · exact h.obuf_in c hc

theorem BufOk.writeBytes_obuf {cfg : Config} {u : UnitId} {ibuf obuf : Memory} (h : BufOk cfg u ibuf obuf) {k : Nat} {bs : List Byte}
    (hk : k + bs.length ≤ outCapOf cfg u) : BufOk cfg u ibuf (Memory.writeBytes obuf k bs) where
  ibuf_wf := h.ibuf_wf
  obuf_wf := Memory.writeBytes_wf h.obuf_wf k bs
  ibuf_in := h.ibuf_in
  obuf_in c hc := by
    rcases Memory.mem_writeBytes hc with hc | hc
    · omega
    · exact h.obuf_in c hc

theorem BufOk.write_ibuf {cfg : Config} {u : UnitId} {ibuf obuf : Memory} (h : BufOk cfg u ibuf obuf) {k : Nat}
    (hk : k < inCapOf cfg u) (v : Byte) : BufOk cfg u (Memory.write ibuf k v) obuf where
  ibuf_wf := Memory.write_wf h.ibuf_wf k v
  obuf_wf := h.obuf_wf
  ibuf_in c hc := by
    rcases Memory.mem_write hc with rfl | hc
    · exact hk
    · exact h.ibuf_in c hc
  obuf_in := h.obuf_in

theorem bufOk_empty (cfg : Config) (u : UnitId) : BufOk cfg u [] [] := ⟨.nil, .nil, nofun, nofun⟩

/-- Bytes stored from `lo` up to an address, and one more there, are stored up to the next address. -/
theorem stored_write {m : Memory} {lo k : Nat} (h : ∀ a, lo ≤ a → a < k → (Memory.read m a).isSome = true) (v : Byte) :
    ∀ a, lo ≤ a → a < k + 1 → (Memory.read (Memory.write m k v) a).isSome = true := by
  intro a hlo ha
  rw [Memory.read_write]
  split
  · rfl
  · exact h a hlo (by omega)

/-- A byte string stored from address 0 on. -/
theorem stored_writeBytes (m : Memory) {bs : List Byte} {a : Nat} (ha : a < bs.length) :
    (Memory.read (Memory.writeBytes m 0 bs) a).isSome = true := by
  rw [Memory.read_writeBytes, if_pos (by omega)]
  simpa using ha

/-! ### 64-bit counters -/

theorem toNat_succ_of_lt {a n : BitVec 64} (h : a.toNat < n.toNat) : (a + 1).toNat = a.toNat + 1 := by
  bv_omega

theorem succ_lt_of_ne {a n : BitVec 64} (h : a.toNat < n.toNat) (hne : a + 1 ≠ n) : (a + 1).toNat < n.toNat := by
  bv_omega

/-! ### ENC's arena -/

theorem ArenaOk.setLeaf {nodes : Vector EncNode 511} (h : ArenaOk nodes) (g : Handle) (sym : Byte) (f : BitVec 64) :
    ArenaOk (nodes.set g.val (.leaf sym f) g.isLt) := by
  intro k f' l r e
  by_cases hk : k = g
  · subst hk
    rw [encNode_set_same] at e
    cases e
  · rw [encNode_set_other _ _ _ _ hk] at e
    exact h k f' l r e

theorem ArenaOk.setInternal {nodes : Vector EncNode 511} (h : ArenaOk nodes) {g a b : Handle} (ha : a < g) (hb : b < g) (f : BitVec 64) :
    ArenaOk (nodes.set g.val (.internal f a b) g.isLt) := by
  intro k f' l r e
  by_cases hk : k = g
  · subst hk
    rw [encNode_set_same] at e
    cases e
    exact ⟨ha, hb⟩
  · rw [encNode_set_other _ _ _ _ hk] at e
    exact h k f' l r e

theorem arenaOk_replicate_leaf (sym : Byte) (f : BitVec 64) : ArenaOk (Vector.replicate 511 (.leaf sym f)) := by
  intro k f' l r e
  simp [encNode] at e

/-! ## ENC -/

/-- Between runs and at E_INIT nothing is asked of the working registers but the arena. -/
theorem EncOk.of_quiet {cfg : Config} {e : Enc} (hctl : CtlOk .enc e.ctl) (hbuf : BufOk cfg .enc e.ibuf e.obuf)
    (hres : ResultOk cfg .enc e.ctl e.obuf) (harena : ArenaOk e.node) (hq : e.ctl.Quiet) : EncOk cfg e := by
  have notAt : ∀ {p}, p ≠ phInit → ¬ e.at p := fun hp hat => hp (hat.2.symm.trans (hq hat.1))
  exact {
    ctl := hctl
    buf := hbuf
    result := hres
    arena := harena
    fits := fun hb hp => absurd (hq hb) hp
    nonempty := fun hb hp => absurd (hq hb) hp
    count := fun hat => absurd hat (notAt (by decide))
    leaves := fun hat => absurd hat (notAt (by decide))
    merge := fun hat => absurd hat (notAt (by decide))
    data := fun hat => absurd hat (notAt (by decide))
    stored := fun hb hp => absurd (hq hb) hp }

/-- A fault of ENC (rules R290, R297). -/
theorem encOk_raise {cfg : Config} {e : Enc} {k : ErrCode} (hk : k = .inCap ∨ k = .outCap) (hbuf : BufOk cfg .enc e.ibuf e.obuf)
    (harena : ArenaOk e.node) : EncOk cfg (settleEnc (.raise k e)) :=
  .of_quiet (ctlOk_raiseFault (by rcases hk with rfl | rfl <;> decide) (fun _ => hk) _) hbuf nofun harena nofun

/-- The end of a run of ENC (rules R209, R210). -/
theorem encOk_endRun {cfg : Config} {e : Enc} {n : BitVec 64} (he : e.ctl.errCode = .none) (hbuf : BufOk cfg .enc e.ibuf e.obuf)
    (harena : ArenaOk e.node) (hn : n.toNat ≤ cfg.encOutCap) (hstored : ∀ a, a < n.toNat → (Memory.read e.obuf a).isSome = true) :
    EncOk cfg { e with ctl := endRun n e.ctl } :=
  .of_quiet (ctlOk_endRun he n) hbuf (fun _ => ⟨hn, hstored⟩) harena nofun

/-- What holds of ENC in every phase from E_COUNT to E_HEADER. -/
structure EncRun (cfg : Config) (e : Enc) : Prop where
  ctl : e.ctl.Running
  buf : BufOk cfg .enc e.ibuf e.obuf
  arena : ArenaOk e.node
  fits : e.ctl.inLen.toNat ≤ cfg.encInCap
  nonempty : 0 < e.ctl.inLen.toNat
  wr_ge : 13 ≤ e.wr.toNat
  wr_le : e.wr.toNat ≤ cfg.encOutCap
  stored : ∀ a, 13 ≤ a → a < e.wr.toNat → (Memory.read e.obuf a).isSome = true

/-- The queue holds handles in use, none twice, and the arena has room for the merges to come (rules R32, R144). -/
structure QueueOk (e : Enc) : Prop where
  sorted : e.pq.Pairwise (· < ·)
  inUse : ∀ h ∈ e.pq, h.val < e.nnode.val
  room : e.nnode.val + e.pq.length ≤ 512

/-- What a phase asks of the registers beside `EncRun`. -/
structure EncNeeds (p : BitVec 4) (e : Enc) : Prop where
  count : p = phECount → e.rd.toNat < e.ctl.inLen.toNat ∧ e.nnode.val = 0 ∧ e.pq = []
  leaves : p = phELeaves → e.nnode.val = 0 ∧ e.pq = []
  merge : p = phEMerge → QueueOk e
  data : p = phEData → e.rd.toNat < e.ctl.inLen.toNat

theorem EncRun.encOk {cfg : Config} {e : Enc} {p : BitVec 4} (h : EncRun cfg e) (hp : e.ctl.phase = p) (hr : 2 ≤ p.toNat ∧ p.toNat ≤ 10)
    (hn : EncNeeds p e) : EncOk cfg e := by
  subst hp
  exact {
    ctl := h.ctl.ctlOk (by simp [legalPhase]; omega) (fun hi => by simp [hi, phIdle] at hr)
    buf := h.buf
    result := fun hd => absurd (h.ctl.busy.symm.trans hd) (by decide)
    arena := h.arena
    fits := fun _ _ => h.fits
    nonempty := fun _ _ _ => h.nonempty
    count := fun hat => hn.count hat.2
    leaves := fun hat => hn.leaves hat.2
    merge := fun hat => ⟨(hn.merge hat.2).sorted, (hn.merge hat.2).inUse, (hn.merge hat.2).room⟩
    data := fun hat => hn.data hat.2
    stored := fun _ _ _ => ⟨h.wr_ge, h.wr_le, h.stored⟩ }

theorem EncOk.run {cfg : Config} {e : Enc} {p : BitVec 4} (h : EncOk cfg e) (hat : e.at p) (hi : p ≠ phInit) (he : p ≠ phEEmpty) :
    EncRun cfg e := by
  obtain ⟨hb, rfl⟩ := hat
  obtain ⟨hge, hle, hst⟩ := h.stored hb hi he
  exact ⟨h.ctl.isRunning hb hi, h.buf, h.arena, h.fits hb hi, h.nonempty hb hi he, hge, hle, hst⟩

theorem EncRun.goto {cfg : Config} {e : Enc} (h : EncRun cfg e) (p : BitVec 4) : EncRun cfg { e with ctl := gotoPhase p e.ctl } :=
  { h with ctl := h.ctl.goto p }

theorem EncRun.raise {cfg : Config} {e : Enc} (h : EncRun cfg e) : EncOk cfg (settleEnc (.raise .outCap e)) :=
  encOk_raise (.inr rfl) h.buf h.arena

/-! ### The packer -/

/-- A byte stored at WR (rules R63, R183). -/
theorem EncRun.store {cfg : Config} {e : Enc} (h : EncRun cfg e) (hwide : cfg.encOutCap < 2 ^ 64) (hroom : e.wr.toNat < cfg.encOutCap)
    (v : Byte) : EncRun cfg { e with obuf := Memory.write e.obuf e.wr.toNat v, wr := e.wr + 1 } := by
  have hwr : (e.wr + 1).toNat = e.wr.toNat + 1 := toNat_succ_of_lt (n := BitVec.ofNat 64 cfg.encOutCap) (by simp; omega)
  have hge := h.wr_ge
  exact { h with
    buf := h.buf.write_obuf hroom v
    wr_ge := by simp only [hwr]; omega
    wr_le := by simp only [hwr]; omega
    stored := by simpa only [hwr] using stored_write h.stored v }

theorem putBits_run {cfg : Config} (hwide : cfg.encOutCap < 2 ^ 64) {e : Enc} (h : EncRun cfg e) (w : Bits) :
    (putBits cfg w e).Ends (EncRun cfg) := by
  induction w generalizing e with
  | nil => exact h
  | cons b bs ih =>
    refine Micro.Ends.bind ?_ fun _ e' h' => ih h'
    rcases putBit_cases cfg b e with ⟨_, eq⟩ | ⟨_, hroom, eq⟩ | ⟨_, _, eq⟩ <;> rw [eq]
    · exact { h with }
    · exact { h.store hwide hroom _ with }
    · exact ⟨by decide, { h with }⟩

/-- What a sequence of `PutBit`s leaves: ENC in the middle of the same phase with the same RD, or a fault (rules R182, R289). -/
theorem putBits_run_cases {cfg : Config} (hwide : cfg.encOutCap < 2 ^ 64) {e : Enc} (h : EncRun cfg e) (w : Bits) :
    (∃ e', putBits cfg w e = .ok () e' ∧ EncRun cfg e' ∧ e'.ctl = e.ctl ∧ e'.rd = e.rd) ∨
    (∃ e', putBits cfg w e = .raise .outCap e' ∧ EncRun cfg e') := by
  have hrun := putBits_run hwide h w
  rcases putBits_frame cfg w e with ⟨_, _, _, _, _, eq⟩ | ⟨_, _, _, _, _, eq⟩ <;> rw [eq] at hrun
  · exact .inl ⟨_, eq, hrun, rfl, rfl⟩
  · exact .inr ⟨_, eq, hrun.2⟩

/-! ### The sequencer -/

/-- E_EMPTY asks nothing of the packer (rule R210). -/
theorem encOk_empty {cfg : Config} {e : Enc} (hctl : e.ctl.Running) (hp : e.ctl.phase = phEEmpty) (hbuf : BufOk cfg .enc e.ibuf e.obuf)
    (harena : ArenaOk e.node) (hfits : e.ctl.inLen.toNat ≤ cfg.encInCap) : EncOk cfg e := by
  have notAt : ∀ {p}, p ≠ phEEmpty → ¬ e.at p := fun hne hat => hne (hat.2.symm.trans hp)
  exact {
    ctl := hctl.ctlOk (by rw [hp]; decide) (by rw [hp]; decide)
    buf := hbuf
    result := fun hd => absurd (hctl.busy.symm.trans hd) (by decide)
    arena := harena
    fits := fun _ _ => hfits
    nonempty := fun _ _ hne => absurd hp hne
    count := fun hat => absurd hat (notAt (by decide))
    leaves := fun hat => absurd hat (notAt (by decide))
    merge := fun hat => absurd hat (notAt (by decide))
    data := fun hat => absurd hat (notAt (by decide))
    stored := fun _ _ hne => absurd hp hne }

theorem encInit_ok {cfg : Config} (hcfg : cfg.wf) {e : Enc} (h : EncOk cfg e) (hat : e.at phInit) :
    EncOk cfg (settleEnc (encInit cfg e)) := by
  simp only [encInit]
  split
  · exact encOk_raise (.inl rfl) h.buf h.arena
  · rename_i hfit
    by_cases hzero : e.ctl.inLen = 0
    · have hphase : (if (initOutcome e.ctl).inLen = 0 then phEEmpty else phECount) = phEEmpty := if_pos hzero
      rw [hphase]
      exact encOk_empty ⟨hat.1, rfl, rfl⟩ rfl h.buf h.arena (Nat.le_of_not_lt hfit)
    · have hphase : (if (initOutcome e.ctl).inLen = 0 then phEEmpty else phECount) = phECount := if_neg hzero
      have hpos : 0 < e.ctl.inLen.toNat := Nat.pos_of_ne_zero fun h0 => hzero (BitVec.eq_of_toNat_eq h0)
      rw [hphase]
      refine EncRun.encOk (p := phECount) ?_ rfl (by decide) ⟨fun _ => ⟨hpos, rfl, rfl⟩, nofun, nofun, nofun⟩
      exact {
        ctl := ⟨hat.1, rfl, rfl⟩
        buf := h.buf
        arena := h.arena
        fits := Nat.le_of_not_lt hfit
        nonempty := hpos
        wr_ge := le_rfl
        wr_le := encOutCap_ge hcfg
        stored := fun a h1 h2 => absurd h2 (Nat.not_lt.2 h1) }

theorem countByte_ok {cfg : Config} {e : Enc} (h : EncOk cfg e) (hat : e.at phECount) : EncOk cfg (countByte e) := by
  have hrun := h.run hat (by decide) (by decide)
  obtain ⟨hrd, hnnode, hpq⟩ := h.count hat
  simp only [countByte]
  split
  · exact EncRun.encOk (p := phELeaves) { hrun.goto phELeaves with } rfl (by decide) ⟨nofun, fun _ => ⟨hnnode, hpq⟩, nofun, nofun⟩
  · rename_i hne
    exact EncRun.encOk (p := phECount) { hrun with } hat.2 (by decide) ⟨fun _ => ⟨succ_lt_of_ne hrd hne, hnnode, hpq⟩, nofun, nofun, nofun⟩

/-! ### The tree builder -/

/-- What E_LEAVES has made after at most `n` symbols: no more than `n` records, and no more handles in the queue than records. -/
structure LeavesMade (n : Nat) (e : Enc) : Prop where
  sorted : e.pq.Pairwise (· < ·)
  inUse : ∀ h ∈ e.pq, h.val < e.nnode.val
  length_le : e.pq.length ≤ e.nnode.val
  nnode_le : e.nnode.val ≤ n

/-- The handle of a new record is not in the queue yet. -/
theorem not_mem_of_inUse {q : List Handle} {n : Fin 512} {g : Handle} (h : ∀ k ∈ q, k.val < n.val) (hg : g.val = n.val) : g ∉ q :=
  fun hm => absurd (h g hm) (by omega)

theorem addLeaf_made {cfg : Config} {n : Nat} {e : Enc} (sym : Byte) (h : EncRun cfg e) (hm : LeavesMade n e) (hn : n < 511) :
    ∃ e', addLeaf sym e = some e' ∧ EncRun cfg e' ∧ LeavesMade (n + 1) e' := by
  have hle := hm.nnode_le
  unfold addLeaf
  split
  · exact ⟨e, rfl, h, { hm with nnode_le := by omega }⟩
  · cases hnext : nextHandle e.nnode with
    | none =>
      have := nextHandle_eq_none.1 hnext
      omega
    | some gm =>
      obtain ⟨g, m⟩ := gm
      obtain ⟨hg, hmval, -⟩ := nextHandle_eq_some hnext
      have hnew := not_mem_of_inUse hm.inUse hg
      refine ⟨_, rfl, { h with arena := h.arena.setLeaf g sym _ }, queueInsert_sorted hm.sorted, ?_, ?_, ?_⟩
      · intro k hk
        rcases mem_queueInsert.1 hk with rfl | hk
        · simp only; omega
        · have := hm.inUse k hk
          simp only; omega
      · have := hm.length_le
        simp only [length_queueInsert hnew]; omega
      · simp only; omega

theorem addLeaves_made {cfg : Config} {n : Nat} {e : Enc} (syms : List Byte) (h : EncRun cfg e) (hm : LeavesMade n e)
    (hn : n + syms.length ≤ 511) : ∃ e', addLeaves syms e = some e' ∧ EncRun cfg e' ∧ LeavesMade (n + syms.length) e' := by
  induction syms generalizing n e with
  | nil => exact ⟨e, rfl, h, hm⟩
  | cons sym syms ih =>
    simp only [List.length_cons] at hn ⊢
    obtain ⟨e1, eq1, h1, hm1⟩ := addLeaf_made sym h hm (by omega)
    obtain ⟨e2, eq2, h2, hm2⟩ := ih h1 hm1 (by omega)
    refine ⟨e2, ?_, h2, ?_⟩
    · simp only [addLeaves, eq1, eq2]
    · rwa [Nat.add_assoc, Nat.add_comm 1] at hm2

theorem allSymbols_length : allSymbols.length = 256 := by simp [allSymbols]

theorem addLeaves_ok {cfg : Config} {e : Enc} (h : EncOk cfg e) (hat : e.at phELeaves) :
    ∃ e', addLeaves allSymbols e = some e' ∧ EncOk cfg { e' with ctl := gotoPhase phEMerge e'.ctl } := by
  obtain ⟨hnnode, hpq⟩ := h.leaves hat
  have hnone : LeavesMade 0 e := ⟨by simp [hpq], by simp [hpq], by simp [hpq], by omega⟩
  obtain ⟨e', eq, hrun, hm⟩ := addLeaves_made allSymbols (h.run hat (by decide) (by decide)) hnone (by rw [allSymbols_length]; decide)
  rw [allSymbols_length] at hm
  have hlen := hm.length_le
  have hle := hm.nnode_le
  have hqueue : QueueOk { e' with ctl := gotoPhase phEMerge e'.ctl } := ⟨hm.sorted, hm.inUse, by simp only; omega⟩
  exact ⟨e', eq, (hrun.goto phEMerge).encOk (p := phEMerge) rfl (by decide) ⟨nofun, nofun, fun _ => hqueue, nofun⟩⟩

/-- After one extraction the queue is a part of the queue before, one handle shorter. -/
theorem extractMin_sublist {cfg : Config} {nodes : Vector EncNode 511} {q q' : List Handle} {a : Handle}
    (h : extractMin cfg nodes q = some (a, q')) : a ∈ q ∧ q'.Sublist q ∧ q'.length + 1 = q.length := by
  obtain ⟨ha, rfl⟩ := extractMin_eq_some h
  have := List.length_pos_of_mem ha
  exact ⟨ha, List.erase_sublist, by rw [List.length_erase_of_mem ha]; omega⟩

/-- Two extracted handles become the children of a new record (rule R143), for which there is room (rule R144). -/
theorem mergeStep_ok {cfg : Config} {e : Enc} (h : EncOk cfg e) (hat : e.at phEMerge) :
    ∃ e', mergeStep cfg e = some e' ∧ EncOk cfg e' := by
  have hrun := h.run hat (by decide) (by decide)
  have hpass : EncOk cfg { e with ctl := gotoPhase phERoot e.ctl } :=
    (hrun.goto phERoot).encOk (p := phERoot) rfl (by decide) ⟨nofun, nofun, nofun, nofun⟩
  obtain ⟨hsorted, hinUse, hroom⟩ := h.merge hat
  simp only [mergeStep]
  cases h1 : extractMin cfg e.node e.pq with
  | none => exact ⟨_, rfl, hpass⟩
  | some aq =>
    obtain ⟨a, q⟩ := aq
    obtain ⟨ha, hsub1, hlen1⟩ := extractMin_sublist h1
    dsimp only
    cases h2 : extractMin cfg e.node q with
    | none => exact ⟨_, rfl, hpass⟩
    | some bq =>
      obtain ⟨b, q'⟩ := bq
      obtain ⟨hb, hsub2, hlen2⟩ := extractMin_sublist h2
      have hsub := hsub2.trans hsub1
      dsimp only
      cases hnext : nextHandle e.nnode with
      | none =>
        have := nextHandle_eq_none.1 hnext
        omega
      | some gm =>
        obtain ⟨g, m⟩ := gm
        obtain ⟨hg, hm, -⟩ := nextHandle_eq_some hnext
        have hinUse' : ∀ k ∈ q', k.val < e.nnode.val := fun k hk => hinUse k (hsub.subset hk)
        have hag : a < g := Fin.lt_def.2 (hg ▸ hinUse a ha)
        have hbg : b < g := Fin.lt_def.2 (hg ▸ hinUse b (hsub1.subset hb))
        refine ⟨_, rfl, EncRun.encOk (p := phEMerge) { hrun with arena := hrun.arena.setInternal hag hbg _ } hat.2 (by decide)
          ⟨nofun, nofun, fun _ => ⟨queueInsert_sorted (hsorted.sublist hsub), ?_, ?_⟩, nofun⟩⟩
        · intro k hk
          rcases mem_queueInsert.1 hk with rfl | hk
          · simp only; omega
          · have := hinUse' k hk
            simp only; omega
        · simp only [length_queueInsert (not_mem_of_inUse hinUse' hg)]
          omega

theorem takeRoot_ok {cfg : Config} {e : Enc} (h : EncOk cfg e) (hat : e.at phERoot) : EncOk cfg (takeRoot cfg e) := by
  have hrun := (h.run hat (by decide) (by decide)).goto phECodegen
  unfold takeRoot
  split <;> exact EncRun.encOk (p := phECodegen) { hrun with } rfl (by decide) ⟨nofun, nofun, nofun, nofun⟩

/-! ### The traversals end -/

/-- `Assign` ends in an arena whose children are below their parents (rule R31). -/
theorem assignCodes_ends {nodes : Vector EncNode 511} (ha : ArenaOk nodes) {k : Nat} {g : Handle} (hk : g.val < k) (p : Bits)
    (code : Vector Bits 256) : ∃ code', assignCodes nodes k g p code = some code' := by
  induction k generalizing g p code with
  | zero => omega
  | succ k ih =>
    unfold assignCodes
    cases hg : encNode nodes g with
    | leaf sym f => exact ⟨_, rfl⟩
    | internal f l r =>
      obtain ⟨hl, hr⟩ : l.val < g.val ∧ r.val < g.val := ha g f l r hg
      obtain ⟨code1, e1⟩ := ih (g := l) (by omega) (p ++ [false]) code
      obtain ⟨code2, e2⟩ := ih (g := r) (by omega) (p ++ [true]) code1
      exact ⟨code2, by simp only [e1, e2]⟩

/-- `Ser` ends likewise (rules R31, R161). -/
theorem ser_ends {nodes : Vector EncNode 511} (ha : ArenaOk nodes) {k : Nat} {g : Handle} (hk : g.val < k) :
    ∃ w, ser nodes k g = some w := by
  induction k generalizing g with
  | zero => omega
  | succ k ih =>
    unfold ser
    cases hg : encNode nodes g with
    | leaf sym f => exact ⟨_, rfl⟩
    | internal f l r =>
      obtain ⟨hl, hr⟩ : l.val < g.val ∧ r.val < g.val := ha g f l r hg
      obtain ⟨w1, e1⟩ := ih (g := l) (by omega)
      obtain ⟨w2, e2⟩ := ih (g := r) (by omega)
      exact ⟨encode .tInternal ++ (w1 ++ w2), by simp only [e1, e2]⟩

theorem codegen_ok {cfg : Config} {e : Enc} (h : EncOk cfg e) (hat : e.at phECodegen) :
    ∃ code, codegen e = some code ∧ EncOk cfg { e with code := code, ctl := gotoPhase phETree e.ctl } := by
  have hrun := (h.run hat (by decide) (by decide)).goto phETree
  have hcode : ∃ code, codegen e = some code := by
    unfold codegen
    split
    · exact ⟨_, rfl⟩
    · exact assignCodes_ends h.arena e.root.isLt [] e.code
  obtain ⟨code, eq⟩ := hcode
  exact ⟨code, eq, EncRun.encOk (p := phETree) { hrun with } rfl (by decide) ⟨nofun, nofun, nofun, nofun⟩⟩

/-! ### The packer's phases -/

theorem emitTree_ok {cfg : Config} (hwide : cfg.encOutCap < 2 ^ 64) {e : Enc} (h : EncOk cfg e) (hat : e.at phETree) (w : Bits) :
    EncOk cfg (settleEnc (emitTree cfg w e)) := by
  unfold emitTree
  rcases putBits_run_cases hwide (h.run hat (by decide) (by decide)) w with ⟨e', eq, hrun, _, _⟩ | ⟨e', eq, hrun⟩ <;> rw [eq]
  · exact EncRun.encOk (p := phEData) { hrun.goto phEData with } rfl (by decide) ⟨nofun, nofun, nofun, fun _ => hrun.nonempty⟩
  · exact hrun.raise

theorem encodeByte_ok {cfg : Config} (hwide : cfg.encOutCap < 2 ^ 64) {e : Enc} (h : EncOk cfg e) (hat : e.at phEData) :
    EncOk cfg (settleEnc (encodeByte cfg e)) := by
  have hdata := h.data hat
  unfold encodeByte
  rcases putBits_run_cases hwide (h.run hat (by decide) (by decide)) (codeOf e (cellByte .enc e.epoch e.ibuf e.rd.toNat)) with
    ⟨e', eq, hrun, hctl, hrd⟩ | ⟨e', eq, hrun⟩ <;> rw [eq]
  · rw [← hctl, ← hrd] at hdata
    simp only [Micro.bind_ok, settleEnc_ok]
    split
    · exact EncRun.encOk (p := phEFlush) { hrun.goto phEFlush with } rfl (by decide) ⟨nofun, nofun, nofun, nofun⟩
    · rename_i hne
      exact EncRun.encOk (p := phEData) { hrun with } (hctl ▸ hat.2) (by decide)
        ⟨nofun, nofun, nofun, fun _ => succ_lt_of_ne hdata hne⟩
  · exact hrun.raise

theorem flush_ok {cfg : Config} (hwide : cfg.encOutCap < 2 ^ 64) {e : Enc} (h : EncOk cfg e) (hat : e.at phEFlush) :
    EncOk cfg (settleEnc (flush cfg e)) := by
  have hrun := h.run hat (by decide) (by decide)
  simp only [flush]
  split
  · exact EncRun.encOk (p := phEHeader) { hrun.goto phEHeader with } rfl (by decide) ⟨nofun, nofun, nofun, nofun⟩
  · split
    · exact encOk_raise (.inr rfl) hrun.buf hrun.arena
    · rename_i hroom
      exact EncRun.encOk (p := phEHeader) { (hrun.store hwide (by omega) e.acc).goto phEHeader with } rfl (by decide)
        ⟨nofun, nofun, nofun, nofun⟩

/-! ### The end of a run -/

theorem beBytes_length (n v : Nat) : (beBytes n v).length = n := by
  induction n with
  | zero => rfl
  | succ n ih => simp [beBytes, ih]

theorem headerBytes_length (o : BitVec 64) (t : BitVec 32) (p : Byte) : (headerBytes o t p).length = 13 := by
  simp [headerBytes, beBytes_length]

theorem storeHeader_ok {cfg : Config} (hcap : 13 ≤ cfg.encOutCap) {e : Enc} (h : EncOk cfg e) (hat : e.at phEHeader) :
    EncOk cfg (storeHeader e) := by
  have hrun := h.run hat (by decide) (by decide)
  have hlen := headerBytes_length e.origSize e.treeBits e.padBits
  refine encOk_endRun (e := { e with obuf := Memory.writeBytes e.obuf 0 (headerBytes e.origSize e.treeBits e.padBits) })
    hrun.ctl.noFault (hrun.buf.writeBytes_obuf (by rw [hlen]; exact hcap)) hrun.arena hrun.wr_le fun a ha => ?_
  by_cases h13 : a < 13
  · exact stored_writeBytes _ (by omega)
  · rw [Memory.read_writeBytes, if_neg (by omega)]
    exact hrun.stored a (by omega) ha

theorem storeEmpty_ok {cfg : Config} (hcap : 13 ≤ cfg.encOutCap) {e : Enc} (h : EncOk cfg e) (hat : e.at phEEmpty) :
    EncOk cfg (storeEmpty e) := by
  have hctl := h.ctl.isRunning hat.1 (by rw [hat.2]; decide)
  exact encOk_endRun
    (e := { e with origSize := 0, treeBits := 0, padBits := 0, obuf := Memory.writeBytes e.obuf 0 (List.replicate 13 0) })
    hctl.noFault (h.buf.writeBytes_obuf hcap) h.arena hcap fun a ha => stored_writeBytes _ ha

/-! ### The micro-operation PHASE selects -/

/-- The phases in which ENC is BUSY (rules R27, R28). -/
theorem encPhase_of_busy {c : Ctl} (h : CtlOk .enc c) (hb : c.state = .busy) :
    c.phase = phInit ∨ c.phase = phECount ∨ c.phase = phELeaves ∨ c.phase = phEMerge ∨ c.phase = phERoot ∨ c.phase = phECodegen ∨
    c.phase = phETree ∨ c.phase = phEData ∨ c.phase = phEFlush ∨ c.phase = phEHeader ∨ c.phase = phEEmpty := by
  have hall : ∀ p : BitVec 4, legalPhase .enc p = true → p ≠ phIdle → p = phInit ∨ p = phECount ∨ p = phELeaves ∨ p = phEMerge ∨
      p = phERoot ∨ p = phECodegen ∨ p = phETree ∨ p = phEData ∨ p = phEFlush ∨ p = phEHeader ∨ p = phEEmpty := by decide
  exact hall c.phase h.legal fun hi => h.idle_iff.1 hi hb

/-- A BUSY ENC completes the micro-operation its PHASE selects, and is in order after it. -/
theorem enc_stepOk {s : State} (hcfg : s.cfg.wf) (hwide : s.cfg.encOutCap < 2 ^ 64) (h : EncOk s.cfg s.enc)
    (hb : s.enc.ctl.state = .busy) :
    ∃ i, decode (.phase .enc) (natBits 4 s.enc.ctl.phase.toNat) = .ok (i, []) ∧
      ∃ e, exec i s = .next (s.setEnc e) ∧ EncOk s.cfg e := by
  have hcap := encOutCap_ge hcfg
  have hcell : ∀ {n : Nat}, n < s.enc.ctl.inLen.toNat → s.enc.ctl.phase ≠ phInit → n < s.cfg.encInCap :=
    fun hn hp => hn.trans_le (h.fits hb hp)
  rcases encPhase_of_busy h.ctl hb with hp | hp | hp | hp | hp | hp | hp | hp | hp | hp | hp <;>
    have hat := And.intro hb hp <;> rw [hp]
  · exact ⟨.eInit, rfl, _, rfl, encInit_ok hcfg h hat⟩
  · exact ⟨.eCount, rfl, _, if_pos (hcell (h.count hat).1 (by rw [hp]; decide)), countByte_ok h hat⟩
  · obtain ⟨e, eq, hok⟩ := addLeaves_ok h hat
    exact ⟨.eLeaves, rfl, _, by simp only [exec, execELeaves, eq], hok⟩
  · obtain ⟨e, eq, hok⟩ := mergeStep_ok h hat
    exact ⟨.eMerge, rfl, _, by simp only [exec, execEMerge, eq], hok⟩
  · exact ⟨.eRoot, rfl, _, rfl, takeRoot_ok h hat⟩
  · obtain ⟨code, eq, hok⟩ := codegen_ok h hat
    exact ⟨.eCodegen, rfl, _, by simp only [exec, execECodegen, eq], hok⟩
  · obtain ⟨w, eq⟩ := ser_ends h.arena s.enc.root.isLt
    exact ⟨.eTree, rfl, _, by simp only [exec, execETree, eq], emitTree_ok hwide h hat w⟩
  · exact ⟨.eData, rfl, _, if_pos (hcell (h.data hat) (by rw [hp]; decide)), encodeByte_ok hwide h hat⟩
  · exact ⟨.eFlush, rfl, _, rfl, flush_ok hwide h hat⟩
  · exact ⟨.eHeader, rfl, _, if_pos hcap, storeHeader_ok hcap h hat⟩
  · exact ⟨.eEmpty, rfl, _, if_pos hcap, storeEmpty_ok hcap h hat⟩

end Sys2Proof.Machine

namespace Sys2Proof.Machine

/-! ## DEC -/

/-- Between runs and at D_INIT nothing is asked of the working registers. -/
theorem DecOk.of_quiet {cfg : Config} {d : Dec} (hctl : CtlOk .dec d.ctl) (hbuf : BufOk cfg .dec d.ibuf d.obuf)
    (hres : ResultOk cfg .dec d.ctl d.obuf) (hq : d.ctl.Quiet) : DecOk cfg d := by
  have notAt : ∀ {p}, p ≠ phInit → ¬ d.at p := fun hp hat => hp (hat.2.symm.trans (hq hat.1))
  exact {
    ctl := hctl
    buf := hbuf
    result := hres
    fits := fun hb hp => absurd (hq hb) hp
    fresh := fun hat => absurd hat (not_or.2 ⟨notAt (by decide), notAt (by decide)⟩)
    check := fun hat => absurd hat (notAt (by decide))
    tree := fun hat => absurd hat (notAt (by decide))
    walk := fun hat => absurd hat (notAt (by decide))
    finish := fun hat => absurd hat (notAt (by decide))
    stored := fun hb hp => absurd (hq hb) hp }

/-- A fault of DEC (rule R290). -/
theorem decOk_raise {cfg : Config} {d : Dec} {k : ErrCode} (hk : k ≠ .none) (hbuf : BufOk cfg .dec d.ibuf d.obuf) :
    DecOk cfg (settleDec (.raise k d)) :=
  .of_quiet (ctlOk_raiseFault hk (fun hu => by cases hu) d.ctl) hbuf nofun nofun

/-- What holds of DEC in every phase past D_INIT. -/
structure DecRun (cfg : Config) (d : Dec) : Prop where
  ctl : d.ctl.Running
  buf : BufOk cfg .dec d.ibuf d.obuf
  len_ge : 13 ≤ d.ctl.inLen.toNat
  len_le : d.ctl.inLen.toNat ≤ cfg.decInCap
  stored : ∀ a, a < d.wr.toNat → (Memory.read d.obuf a).isSome = true

/-- DEC before the tree: nothing read, nothing written (rule R221). -/
structure FreshOk (d : Dec) : Prop where
  bitpos : d.bitpos = 0
  wr : d.wr = 0
  nnode : d.nnode.val = 0
  stack : d.stack = []
  inSym : d.inSym = false

/-- DEC in D_TREE: nothing written, the tree window inside the readable bits (rules R164, R224). -/
structure TreeOk (cfg : Config) (d : Dec) : Prop where
  wr : d.wr = 0
  inSym : d.inSym = false
  origSize_ne : d.origSize ≠ 0
  origSize_le : d.origSize.toNat ≤ cfg.decOutCap
  bitpos_le : d.bitpos ≤ d.treeBits.toNat
  treeBits_le : d.treeBits.toNat ≤ d.avail
  avail_le : d.avail ≤ 8 * (d.ctl.inLen.toNat - 13)

/-- DEC in D_WALK: the walk inside the readable bits, the output inside ORIG_SIZE (rules R36, R38, R227). -/
structure WalkOk (cfg : Config) (d : Dec) : Prop where
  wr_lt : d.wr.toNat < d.origSize.toNat
  origSize_le : d.origSize.toNat ≤ cfg.decOutCap
  bitpos_le : d.bitpos ≤ d.avail
  avail_le : d.avail ≤ 8 * (d.ctl.inLen.toNat - 13)
  inside : d.inSym = true → (∃ l r, decNode d.node 0 = .internal l r) ∧ ∃ l r, decNode d.node d.cur = .internal l r

/-- What a phase asks of the registers beside `DecRun`. -/
structure DecNeeds (cfg : Config) (p : BitVec 4) (d : Dec) : Prop where
  header : p = phDHeader → FreshOk d
  check : p = phDCheck → FreshOk d ∧ d.origSize ≠ 0
  tree : p = phDTree → TreeOk cfg d
  walk : p = phDWalk → WalkOk cfg d
  finish : p = phDFinish → d.wr = d.origSize ∧ d.origSize.toNat ≤ cfg.decOutCap

theorem DecRun.decOk {cfg : Config} {d : Dec} {p : BitVec 4} (h : DecRun cfg d) (hp : d.ctl.phase = p) (hr : 2 ≤ p.toNat ∧ p.toNat ≤ 6)
    (hn : DecNeeds cfg p d) : DecOk cfg d := by
  subst hp
  exact {
    ctl := h.ctl.ctlOk (by simp [legalPhase]; omega) (fun hi => by simp [hi, phIdle] at hr)
    buf := h.buf
    result := fun hd => absurd (h.ctl.busy.symm.trans hd) (by decide)
    fits := fun _ _ => ⟨h.len_ge, h.len_le⟩
    fresh := fun hat => by
      have hf : FreshOk d := hat.elim (fun hat => hn.header hat.2) fun hat => (hn.check hat.2).1
      exact ⟨hf.bitpos, hf.wr, hf.nnode, hf.stack, hf.inSym⟩
    check := fun hat => (hn.check hat.2).2
    tree := fun hat => by
      have ht := hn.tree hat.2
      exact ⟨ht.wr, ht.inSym, ht.origSize_ne, ht.origSize_le, ht.bitpos_le, ht.treeBits_le, ht.avail_le⟩
    walk := fun hat => by
      have hw := hn.walk hat.2
      exact ⟨hw.wr_lt, hw.origSize_le, hw.bitpos_le, hw.avail_le, hw.inside⟩
    finish := fun hat => hn.finish hat.2
    stored := fun _ _ => h.stored }

section DecFacts
variable {cfg : Config} {d : Dec} (h : DecOk cfg d)
include h

theorem DecOk.run {p : BitVec 4} (hat : d.at p) (hi : p ≠ phInit) : DecRun cfg d := by
  obtain ⟨hb, rfl⟩ := hat
  obtain ⟨hge, hle⟩ := h.fits hb hi
  exact ⟨h.ctl.isRunning hb hi, h.buf, hge, hle, h.stored hb hi⟩

theorem DecOk.freshOk (hat : d.at phDHeader ∨ d.at phDCheck) : FreshOk d := by
  obtain ⟨h1, h2, h3, h4, h5⟩ := h.fresh hat
  exact ⟨h1, h2, h3, h4, h5⟩

theorem DecOk.treeOk (hat : d.at phDTree) : TreeOk cfg d := by
  obtain ⟨h1, h2, h3, h4, h5, h6, h7⟩ := h.tree hat
  exact ⟨h1, h2, h3, h4, h5, h6, h7⟩

theorem DecOk.walkOk (hat : d.at phDWalk) : WalkOk cfg d := by
  obtain ⟨h1, h2, h3, h4, h5⟩ := h.walk hat
  exact ⟨h1, h2, h3, h4, h5⟩

/-- The tree window lies in DEC.IBUF (rule R64). -/
theorem DecOk.treeFits (hat : d.at phDTree) : windowFits cfg d.treeBits.toNat = true := by
  have hlen := (h.run hat (by decide)).len_le
  have htree := (h.treeOk hat).treeBits_le
  have havail := (h.treeOk hat).avail_le
  simp only [windowFits, decide_eq_true_eq]
  omega

/-- The readable bits lie in DEC.IBUF (rule R64). -/
theorem DecOk.walkFits (hat : d.at phDWalk) : windowFits cfg d.avail = true := by
  have hlen := (h.run hat (by decide)).len_le
  have havail := (h.walkOk hat).avail_le
  simp only [windowFits, decide_eq_true_eq]
  omega

/-- There is a cell for the next byte (rules R38, R224). -/
theorem DecOk.room (hat : d.at phDWalk) : d.wr.toNat < cfg.decOutCap :=
  (h.walkOk hat).wr_lt.trans_le (h.walkOk hat).origSize_le

/-! ### The sequencer -/

theorem decInit_ok (hat : d.at phInit) : DecOk cfg (settleDec (decInit cfg d)) := by
  simp only [decInit]
  split
  · exact decOk_raise (by decide) h.buf
  · rename_i hle
    split
    · exact decOk_raise (by decide) h.buf
    · rename_i hge
      refine DecRun.decOk (p := phDHeader) ?_ rfl (by decide) ⟨fun _ => ⟨rfl, rfl, rfl, rfl, rfl⟩, nofun, nofun, nofun, nofun⟩
      exact ⟨⟨hat.1, rfl, rfl⟩, h.buf, Nat.le_of_not_lt hge, Nat.le_of_not_lt hle, nofun⟩

theorem loadHeader_ok (hat : d.at phDHeader) (o : BitVec 64) (t : BitVec 32) (p : Byte) : DecOk cfg (loadHeader o t p d) := by
  have hrun := h.run hat (by decide)
  have hfresh := h.freshOk (.inl hat)
  unfold loadHeader
  split
  · rename_i ho
    exact DecRun.decOk (p := phDFinish) { hrun with ctl := hrun.ctl.goto _ } rfl (by decide)
      ⟨nofun, nofun, nofun, nofun, fun _ => ⟨hfresh.wr.trans ho.symm, by simp [ho]⟩⟩
  · rename_i ho
    exact DecRun.decOk (p := phDCheck) { hrun with ctl := hrun.ctl.goto _ } rfl (by decide)
      ⟨nofun, fun _ => ⟨{ hfresh with }, ho⟩, nofun, nofun, nofun⟩

theorem readHeader_ok (hat : d.at phDHeader) : DecOk cfg (readHeader d) := loadHeader_ok h hat _ _ _

theorem checkHeader_ok (hat : d.at phDCheck) : DecOk cfg (settleDec (checkHeader cfg d)) := by
  have hrun := h.run hat (by decide)
  have hfresh := h.freshOk (.inr hat)
  simp only [checkHeader]
  split
  · exact decOk_raise (by decide) h.buf
  · split
    · exact decOk_raise (by decide) h.buf
    · rename_i hbits
      split
      · exact decOk_raise (by decide) h.buf
      · rename_i horig
        refine DecRun.decOk (p := phDTree) { hrun with ctl := hrun.ctl.goto _ } rfl (by decide)
          ⟨nofun, nofun, fun _ => ?_, nofun, nofun⟩
        exact {
          wr := hfresh.wr
          inSym := hfresh.inSym
          origSize_ne := h.check hat
          origSize_le := Nat.le_of_not_lt horig
          bitpos_le := hfresh.bitpos.trans_le (Nat.zero_le _)
          treeBits_le := Nat.le_of_not_lt hbits
          avail_le := Nat.sub_le _ _ }

theorem finish_ok (hat : d.at phDFinish) : DecOk cfg (finish d) := by
  have hrun := h.run hat (by decide)
  obtain ⟨hwr, hle⟩ := h.finish hat
  have hstored := hrun.stored
  rw [hwr] at hstored
  exact .of_quiet (ctlOk_endRun hrun.ctl.noFault _) hrun.buf (fun _ => ⟨hle, hstored⟩) nofun

/-! ### D_TREE and D_WALK, in either grain -/

theorem tree_ok (hat : d.at phDTree) {m : Micro Dec Unit} (hm : TreeEnd d m) : DecOk cfg (settleDec m) := by
  have hrun := h.run hat (by decide)
  have htree := h.treeOk hat
  cases hm with
  | fault hc hr =>
    obtain ⟨_, _, _, _, _, rfl, _⟩ := hr
    exact decOk_raise hc hrun.buf
  | more hr hpos =>
    obtain ⟨_, _, _, _, _, rfl, _⟩ := hr
    exact DecRun.decOk (p := phDTree) { hrun with } hat.2 (by decide)
      ⟨nofun, nofun, fun _ => { htree with bitpos_le := hpos }, nofun, nofun⟩
  | done hr hpos =>
    obtain ⟨_, _, _, _, _, rfl, _⟩ := hr
    refine DecRun.decOk (p := phDWalk) { hrun with ctl := hrun.ctl.goto _ } rfl (by decide)
      ⟨nofun, nofun, nofun, fun _ => ?_, nofun⟩
    exact {
      wr_lt := by
        simp only [htree.wr]
        exact Nat.pos_of_ne_zero fun h0 => htree.origSize_ne (BitVec.eq_of_toNat_eq h0)
      origSize_le := htree.origSize_le
      bitpos_le := hpos.trans_le htree.treeBits_le
      avail_le := htree.avail_le
      inside := fun hs => absurd (htree.inSym.symm.trans hs) (by decide) }

/-- The byte emitted is stored at WR, and the walk goes on while WR is below ORIG_SIZE (rules R38, R227). -/
theorem emitSym_ok (hat : d.at phDWalk) {d' : Dec} (hr : Reads d d') (hpos : d'.bitpos ≤ d.avail) (sym : Byte) :
    DecOk cfg (emitSym sym d') := by
  obtain ⟨_, _, _, _, _, rfl, _⟩ := hr
  have hrun := h.run hat (by decide)
  have hwalk := h.walkOk hat
  have hstored : ∀ a, a < (d.wr + 1).toNat → (Memory.read (Memory.write d.obuf d.wr.toNat sym) a).isSome = true := by
    rw [toNat_succ_of_lt hwalk.wr_lt]
    exact fun a => stored_write (lo := 0) (fun a _ => hrun.stored a) sym a (Nat.zero_le a)
  have hbuf := hrun.buf.write_obuf (h.room hat) sym
  unfold emitSym
  simp only
  split
  · rename_i heq
    exact DecRun.decOk (p := phDFinish)
      { hrun with ctl := hrun.ctl.goto _, buf := hbuf, stored := hstored } rfl (by decide)
      ⟨nofun, nofun, nofun, nofun, fun _ => ⟨heq, hwalk.origSize_le⟩⟩
  · rename_i hne
    exact DecRun.decOk (p := phDWalk) { hrun with buf := hbuf, stored := hstored } hat.2 (by decide)
      ⟨nofun, nofun, nofun,
        fun _ => { hwalk with wr_lt := succ_lt_of_ne hwalk.wr_lt hne, bitpos_le := hpos, inside := nofun }, nofun⟩

theorem walk_ok (hat : d.at phDWalk) {m : Micro Dec Unit} (hm : WalkEnd d m) : DecOk cfg (settleDec m) := by
  have hrun := h.run hat (by decide)
  have hwalk := h.walkOk hat
  cases hm with
  | fault hc hr =>
    obtain ⟨_, _, _, _, _, rfl, _⟩ := hr
    exact decOk_raise hc hrun.buf
  | inside hr hpos hnode hstand hcur =>
    obtain ⟨_, _, _, _, _, rfl, _⟩ := hr
    subst hnode
    have hroot : ∃ l r, decNode d.node 0 = .internal l r := by
      cases hs : d.inSym with
      | true => exact (hwalk.inside hs).1
      | false => simpa [standAt, hs] using hstand
    exact DecRun.decOk (p := phDWalk) { hrun with } hat.2 (by decide)
      ⟨nofun, nofun, nofun, fun _ => { hwalk with bitpos_le := hpos, inside := fun _ => ⟨hroot, hcur⟩ }, nofun⟩
  | emitted hr hpos sym => exact emitSym_ok h hat hr (hpos hwalk.bitpos_le) sym

end DecFacts

/-! ### The instruction DEC reads -/

/-- The phases in which DEC is BUSY (rules R27, R36). -/
theorem decPhase_of_busy {c : Ctl} (h : CtlOk .dec c) (hb : c.state = .busy) :
    c.phase = phInit ∨ c.phase = phDHeader ∨ c.phase = phDCheck ∨ c.phase = phDTree ∨ c.phase = phDWalk ∨ c.phase = phDFinish := by
  have hall : ∀ p : BitVec 4, legalPhase .dec p = true → p ≠ phIdle →
      p = phInit ∨ p = phDHeader ∨ p = phDCheck ∨ p = phDTree ∨ p = phDWalk ∨ p = phDFinish := by decide
  exact hall c.phase h.legal fun hi => h.idle_iff.1 hi hb

/-- What a BUSY DEC reads its next instruction from, and in which window: PHASE, or in the fine grain the header, token or walk bit at hand
(rules R36, R90). -/
def decWord (s : State) : Window × Bits :=
  if s.grain = .stream ∧ s.dec.ctl.phase = phDHeader then (.hdr, headerBits s.dec)
  else if s.grain = .stream ∧ s.dec.ctl.phase = phDTree then (.tok, tokenBits s.dec)
  else if s.grain = .stream ∧ s.dec.ctl.phase = phDWalk then (.walk (rootIsLeaf s.dec), walkBit s.dec)
  else (.phase .dec, natBits 4 s.dec.ctl.phase.toNat)

theorem decWord_header {s : State} (hg : s.grain = .stream) (hp : s.dec.ctl.phase = phDHeader) : decWord s = (.hdr, headerBits s.dec) :=
  if_pos ⟨hg, hp⟩

theorem decWord_tree {s : State} (hg : s.grain = .stream) (hp : s.dec.ctl.phase = phDTree) : decWord s = (.tok, tokenBits s.dec) := by
  simp [decWord, hg, hp, phDHeader, phDTree]

theorem decWord_walk {s : State} (hg : s.grain = .stream) (hp : s.dec.ctl.phase = phDWalk) :
    decWord s = (.walk (rootIsLeaf s.dec), walkBit s.dec) := by
  simp [decWord, hg, hp, phDHeader, phDTree, phDWalk]

theorem decWord_phase {s : State}
    (h : s.grain = .stream → s.dec.ctl.phase ≠ phDHeader ∧ s.dec.ctl.phase ≠ phDTree ∧ s.dec.ctl.phase ≠ phDWalk) :
    decWord s = (.phase .dec, natBits 4 s.dec.ctl.phase.toNat) := by
  cases hg : s.grain with
  | microOp => simp [decWord, hg]
  | stream =>
    obtain ⟨hheader, htree, hwalk⟩ := h hg
    simp [decWord, hheader, htree, hwalk]

section DecJob
variable {s : State} (hb : s.dec.ctl.state = .busy)
include hb

theorem isBusy_dec : s.isBusy .dec = true := by simp [State.isBusy, State.ctl, hb]

theorem decJob_header (hg : s.grain = .stream) (hp : s.dec.ctl.phase = phDHeader) (hcap : 13 ≤ s.cfg.decInCap) :
    decJob s = jobOf .dec (decode .hdr (headerBits s.dec)) := by
  simp [decJob, isBusy_dec hb, hg, streamJob, hp, hcap]

theorem decJob_tree (hg : s.grain = .stream) (hp : s.dec.ctl.phase = phDTree) (hfits : windowFits s.cfg s.dec.treeBits.toNat = true) :
    decJob s = jobOf .dec (decode .tok (tokenBits s.dec)) := by
  simp [decJob, isBusy_dec hb, hg, streamJob, hp, hfits, phDHeader, phDTree]

theorem decJob_walk (hg : s.grain = .stream) (hp : s.dec.ctl.phase = phDWalk) (hfits : windowFits s.cfg s.dec.avail = true) :
    decJob s = jobOf .dec (decode (.walk (rootIsLeaf s.dec)) (walkBit s.dec)) := by
  simp [decJob, isBusy_dec hb, hg, streamJob, hp, hfits, phDHeader, phDTree, phDWalk]

theorem decJob_phase
    (h : s.grain = .stream → s.dec.ctl.phase ≠ phDHeader ∧ s.dec.ctl.phase ≠ phDTree ∧ s.dec.ctl.phase ≠ phDWalk) :
    decJob s = jobOf .dec (decode (.phase .dec) (natBits 4 s.dec.ctl.phase.toNat)) := by
  cases hg : s.grain with
  | microOp => simp [decJob, isBusy_dec hb, hg]
  | stream =>
    obtain ⟨hheader, htree, hwalk⟩ := h hg
    simp [decJob, isBusy_dec hb, hg, streamJob, hheader, htree, hwalk]

/-- In order, DEC runs what it reads: that lies in its IBUF (rule R64). -/
theorem DecOk.job_eq (hcfg : s.cfg.wf) (h : DecOk s.cfg s.dec) :
    decJob s = jobOf .dec (decode (decWord s).1 (decWord s).2) := by
  unfold decWord
  split
  · rename_i hp
    exact decJob_header hb hp.1 hp.2 (decInCap_ge hcfg)
  · rename_i hheader
    split
    · rename_i hp
      exact decJob_tree hb hp.1 hp.2 (h.treeFits ⟨hb, hp.2⟩)
    · rename_i htree
      split
      · rename_i hp
        exact decJob_walk hb hp.1 hp.2 (h.walkFits ⟨hb, hp.2⟩)
      · rename_i hwalk
        exact decJob_phase hb fun hg => ⟨fun hp => hheader ⟨hg, hp⟩, fun hp => htree ⟨hg, hp⟩, fun hp => hwalk ⟨hg, hp⟩⟩

end DecJob

@[simp] theorem bytesBits_length (bs : List Byte) : (bytesBits bs).length = 8 * bs.length := by
  induction bs with
  | nil => rfl
  | cons b bs ih => simp [bytesBits, ih]; omega

theorem takeNat_of_length {n : Nat} {bs : Bits} (h : n ≤ bs.length) : takeNat n bs = some (ofBits (bs.take n), bs.drop n) :=
  if_neg (Nat.not_lt.2 h)

/-- Every header is read (rule R91). -/
theorem decode_headerBits (d : Dec) : ∃ o t p rest, decode .hdr (headerBits d) = .ok (.hdr o t p, rest) := by
  have hlen : (headerBits d).length = 104 := by simp [headerBits]
  simp only [decode, decodeHdr]
  rw [takeNat_of_length (by omega)]
  simp only
  rw [takeNat_of_length (by simp [hlen])]
  simp only
  rw [takeNat_of_length (by simp [hlen])]
  exact ⟨_, _, _, _, rfl⟩

/-- The token at BITPOS is read (rules R93, R96). -/
theorem decode_tokenBits (d : Dec) :
    ∃ rest, decode .tok (tokenBits d) = .ok (if tokenBit d then .tLeaf (tokenSym d) else .tInternal, rest) := by
  have hbits : tokenBits d = tokenBit d :: streamBits d d.treeBits.toNat 8 (d.bitpos + 1) := rfl
  rw [hbits]
  cases tokenBit d with
  | false => exact ⟨_, rfl⟩
  | true =>
    refine ⟨[], ?_⟩
    simp only [decode, decodeTok, tokenSym, if_true]
    rw [takeNat_of_length (by simp), List.take_of_length_le (by simp), List.drop_of_length_le (by simp)]

theorem rootIsLeaf_of_leaf {d : Dec} {sym : Byte} (h : decNode d.node 0 = .leaf sym) : rootIsLeaf d = true := by
  have h0 : d.node[0] = .leaf sym := h
  simp [rootIsLeaf, h0]

theorem rootIsLeaf_of_internal {d : Dec} {l r : Handle} (h : decNode d.node 0 = .internal l r) : rootIsLeaf d = false := by
  have h0 : d.node[0] = .internal l r := h
  simp [rootIsLeaf, h0]

/-- The walk bit at BITPOS, in a tree of one Leaf and in one of more (rules R98, R100). -/
theorem walk_step {s : State} (h : DecOk s.cfg s.dec) (hat : s.dec.at phDWalk) :
    ∃ i, decode (.walk (rootIsLeaf s.dec)) (walkBit s.dec) = .ok (i, []) ∧ ∃ d, exec i s = .next (s.setDec d) ∧ DecOk s.cfg d := by
  have hroom := h.room hat
  cases hroot : decNode s.dec.node 0 with
  | leaf sym =>
    rw [rootIsLeaf_of_leaf hroot]
    exact ⟨_, rfl, _, by simp only [exec, execSAny, hroom, hroot, if_true], walk_ok h hat (anyBit_walkEnd sym s.dec)⟩
  | internal l r =>
    have hstand : ∃ l' r', decNode s.dec.node (standAt s.dec) = .internal l' r' := by
      unfold standAt
      split
      · rename_i hs
        exact ((h.walkOk hat).inside hs).2
      · exact ⟨l, r, hroot⟩
    obtain ⟨l', r', hstand⟩ := hstand
    have hbit : ∀ right, walkBitAt right s = .next (s.setDec (settleDec (walkEdge right l' r' s.dec))) := fun right => by
      simp only [walkBitAt, hroom, hstand, if_true]
    have hok : ∀ right, DecOk s.cfg (settleDec (walkEdge right l' r' s.dec)) := fun right =>
      walk_ok h hat (walkEdge_walkEnd right hstand)
    have hword : walkBit s.dec = [decide (s.dec.bitpos < s.dec.avail) && payloadBit s.dec s.dec.bitpos] := rfl
    rw [rootIsLeaf_of_internal hroot, hword]
    cases decide (s.dec.bitpos < s.dec.avail) && payloadBit s.dec s.dec.bitpos with
    | false => exact ⟨.wLeft, rfl, _, hbit false, hok false⟩
    | true => exact ⟨.wRight, rfl, _, hbit true, hok true⟩

/-- A BUSY DEC completes the micro-operation its PHASE selects, and is in order after it. -/
theorem dec_microOp_step {s : State} (hcfg : s.cfg.wf) (h : DecOk s.cfg s.dec) (hb : s.dec.ctl.state = .busy) :
    ∃ i, decode (.phase .dec) (natBits 4 s.dec.ctl.phase.toNat) = .ok (i, []) ∧
      ∃ d, exec i s = .next (s.setDec d) ∧ DecOk s.cfg d := by
  rcases decPhase_of_busy h.ctl hb with hp | hp | hp | hp | hp | hp <;> have hat := And.intro hb hp <;> rw [hp]
  · exact ⟨.dInit, rfl, _, rfl, decInit_ok h hat⟩
  · exact ⟨.dHeader, rfl, _, if_pos (decInCap_ge hcfg), readHeader_ok h hat⟩
  · exact ⟨.dCheck, rfl, _, rfl, checkHeader_ok h hat⟩
  · exact ⟨.dTree, rfl, _, if_pos (h.treeFits hat), tree_ok h hat (deserTree_treeEnd _)⟩
  · exact ⟨.dWalk, rfl, _, if_pos ⟨h.room hat, h.walkFits hat⟩, walk_ok h hat (walkSymbol_walkEnd _)⟩
  · exact ⟨.dFinish, rfl, _, rfl, finish_ok h hat⟩

/-- A BUSY DEC completes the instruction it reads, in either grain, and is in order after it. -/
theorem dec_stepOk {s : State} (hcfg : s.cfg.wf) (h : DecOk s.cfg s.dec) (hb : s.dec.ctl.state = .busy) :
    ∃ i rest, decode (decWord s).1 (decWord s).2 = .ok (i, rest) ∧ ∃ d, exec i s = .next (s.setDec d) ∧ DecOk s.cfg d := by
  unfold decWord
  split
  · rename_i hp
    obtain ⟨o, t, p, rest, hdec⟩ := decode_headerBits s.dec
    exact ⟨_, rest, hdec, _, rfl, loadHeader_ok h ⟨hb, hp.2⟩ o t p⟩
  · split
    · rename_i hp
      obtain ⟨rest, hdec⟩ := decode_tokenBits s.dec
      refine ⟨_, rest, hdec, ?_⟩
      cases tokenBit s.dec with
      | false => exact ⟨_, rfl, tree_ok h ⟨hb, hp.2⟩ (tokInternal_treeEnd _)⟩
      | true => exact ⟨_, rfl, tree_ok h ⟨hb, hp.2⟩ (tokLeaf_treeEnd _ _)⟩
    · split
      · rename_i hp
        obtain ⟨i, hdec, hstep⟩ := walk_step h ⟨hb, hp.2⟩
        exact ⟨i, [], hdec, hstep⟩
      · obtain ⟨i, hdec, hstep⟩ := dec_microOp_step hcfg h hb
        exact ⟨i, [], hdec, hstep⟩

end Sys2Proof.Machine

namespace Sys2Proof.Machine

/-! ## The ports, the reset event and the whole machine -/

theorem admitted_command (cfg : Config) (u : UnitId) {v : Nat} (hv : v < 2 ^ 8) : admitted cfg u (.csrWrite 0 v) = true :=
  decide_eq_true (.inl ⟨rfl, hv⟩)

section InvParts
variable {s : State} (h : Inv s)
include h

theorem Inv.setEnc {e : Enc} (he : EncOk s.cfg e) : Inv (s.setEnc e) := { h with enc := he }

theorem Inv.setDec {d : Dec} (hd : DecOk s.cfg d) : Inv (s.setDec d) := { h with dec := hd }

theorem Inv.setScript (l : List HostEvent) : Inv (s.setScript l) := { h with }

theorem Inv.setPort {u : UnitId} {p : Port} (hp : PortOk s.cfg u p) : Inv (s.setPort u p) := by
  cases u
  · exact { h with encPort := hp }
  · exact { h with decPort := hp }

theorem Inv.portOk (u : UnitId) : PortOk s.cfg u (s.port u) := by
  cases u
  · exact h.encPort
  · exact h.decPort

theorem Inv.ctlOk (u : UnitId) : CtlOk u (s.ctl u) := by
  cases u
  · exact h.enc.ctl
  · exact h.dec.ctl

theorem Inv.resultOk (u : UnitId) : ResultOk s.cfg u (s.ctl u) (s.obuf u) := by
  cases u
  · exact h.enc.result
  · exact h.dec.result

/-- A port that only returns something else. -/
theorem Inv.setRdata (u : UnitId) (v : Option ReadData) (n : Nat) : Inv (s.setPort u { s.port u with rdata := v, draw := n }) :=
  h.setPort (h.portOk u)

theorem Inv.respond (u : UnitId) (v : ReadData) : Inv (s.respond u v) := h.setRdata u (some v) (s.port u).draw

/-- A port that holds an admitted transaction which is no read of STATUS (rule R263). -/
theorem Inv.hold {u : UnitId} {t : Txn} (ha : admitted s.cfg u t = true) (ht : t ≠ .csrRead 1) : Inv (s.hold u t) :=
  h.setPort fun _ e => Option.some.inj e ▸ ⟨ha, ht⟩

/-- Control registers that leave the working registers of their unit free. -/
theorem Inv.setCtl {u : UnitId} {c : Ctl} (hc : CtlOk u c) (hq : c.Quiet) (hres : ResultOk s.cfg u c (s.obuf u)) : Inv (s.setCtl u c) := by
  cases u
  · exact h.setEnc (.of_quiet hc h.enc.buf hres h.enc.arena hq)
  · exact h.setDec (.of_quiet hc h.dec.buf hres hq)

theorem Inv.writeIbuf {u : UnitId} {k : Nat} (hn : (s.ctl u).state ≠ .busy) (hk : k < inCapOf s.cfg u) (b : Byte) :
    Inv (s.setIbuf u (Memory.write (s.ibuf u) k b)) := by
  have hq : (s.ctl u).Quiet := fun hb => absurd hb hn
  cases u
  · exact h.setEnc (.of_quiet h.enc.ctl (h.enc.buf.write_ibuf hk b) h.enc.result h.enc.arena hq)
  · exact h.setDec (.of_quiet h.dec.ctl (h.dec.buf.write_ibuf hk b) h.dec.result hq)

theorem Inv.whenFree {u : UnitId} {t : Txn} {f : State → State} (ha : admitted s.cfg u t = true) (ht : t ≠ .csrRead 1)
    (hf : (s.ctl u).state ≠ .busy → Inv (f s)) : Inv (whenFree u t s f) := by
  rcases whenFree_cases u t s f with ⟨_, e⟩ | ⟨hn, e⟩ <;> rw [e]
  · exact h.hold ha ht
  · exact hf hn

/-! ### Transactions -/

theorem Inv.start {u : UnitId} : Inv (s.setCtl u (beginRun (s.ctl u))) := h.setCtl (h.ctlOk u).beginRun (fun _ => rfl) nofun

theorem Inv.clear {u : UnitId} (hn : (s.ctl u).state ≠ .busy) : Inv (s.setCtl u (clearOutcome (s.ctl u))) :=
  h.setCtl ((h.ctlOk u).clearOutcome hn) nofun nofun

/-- A command completes (rules R256 to R259). -/
theorem Inv.command (u : UnitId) (v : Nat) : ∃ t, exec (decodeCmd u v) s = .next t ∧ Inv t := by
  unfold decodeCmd
  split
  · exact ⟨_, rfl, h.whenFree (admitted_command _ _ (by decide)) nofun fun _ => h⟩
  · split
    · exact ⟨_, rfl, h.whenFree (admitted_command _ _ (by decide)) nofun fun _ => h.start⟩
    · split
      · exact ⟨_, rfl, h.whenFree (admitted_command _ _ (by decide)) nofun h.clear⟩
      · exact ⟨_, rfl, h.whenFree (admitted_command _ _ (BitVec.isLt _)) nofun fun _ => h⟩

theorem Inv.readBuf (u : UnitId) (addr : Nat) : Inv (readBuf u addr s) := by
  simp only [Machine.readBuf]
  split
  · split
    · exact h.respond u _
    · exact h.setRdata u _ _
  · exact h.setRdata u _ _

/-- A port operation completes (rules R252 to R255). -/
theorem Inv.portAccess {u : UnitId} {op : PortOp} (ha : admitted s.cfg u (portTxn op) = true) : Inv (portAccess u op s) := by
  refine h.whenFree ha (by cases op <;> simp [portTxn]) fun hn => ?_
  cases op with
  | readInLen => exact h.respond u _
  | readOutLen => exact h.respond u _
  | writeInLen v => exact h.setCtl ((h.ctlOk u).setInLen v) (fun hb => absurd hb hn) (h.resultOk u)
  | writeBuf addr b => exact h.writeIbuf hn (by simpa [portTxn, admitted] using ha) b
  | readBuf addr => exact h.readBuf u addr

end InvParts

/-- The instruction of a STATUS value returns it (rules R23, R109). -/
theorem decode_statusWord (u : UnitId) (r : RunState) :
    ∃ i, decode (.status u) (bin8 (statusWord r)) = .ok (i, []) ∧ ∀ s, exec i s = .next (returnStatus u r s) := by
  cases r
  · exact ⟨.stIdle u, rfl, fun _ => rfl⟩
  · exact ⟨.stBusy u, rfl, fun _ => rfl⟩
  · exact ⟨.stDone u, rfl, fun _ => rfl⟩
  · exact ⟨.stError u, rfl, fun _ => rfl⟩

/-- The instruction of an ERRCODE value the unit can raise returns it (rules R110, R281, R297). -/
theorem decode_errWord {u : UnitId} {c : ErrCode} (hc : u = .enc → c = .none ∨ c = .inCap ∨ c = .outCap) :
    ∃ i, decode (.err u) (bin8 (errWord c)) = .ok (i, []) ∧ ∀ s, exec i s = .next (returnErr u c s) := by
  cases u with
  | enc =>
    rcases hc rfl with rfl | rfl | rfl
    · exact ⟨.errNone .enc, rfl, fun _ => rfl⟩
    · exact ⟨.inCap .enc, rfl, fun _ => rfl⟩
    · exact ⟨.outCap .enc, rfl, fun _ => rfl⟩
  | dec =>
    cases c
    · exact ⟨.errNone .dec, rfl, fun _ => rfl⟩
    · exact ⟨.hdrShort, rfl, fun _ => rfl⟩
    · exact ⟨.padRange, rfl, fun _ => rfl⟩
    · exact ⟨.treeLen, rfl, fun _ => rfl⟩
    · exact ⟨.treeTrunc, rfl, fun _ => rfl⟩
    · exact ⟨.treeNodes, rfl, fun _ => rfl⟩
    · exact ⟨.treeExcess, rfl, fun _ => rfl⟩
    · exact ⟨.dataTrunc, rfl, fun _ => rfl⟩
    · exact ⟨.inCap .dec, rfl, fun _ => rfl⟩
    · exact ⟨.outCap .dec, rfl, fun _ => rfl⟩

/-- A register value that fits is looked up as it is. -/
theorem decodeReg_natBits {n v : Nat} (hv : v < 2 ^ n) (why : Reject) (look : Nat → Option Instr) :
    decodeReg n why look (natBits n v) = (look v).elim (.error why) fun i => .ok (i, []) := by
  have htake := takeNat_append (natBits_length n v) []
  rw [List.append_nil, ofBits_natBits hv] at htake
  simp only [decodeReg, htake]
  cases look v <;> rfl

theorem decode_cmd (u : UnitId) {v : Nat} (hv : v < 2 ^ 8) : decode (.cmd u) (natBits 8 v) = .ok (decodeCmd u v, []) :=
  decodeReg_natBits hv .truncated fun v => some (decodeCmd u v)

theorem txnJob_command {s : State} {u : UnitId} {v : Nat} (hv : v < 2 ^ 8) : txnJob s u (.csrWrite 0 v) = .run (decodeCmd u v) := by
  simp only [txnJob, admitted_command s.cfg u hv, if_true, decode_cmd u hv, jobOf]

/-- An admitted transaction completes, accepted or held, and keeps the invariant. -/
theorem Inv.txn {s : State} (h : Inv s) {u : UnitId} {t : Txn} (ha : admitted s.cfg u t = true) :
    ∃ t', perform (txnJob s u t) s = .next t' ∧ Inv t' := by
  cases t with
  | csrRead idx =>
    have hidx : idx = 1 ∨ idx = 2 ∨ idx = 3 ∨ idx = 4 := by simpa [admitted] using ha
    rcases hidx with rfl | rfl | rfl | rfl
    · obtain ⟨i, hdec, hexec⟩ := decode_statusWord u (s.ctl u).state
      exact ⟨returnStatus u (s.ctl u).state s, by simp only [txnJob, ha, if_true, hdec, jobOf, perform, hexec], h.respond u _⟩
    · exact ⟨_, by simp only [txnJob, ha, if_true, perform], h.portAccess (op := .readInLen) ha⟩
    · exact ⟨_, by simp only [txnJob, ha, if_true, perform], h.portAccess (op := .readOutLen) ha⟩
    · obtain ⟨i, hdec, hexec⟩ := decode_errWord (h.ctlOk u).cause
      exact ⟨returnErr u (s.ctl u).errCode s, by simp only [txnJob, ha, if_true, hdec, jobOf, perform, hexec],
        h.whenFree ha (by simp) fun _ => h.respond u _⟩
  | csrWrite idx v =>
    have hidx : (idx = 0 ∧ v < 2 ^ 8) ∨ (idx = 2 ∧ v < 2 ^ 64) := by simpa [admitted] using ha
    rcases hidx with ⟨rfl, hv⟩ | ⟨rfl, hv⟩
    · rw [txnJob_command hv]
      exact h.command u v
    · have ha' : admitted s.cfg u (portTxn (.writeInLen (BitVec.ofNat 64 v))) = true := by simp [portTxn, admitted]; omega
      exact ⟨_, by simp only [txnJob, ha, if_true, perform], h.portAccess ha'⟩
  | bufWrite addr b => exact ⟨_, by simp only [txnJob, ha, if_true, perform], h.portAccess (op := .writeBuf addr b) ha⟩
  | bufRead addr => exact ⟨_, by simp only [txnJob, ha, if_true, perform], h.portAccess (op := .readBuf addr) ha⟩

/-! ### The reset -/

theorem encOk_reset (cfg : Config) (epoch draw : Nat) : EncOk cfg { Enc.reset with epoch := epoch, draw := draw } :=
  .of_quiet (ctlOk_reset .enc) (bufOk_empty cfg .enc) nofun (arenaOk_replicate_leaf 0 0) nofun

theorem decOk_reset (cfg : Config) (epoch : Nat) : DecOk cfg { Dec.reset with epoch := epoch } :=
  .of_quiet (ctlOk_reset .dec) (bufOk_empty cfg .dec) nofun nofun

theorem inv_resetUnits {s : State} (h : Inv s) : Inv (resetUnits s) :=
  { h with enc := encOk_reset s.cfg _ _, dec := decOk_reset s.cfg _ }

/-! ### Whose step it is -/

/-- Picking the agent changes nothing a job depends on. -/
theorem pickAgent_eq (s : State) : ∃ l a, (pickAgent s).2 = { s with sched := l, turn := a } := by
  unfold pickAgent
  split
  · exact ⟨_, _, rfl⟩
  · exact ⟨_, _, rfl⟩

@[simp] theorem pickAgent_cfg (s : State) : (pickAgent s).2.cfg = s.cfg := by obtain ⟨l, a, e⟩ := pickAgent_eq s; rw [e]
@[simp] theorem pickAgent_enc (s : State) : (pickAgent s).2.enc = s.enc := by obtain ⟨l, a, e⟩ := pickAgent_eq s; rw [e]
@[simp] theorem pickAgent_dec (s : State) : (pickAgent s).2.dec = s.dec := by obtain ⟨l, a, e⟩ := pickAgent_eq s; rw [e]
@[simp] theorem pickAgent_script (s : State) : (pickAgent s).2.script = s.script := by obtain ⟨l, a, e⟩ := pickAgent_eq s; rw [e]
@[simp] theorem pickAgent_port (s : State) (u : UnitId) : (pickAgent s).2.port u = s.port u := by
  obtain ⟨l, a, e⟩ := pickAgent_eq s
  rw [e]
  rfl
@[simp] theorem encJob_pickAgent (s : State) : encJob (pickAgent s).2 = encJob s := by
  obtain ⟨l, a, e⟩ := pickAgent_eq s
  rw [e]
  rfl
@[simp] theorem decJob_pickAgent (s : State) : decJob (pickAgent s).2 = decJob s := by
  obtain ⟨l, a, e⟩ := pickAgent_eq s
  rw [e]
  rfl
@[simp] theorem decWord_pickAgent (s : State) : decWord (pickAgent s).2 = decWord s := by
  obtain ⟨l, a, e⟩ := pickAgent_eq s
  rw [e]
  rfl

theorem inv_pickAgent {s : State} (h : Inv s) : Inv (pickAgent s).2 := by
  obtain ⟨l, a, e⟩ := pickAgent_eq s
  rw [e]
  exact { h with }

theorem txnJob_setPort (s : State) (u : UnitId) (p : Port) (t : Txn) : txnJob (s.setPort u p) u t = txnJob s u t := by
  simp only [txnJob, State.setPort_cfg, State.setPort_ctl]

theorem encJob_of_busy {s : State} (hb : s.enc.ctl.state = .busy) :
    encJob s = jobOf .enc (decode (.phase .enc) (natBits 4 s.enc.ctl.phase.toNat)) := by
  simp [encJob, State.isBusy, State.ctl, hb]

theorem encJob_of_not_busy {s : State} (hn : s.enc.ctl.state ≠ .busy) : encJob s = .run .eIdle := by
  simp [encJob, State.isBusy, State.ctl, hn]

theorem decJob_of_not_busy {s : State} (hn : s.dec.ctl.state ≠ .busy) : decJob s = .run .dIdle := by
  simp [decJob, State.isBusy, State.ctl, hn]

theorem step_enc {s : State} (ha : (pickAgent s).1 = .unit .enc) : step s = perform (encJob s) (pickAgent s).2 := by
  rw [step, ha, ← encJob_pickAgent]
  rfl

theorem step_dec {s : State} (ha : (pickAgent s).1 = .unit .dec) : step s = perform (decJob s) (pickAgent s).2 := by
  rw [step, ha, ← decJob_pickAgent]
  rfl

/-! ### The step of each agent -/

/-- ENC's step completes. -/
theorem Inv.encStep {s : State} (h : Inv s) : ∃ t, perform (encJob s) s = .next t ∧ Inv t := by
  by_cases hb : s.enc.ctl.state = .busy
  · obtain ⟨i, hdec, e, hexec, he⟩ := enc_stepOk h.cfg h.wide h.enc hb
    exact ⟨_, by rw [encJob_of_busy hb, hdec]; exact hexec, h.setEnc he⟩
  · exact ⟨s, by rw [encJob_of_not_busy hb]; rfl, h⟩

/-- DEC's step completes. -/
theorem Inv.decStep {s : State} (h : Inv s) : ∃ t, perform (decJob s) s = .next t ∧ Inv t := by
  by_cases hb : s.dec.ctl.state = .busy
  · obtain ⟨i, rest, hdec, d, hexec, hd⟩ := dec_stepOk h.cfg h.dec hb
    exact ⟨_, by rw [h.dec.job_eq hb h.cfg, hdec]; exact hexec, h.setDec hd⟩
  · exact ⟨s, by rw [decJob_of_not_busy hb]; rfl, h⟩

/-- A port's step completes: it waits, or it accepts what it holds. -/
theorem Inv.portStep {s : State} (h : Inv s) (u : UnitId) :
    ∃ t, perform (fetch (.port u) s).1 (fetch (.port u) s).2 = .next t ∧ Inv t := by
  simp only [fetch]
  cases hheld : (s.port u).held with
  | none => exact ⟨s, rfl, h⟩
  | some x =>
    dsimp only
    split
    · exact ⟨s, rfl, h⟩
    · have hfree : Inv (s.setPort u { s.port u with held := none }) := h.setPort nofun
      rw [← txnJob_setPort s u { s.port u with held := none }]
      exact hfree.txn (by simpa using (h.portOk u x hheld).1)

/-- The host's step completes, or it is refused for a transaction that rule R265 excludes. -/
theorem Inv.hostStep {s : State} (h : Inv s) :
    (∃ t, perform (fetch .host s).1 (fetch .host s).2 = .next t ∧ Inv t) ∨
    ∃ u x rest, s.script = .txn u x :: rest ∧ admitted s.cfg u x = false ∧
      perform (fetch .host s).1 (fetch .host s).2 = .refused (.notAdmitted u) := by
  simp only [fetch]
  match hscript : s.script with
  | [] => exact .inl ⟨s, rfl, h⟩
  | .reset :: rest => exact .inl ⟨_, rfl, inv_resetUnits (h.setScript rest)⟩
  | .txn u x :: rest =>
    dsimp only
    split
    · cases ha : admitted s.cfg u x with
      | true => exact .inl ((h.setScript rest).txn ha)
      | false => exact .inr ⟨u, x, rest, rfl, ha, by simp [txnJob, ha, perform]⟩
    · exact .inl ⟨s, rfl, h⟩

/-- Every step from a state that meets the invariant completes and keeps it, but for a transaction that rule R265 excludes. -/
theorem step_of_inv {s : State} (h : Inv s) :
    (∃ t, step s = .next t ∧ Inv t) ∨
    ∃ u x rest, step s = .refused (.notAdmitted u) ∧ (pickAgent s).1 = .host ∧ s.script = .txn u x :: rest ∧
      admitted s.cfg u x = false := by
  unfold step
  have hpick := inv_pickAgent h
  cases ha : (pickAgent s).1 with
  | host =>
    rcases hpick.hostStep with hnext | ⟨u, x, rest, hscript, hadm, href⟩
    · exact .inl hnext
    · exact .inr ⟨u, x, rest, href, rfl, by simpa using hscript, by simpa using hadm⟩
  | port u => exact .inl (hpick.portStep u)
  | unit u =>
    cases u with
    | enc => exact .inl hpick.encStep
    | dec => exact .inl hpick.decStep

/-! ## The statements about the invariant -/

/-- Settles O55: every step that completes is one of those `step_of_inv` lists. -/
theorem everyStepKeepsTheInvariant : Obligations.EveryStepKeepsTheInvariant := by
  intro s t h ht
  rcases step_of_inv h with ⟨t', ht', hinv⟩ | ⟨u, x, rest, href, -⟩
  · obtain rfl : t' = t := Host.Outcome.next.inj (ht'.symm.trans ht)
    exact hinv
  · rw [href] at ht
    cases ht

/-- Settles O56: a step completes or is refused, by `step_of_inv`. -/
theorem invariantStatesAreSafe : Obligations.InvariantStatesAreSafe := by
  intro s h
  rcases step_of_inv h with ⟨t, ht, -⟩ | ⟨u, x, rest, href, ha, hscript, hadm⟩
  · exact ⟨fun f hf => by simp [ht] at hf, fun r hr => by simp [ht] at hr⟩
  · refine ⟨fun f hf => by simp [href] at hf, fun r hr => ?_⟩
    obtain rfl : Refusal.notAdmitted u = r := Host.Outcome.refused.inj (href.symm.trans hr)
    exact ⟨u, x, rest, rfl, ha, hscript, hadm⟩

/-- Settles O57: each unit completes the instruction it reads, by `enc_stepOk` and `dec_stepOk`. -/
theorem busyUnitAlwaysSteps : Obligations.BusyUnitAlwaysSteps := by
  intro s u h ha hb
  have hpick := inv_pickAgent h
  cases u with
  | enc =>
    replace hb : s.enc.ctl.state = .busy := hb
    obtain ⟨i, hdec, e, hexec, -⟩ := enc_stepOk hpick.cfg hpick.wide hpick.enc (by rwa [pickAgent_enc])
    rw [pickAgent_enc] at hdec
    refine ⟨i, [], _, hexec, ?_, fun _ => hdec, nofun⟩
    rw [step_enc ha, encJob_of_busy hb, hdec]
    exact hexec
  | dec =>
    replace hb : s.dec.ctl.state = .busy := hb
    obtain ⟨i, rest, hdec, d, hexec, -⟩ := dec_stepOk hpick.cfg hpick.dec (by rwa [pickAgent_dec])
    rw [decWord_pickAgent] at hdec
    refine ⟨i, rest, _, hexec, ?_, fun hmicro => ?_, fun _ hg => ⟨fun hp => ?_, fun hp => ?_, fun hp => ?_⟩⟩
    · rw [step_dec ha, h.dec.job_eq hb h.cfg, hdec]
      exact hexec
    · have hphase : s.grain = .stream → s.dec.ctl.phase ≠ 2 ∧ s.dec.ctl.phase ≠ 4 ∧ s.dec.ctl.phase ≠ 5 := fun hg => by
        rcases hmicro with hu | hmicro | hne
        · cases hu
        · cases hmicro.symm.trans hg
        · exact hne
      rwa [decWord_phase hphase] at hdec
    · rwa [decWord_header hg hp] at hdec
    · rwa [decWord_tree hg hp] at hdec
    · rwa [decWord_walk hg hp] at hdec

/-- Settles O54: both units are as after reset, and no port holds anything. -/
theorem invariantHoldsAtReset : Obligations.InvariantHoldsAtReset where
  cfg := by decide
  wide := by decide
  enc := encOk_reset Config.default 0 0
  dec := decOk_reset Config.default 0
  encPort := nofun
  decPort := nofun

/-! ## The reset state, the instructions without effect and the register values -/

/-- Settles O1: each clause is a field of the reset state. -/
theorem resetStateIsIdleInBothUnits : Obligations.ResetStateIsIdleInBothUnits := by
  intro u
  cases u <;> exact ⟨rfl, rfl, rfl, rfl, rfl, rfl, rfl, fun _ => rfl, fun _ => rfl⟩

theorem whenFree_of_not_busy {u : UnitId} {s : State} (hn : (s.ctl u).state ≠ .busy) (t : Txn) (f : State → State) :
    whenFree u t s f = f s := by
  rcases whenFree_cases u t s f with ⟨hb, _⟩ | ⟨_, e⟩
  · exact absurd hb hn
  · exact e

/-- Settles O3: an accepted NOP or reserved command leaves the state, and so do the idle values of PHASE. -/
theorem instructionsWithoutEffect : Obligations.InstructionsWithoutEffect :=
  ⟨fun _ _ _ hn => ⟨congrArg _ (whenFree_of_not_busy hn _ _), congrArg _ (whenFree_of_not_busy hn _ _)⟩, fun _ => ⟨rfl, rfl⟩⟩

/-- An accepted read of ERRCODE changes what the port returns, and nothing else. -/
theorem returnErr_of_not_busy {u : UnitId} {s : State} (hn : (s.ctl u).state ≠ .busy) (c : ErrCode) :
    returnErr u c s = s.setPort u { s.port u with rdata := some (.byte (errWord c)) } := whenFree_of_not_busy hn _ _

/-- Settles O9: a STATUS value is returned as it stands, an ERRCODE value once the read is accepted. -/
theorem registerValuesAreReturned : Obligations.RegisterValuesAreReturned := by
  have herr : ∀ {u : UnitId} {s : State}, (s.ctl u).state ≠ .busy → ∀ c, Host.Outcome.next (returnErr u c s) =
      (.next (s.setPort u { s.port u with rdata := some (.byte (errWord c)) }) : Host.Outcome State Fault Refusal) :=
    fun hn c => congrArg _ (returnErr_of_not_busy hn c)
  exact ⟨fun _ _ => ⟨rfl, rfl, rfl, rfl⟩, fun _ _ hn => ⟨herr hn .none, herr hn .inCap, herr hn .outCap⟩,
    fun _ hn => ⟨herr hn .hdrShort, herr hn .padRange, herr hn .treeLen, herr hn .treeTrunc, herr hn .treeNodes, herr hn .treeExcess,
      herr hn .dataTrunc⟩⟩

/-! ## The instruction a step runs -/

theorem step_enc_of_decode {s : State} {i : Instr} {rest : Bits} (ha : (pickAgent s).1 = .unit .enc) (hb : s.enc.ctl.state = .busy)
    (hdec : decode (.phase .enc) (natBits 4 s.enc.ctl.phase.toNat) = .ok (i, rest)) : step s = exec i (pickAgent s).2 := by
  rw [step_enc ha, encJob_of_busy hb, hdec]
  rfl

theorem step_dec_of_decode {s : State} {w : Window} {bs : Bits} {i : Instr} {rest : Bits} (ha : (pickAgent s).1 = .unit .dec)
    (hjob : decJob s = jobOf .dec (decode w bs)) (hdec : decode w bs = .ok (i, rest)) : step s = exec i (pickAgent s).2 := by
  rw [step_dec ha, hjob, hdec]
  rfl

theorem step_host_command {s : State} {u : UnitId} {v : Nat} {l : List HostEvent} (ha : (pickAgent s).1 = .host)
    (hscript : s.script = .txn u (.csrWrite 0 v) :: l) (hheld : (s.port u).held = none) (hv : v < 2 ^ 8) :
    step s = exec (decodeCmd u v) ((pickAgent s).2.setScript l) := by
  simp only [step, ha, fetch, pickAgent_script, hscript, pickAgent_port, hheld, true_or, if_true, txnJob_command hv, perform]

/-- Settles O13: each agent's job, clause by clause. -/
theorem stepRunsTheDecodedInstruction : Obligations.StepRunsTheDecodedInstruction := by
  intro s i rest
  refine ⟨step_enc_of_decode, fun ha hn => ?_, fun ha hn => ?_, fun ha hb hg hdec => ?_, fun ha hat hg hcap hdec => ?_,
    fun ha hat hg hfits hdec => ?_, fun ha hat hg hfits hdec => ?_, fun ha hb hg h2 h4 h5 hdec => ?_,
    fun u v l ha hscript hheld hv hdec => ?_⟩
  · rw [step_enc ha, encJob_of_not_busy hn]
    rfl
  · rw [step_dec ha, decJob_of_not_busy hn]
    rfl
  · exact step_dec_of_decode ha (decJob_phase hb fun hs => by cases hg.symm.trans hs) hdec
  · exact step_dec_of_decode ha (decJob_header hat.1 hg hat.2 hcap) hdec
  · exact step_dec_of_decode ha (decJob_tree hat.1 hg hat.2 hfits) hdec
  · exact step_dec_of_decode ha (decJob_walk hat.1 hg hat.2 hfits) hdec
  · exact step_dec_of_decode ha (decJob_phase hb fun _ => ⟨h2, h4, h5⟩) hdec
  · rw [decode_cmd u hv] at hdec
    cases hdec
    exact step_host_command ha hscript hheld hv

/-! ## What a register cannot hold -/

/-- A register value is read back exactly when the window's table has it. -/
theorem decodeReg_natBits_ok_iff {n v : Nat} (hv : v < 2 ^ n) (why : Reject) (look : Nat → Option Instr) :
    (∃ i, decodeReg n why look (natBits n v) = .ok (i, [])) ↔ (look v).isSome = true := by
  rw [decodeReg_natBits hv]
  cases look v <;> simp

theorem decodeEncPhase_isSome : ∀ v, v < 16 → ((decodeEncPhase v).isSome = true ↔ v ≤ 11) := by decide

theorem decodeDecPhase_isSome : ∀ v, v < 16 → ((decodeDecPhase v).isSome = true ↔ v ≤ 6) := by decide

theorem decodeStatus_isSome (u : UnitId) (v : Nat) : (decodeStatus u v).isSome = true ↔ v ≤ 3 := by
  match v with
  | 0 | 1 | 2 | 3 => simp [decodeStatus]
  | v + 4 => simp [decodeStatus]

/-- A table row is there, or a later one is. -/
theorem isSome_ite_some {α : Type} {p : Prop} [Decidable p] {x : α} {o : Option α} :
    (if p then some x else o).isSome = true ↔ p ∨ o.isSome = true := by
  by_cases h : p <;> simp [h]

theorem decodeErr_enc_isSome (v : Nat) : (decodeErr .enc v).isSome = true ↔ v = 0x00 ∨ v = 0x21 ∨ v = 0x22 := by
  simp [decodeErr, isSome_ite_some]

theorem decodeErr_dec_isSome (v : Nat) :
    (decodeErr .dec v).isSome = true ↔ v = 0x00 ∨ (0x11 ≤ v ∧ v ≤ 0x17) ∨ v = 0x21 ∨ v = 0x22 := by
  simp only [decodeErr, isSome_ite_some, Option.isSome_none, Bool.false_eq_true, or_false]
  omega

/-- Settles O18: the tables of the windows, one by one. -/
theorem undefinedRegisterValuesAreRefused : Obligations.UndefinedRegisterValuesAreRefused :=
  ⟨fun v hv => (decodeReg_natBits_ok_iff (n := 4) hv .reservedPhase decodeEncPhase).trans (decodeEncPhase_isSome v hv),
    fun v hv => (decodeReg_natBits_ok_iff (n := 4) hv .reservedPhase decodeDecPhase).trans (decodeDecPhase_isSome v hv),
    fun u v hv => (decodeReg_natBits_ok_iff (n := 8) hv .undefinedStatus (decodeStatus u)).trans (decodeStatus_isSome u v),
    fun v hv => (decodeReg_natBits_ok_iff (n := 8) hv .undefinedErrCode (decodeErr .enc)).trans (decodeErr_enc_isSome v),
    fun v hv => (decodeReg_natBits_ok_iff (n := 8) hv .undefinedErrCode (decodeErr .dec)).trans (decodeErr_dec_isSome v)⟩

end Sys2Proof.Machine

namespace Sys2Proof.Machine

/-! ## The 13 header bytes (rules R70, R72, R91)

Big-endian bytes, most significant bit first, are the binary number itself: as bits, `headerBytes` is the encoding of HDR, and no other
bytes spell it. -/

theorem ofBits_append (as bs : Bits) : ofBits (as ++ bs) = ofBits as * 2 ^ bs.length + ofBits bs := by
  induction as with
  | nil => simp [ofBits]
  | cons a as ih =>
    simp only [List.cons_append, ofBits, ih, List.length_append, Nat.pow_add]
    ring

/-- A number has one bit string of each length. -/
theorem eq_of_ofBits_eq {as bs : Bits} (hlen : as.length = bs.length) (h : ofBits as = ofBits bs) : as = bs := by
  rw [← natBits_ofBits as, ← natBits_ofBits bs, hlen, h]

theorem bytesBits_append (as bs : List Byte) : bytesBits (as ++ bs) = bytesBits as ++ bytesBits bs := by
  induction as with
  | nil => rfl
  | cons a as ih => simp [bytesBits, ih]

theorem bin8_inj {a b : Byte} (h : bin8 a = bin8 b) : a = b := by
  have hval := congrArg ofBits h
  simp only [bin8, ofBits_natBits_toNat] at hval
  exact BitVec.eq_of_toNat_eq hval

theorem bytesBits_inj {as bs : List Byte} (hlen : as.length = bs.length) (h : bytesBits as = bytesBits bs) : as = bs := by
  induction as generalizing bs with
  | nil => exact (List.eq_nil_of_length_eq_zero hlen.symm).symm
  | cons a as ih =>
    cases bs with
    | nil => cases hlen
    | cons b bs =>
      obtain ⟨hbyte, hrest⟩ := List.append_inj h (by simp)
      rw [bin8_inj hbyte, ih (Nat.succ.inj hlen) hrest]

/-- The big-endian value of a byte string is the number its bits spell. -/
theorem ofBits_bytesBits (bs : List Byte) : ofBits (bytesBits bs) = beValue bs := by
  induction bs with
  | nil => rfl
  | cons b bs ih =>
    rw [bytesBits, ofBits_append, bin8, ofBits_natBits_toNat, ih, bytesBits_length, Nat.pow_mul, beValue]

/-- The low `n` bytes of a number, read back. -/
theorem beValue_beBytes_mod (n v : Nat) : beValue (beBytes n v) = v % 256 ^ n := by
  induction n with
  | zero => simp [beBytes, beValue, Nat.mod_one]
  | succ n ih =>
    rw [beBytes, beValue, ih, beBytes_length, BitVec.toNat_ofNat, Nat.pow_succ 256 n, Nat.mod_mul, Nat.mul_comm, Nat.add_comm]

/-- A bit vector of `n` bytes is read back. -/
theorem ofNat_beValue_beBytes {w : Nat} (x : BitVec w) {n : Nat} (hn : 256 ^ n = 2 ^ w) :
    BitVec.ofNat w (beValue (beBytes n x.toNat)) = x := by
  rw [beValue_beBytes_mod, hn, Nat.mod_eq_of_lt x.isLt, BitVec.ofNat_toNat, BitVec.setWidth_eq]

theorem bytesBits_beBytes (n v : Nat) : bytesBits (beBytes n v) = natBits (8 * n) v := by
  refine eq_of_ofBits_eq (by simp [beBytes_length]) ?_
  rw [ofBits_bytesBits, beValue_beBytes_mod, ofBits_natBits_mod, Nat.pow_mul]

theorem bytesBits_headerBytes (o : BitVec 64) (t : BitVec 32) (p : Byte) : bytesBits (headerBytes o t p) = encode (.hdr o t p) := by
  simp [headerBytes, bytesBits_append, bytesBits_beBytes, bytesBits, encode]

section HeaderFields
variable (o : BitVec 64) (t : BitVec 32) (p : Byte)

theorem hdrOriginalSize_headerBytes : hdrOriginalSize (headerBytes o t p) = o := by
  rw [hdrOriginalSize, headerBytes, List.take_left' (beBytes_length 8 _)]
  exact ofNat_beValue_beBytes o rfl

theorem hdrTreeBitLength_headerBytes : hdrTreeBitLength (headerBytes o t p) = t := by
  rw [hdrTreeBitLength, headerBytes, List.drop_left' (beBytes_length 8 _), List.take_left' (beBytes_length 4 _)]
  exact ofNat_beValue_beBytes t rfl

theorem hdrPaddingBits_headerBytes : hdrPaddingBits (headerBytes o t p) = p := by
  rw [hdrPaddingBits, headerBytes, ← List.append_assoc, List.drop_left' (by simp [beBytes_length])]
  simp [beValue]

end HeaderFields

/-! ## D_HEADER and E_HEADER -/

/-- D_HEADER reads exactly the fields its 13 bytes spell (rule R222). -/
theorem readHeader_of_headerBits {d : Dec} {o : BitVec 64} {t : BitVec 32} {p : Byte} (h : headerBits d = encode (.hdr o t p)) :
    readHeader d = loadHeader o t p d := by
  have hbytes : cellBytes .dec d.epoch d.ibuf 0 13 = headerBytes o t p :=
    bytesBits_inj (by rw [cellBytes_length, headerBytes_length]) (h.trans (bytesBits_headerBytes o t p).symm)
  simp only [readHeader, hbytes, hdrOriginalSize_headerBytes, hdrTreeBitLength_headerBytes, hdrPaddingBits_headerBytes]

theorem exec_dHeader {s : State} (hcap : 13 ≤ s.cfg.decInCap) : exec .dHeader s = .next (s.setDec (readHeader s.dec)) := if_pos hcap

theorem exec_eHeader {s : State} (hcap : 13 ≤ s.cfg.encOutCap) : exec .eHeader s = .next (s.setEnc (storeHeader s.enc)) := if_pos hcap

/-- Settles O38: HDR loads its fields by definition, and D_HEADER reads those very fields from the bytes that spell them. -/
theorem headerIsLoaded : Obligations.HeaderIsLoaded := by
  intro s o t p
  refine ⟨rfl, fun hcap hbits => ?_⟩
  rw [exec_dHeader hcap, readHeader_of_headerBits hbits]
  rfl

/-- Settles O35: the 13 bytes are `headerBytes`, written from address 0 on. -/
theorem eHeaderStoresTheHeader : Obligations.EHeaderStoresTheHeader := by
  intro s hcfg
  have hlen := headerBytes_length s.enc.origSize s.enc.treeBits s.enc.padBits
  refine ⟨_, headerBytes s.enc.origSize s.enc.treeBits s.enc.padBits, exec_eHeader (encOutCap_ge hcfg), rfl, hlen,
    bytesBits_headerBytes _ _ _, fun a ha => ?_, fun a ha => ?_⟩
  · exact (Memory.read_writeBytes _ 0 _ a).trans (if_pos (by omega))
  · exact (Memory.read_writeBytes _ 0 _ a).trans (if_neg (by omega))

end Sys2Proof.Machine

namespace Sys2Proof
open Machine

/-! ## Decoding what the encoder wrote (rules R90, R91, R93, R98, R100, R108 to R111, R281) -/

/-- A bit vector at the head of a bit string is read back, and what follows it is left. -/
theorem takeNat_natBits {w : Nat} (x : BitVec w) (rest : Bits) : takeNat w (natBits w x.toNat ++ rest) = some (x.toNat, rest) := by
  rw [takeNat_append (natBits_length w x.toNat), ofBits_natBits_toNat]

/-- A register value that the window's table has is read back, and what follows it is left. -/
theorem decodeReg_append {n v : Nat} (hv : v < 2 ^ n) {why : Reject} {look : Nat → Option Instr} {i : Instr} (hlook : look v = some i)
    (rest : Bits) : decodeReg n why look (natBits n v ++ rest) = .ok (i, rest) := by
  simp only [decodeReg, takeNat_append (natBits_length n v), ofBits_natBits hv, hlook]

/-- A reserved value of CMD is read as it was written (rule R108). -/
theorem decodeCmd_reserved (u : UnitId) {v : Byte} (hv : 3 ≤ v.toNat) : decodeCmd u v.toNat = .cmdReserved u v := by
  have h0 : v.toNat ≠ 0 := by omega
  have h1 : v.toNat ≠ 1 := by omega
  have h2 : v.toNat ≠ 2 := by omega
  simp [decodeCmd, h0, h1, h2]

/-- Settles O15: the windows with operands (CMD, token, walk bit, header) one by one, and for the register windows the row of the table. -/
theorem decodeOfEncodeIsTheInstruction : Obligations.DecodeOfEncodeIsTheInstruction := by
  intro i rest hwf
  cases i with
  | cmdReserved u v =>
    have hv : 3 ≤ v.toNat := by simpa [Instr.wf] using hwf
    exact decodeReg_append (why := .truncated) (look := fun v => some (decodeCmd u v)) v.isLt (congrArg some (decodeCmd_reserved u hv)) rest
  | tInternal => rfl
  | tLeaf sym => simp [decode, decodeTok, encode, Instr.window, bin8, takeNat_natBits]
  | wLeft => rfl
  | wRight => rfl
  | sAny x => rfl
  | hdr o t p => simp [decode, decodeHdr, encode, Instr.window, bin8, takeNat_natBits]
  | _ =>
    simp only [decode, encode, Instr.window]
    exact decodeReg_append (by decide) rfl rest

/-! ## Encoding what the decoder read -/

theorem natBits_toNat_ofNat {w v : Nat} (hv : v < 2 ^ w) : natBits w (BitVec.ofNat w v).toNat = natBits w v := by
  rw [BitVec.toNat_ofNat, Nat.mod_eq_of_lt hv]

/-- The only way a register is read: its value is in the window's table. -/
theorem decodeReg_eq_ok {n : Nat} {why : Reject} {look : Nat → Option Instr} {bs rest : Bits} {i : Instr}
    (h : decodeReg n why look bs = .ok (i, rest)) : ∃ v, v < 2 ^ n ∧ look v = some i ∧ bs = natBits n v ++ rest := by
  unfold decodeReg at h
  split at h
  · cases h
  · rename_i v rest' htake
    obtain ⟨hbs, hv⟩ := takeNat_eq_some htake
    split at h
    · rename_i j hlook
      cases h
      exact ⟨v, hv, hlook, hbs⟩
    · cases h

/-- The instruction is well formed, stands in the window and is written with those bits. -/
def Instr.IsWritten (i : Instr) (w : Window) (bs : Bits) : Prop := i.wf = true ∧ i.window = w ∧ encode i = bs

/-- A register whose table holds only values written as they are read. -/
theorem decodeReg_isWritten {n : Nat} {why : Reject} {look : Nat → Option Instr} {w : Window}
    (hlook : ∀ v i, v < 2 ^ n → look v = some i → i.IsWritten w (natBits n v)) {bs rest : Bits} {i : Instr}
    (h : decodeReg n why look bs = .ok (i, rest)) : ∃ v, i.IsWritten w v ∧ bs = v ++ rest := by
  obtain ⟨v, hv, hi, hbs⟩ := decodeReg_eq_ok h
  exact ⟨_, hlook v i hv hi, hbs⟩

theorem decodeCmd_isWritten (u : UnitId) {v : Nat} (hv : v < 2 ^ 8) : (decodeCmd u v).IsWritten (.cmd u) (natBits 8 v) := by
  unfold decodeCmd
  split_ifs with h0 h1 h2
  · exact ⟨rfl, rfl, by rw [h0]; rfl⟩
  · exact ⟨rfl, rfl, by rw [h1]; rfl⟩
  · exact ⟨rfl, rfl, by rw [h2]; rfl⟩
  · refine ⟨?_, rfl, natBits_toNat_ofNat hv⟩
    simp only [Instr.wf, BitVec.toNat_ofNat, Nat.mod_eq_of_lt hv, decide_eq_true_eq]
    omega

theorem decodeEncPhase_isWritten {v : Nat} {i : Instr} (h : decodeEncPhase v = some i) : i.IsWritten (.phase .enc) (natBits 4 v) := by
  unfold decodeEncPhase at h
  split at h <;> cases h <;> exact ⟨rfl, rfl, rfl⟩

theorem decodeDecPhase_isWritten {v : Nat} {i : Instr} (h : decodeDecPhase v = some i) : i.IsWritten (.phase .dec) (natBits 4 v) := by
  unfold decodeDecPhase at h
  split at h <;> cases h <;> exact ⟨rfl, rfl, rfl⟩

theorem decodeStatus_isWritten {u : UnitId} {v : Nat} {i : Instr} (h : decodeStatus u v = some i) : i.IsWritten (.status u) (natBits 8 v) := by
  unfold decodeStatus at h
  split at h <;> cases h <;> exact ⟨rfl, rfl, rfl⟩

theorem decodeErr_isWritten {u : UnitId} {v : Nat} {i : Instr} (h : decodeErr u v = some i) : i.IsWritten (.err u) (natBits 8 v) := by
  cases u with
  | enc =>
    rcases (decodeErr_enc_isSome v).1 (by simp [h]) with rfl | rfl | rfl <;> cases h <;> exact ⟨rfl, rfl, rfl⟩
  | dec =>
    simp only [decodeErr] at h
    split_ifs at h <;> subst v <;> cases h <;> exact ⟨rfl, rfl, rfl⟩

theorem decodeTok_isWritten {bs rest : Bits} {i : Instr} (h : decodeTok bs = .ok (i, rest)) :
    ∃ v, i.IsWritten .tok v ∧ bs = v ++ rest := by
  match bs with
  | [] => cases h
  | false :: bs =>
    cases h
    exact ⟨[false], ⟨rfl, rfl, rfl⟩, rfl⟩
  | true :: bs =>
    simp only [decodeTok] at h
    split at h
    · rename_i v rest' htake
      cases h
      obtain ⟨rfl, hv⟩ := takeNat_eq_some htake
      exact ⟨true :: natBits 8 v, ⟨rfl, rfl, congrArg (true :: ·) (natBits_toNat_ofNat hv)⟩, rfl⟩
    · cases h

theorem decodeWalk_isWritten {leaf : Bool} {bs rest : Bits} {i : Instr} (h : decodeWalk leaf bs = .ok (i, rest)) :
    ∃ v, i.IsWritten (.walk leaf) v ∧ bs = v ++ rest := by
  match bs with
  | [] => cases h
  | b :: bs =>
    cases h
    refine ⟨[b], ?_, rfl⟩
    cases leaf <;> cases b <;> exact ⟨rfl, rfl, rfl⟩

theorem decodeHdr_isWritten {bs rest : Bits} {i : Instr} (h : decodeHdr bs = .ok (i, rest)) :
    ∃ v, i.IsWritten .hdr v ∧ bs = v ++ rest := by
  unfold decodeHdr at h
  split at h
  · cases h
  · rename_i o bs1 htakeO
    split at h
    · cases h
    · rename_i t bs2 htakeT
      split at h
      · cases h
      · rename_i p bs3 htakeP
        cases h
        obtain ⟨rfl, ho⟩ := takeNat_eq_some htakeO
        obtain ⟨rfl, ht⟩ := takeNat_eq_some htakeT
        obtain ⟨rfl, hp⟩ := takeNat_eq_some htakeP
        refine ⟨natBits 64 o ++ (natBits 32 t ++ natBits 8 p), ⟨rfl, rfl, ?_⟩, by simp⟩
        simp only [encode, bin8, natBits_toNat_ofNat ho, natBits_toNat_ofNat ht, natBits_toNat_ofNat hp]

/-- Whatever the window, what is read there was written with the bits that were read. -/
theorem decode_isWritten {w : Window} {bs rest : Bits} {i : Instr} (h : decode w bs = .ok (i, rest)) :
    ∃ v, i.IsWritten w v ∧ bs = v ++ rest := by
  cases w with
  | cmd u =>
    refine decodeReg_isWritten (why := .truncated) (look := fun v => some (decodeCmd u v)) (fun v j hv hj => ?_) h
    cases hj
    exact decodeCmd_isWritten u hv
  | phase u =>
    cases u with
    | enc => exact decodeReg_isWritten (fun _ _ _ => decodeEncPhase_isWritten) h
    | dec => exact decodeReg_isWritten (fun _ _ _ => decodeDecPhase_isWritten) h
  | tok => exact decodeTok_isWritten h
  | walk leaf => exact decodeWalk_isWritten h
  | hdr => exact decodeHdr_isWritten h
  | status u => exact decodeReg_isWritten (fun _ _ _ => decodeStatus_isWritten) h
  | err u => exact decodeReg_isWritten (fun _ _ _ => decodeErr_isWritten) h

/-- Settles O16: `decode_isWritten`, window by window. -/
theorem encodeOfDecodeIsTheWord : Obligations.EncodeOfDecodeIsTheWord := by
  intro w bs rest i h
  obtain ⟨v, ⟨hwf, hwindow, rfl⟩, hbs⟩ := decode_isWritten h
  exact ⟨hwf, hwindow, hbs⟩

/-- Bits after an instruction do not change what is read. -/
theorem decode_append {w : Window} {bs rest : Bits} {i : Instr} (h : decode w bs = .ok (i, rest)) (more : Bits) :
    decode w (bs ++ more) = .ok (i, rest ++ more) := by
  obtain ⟨hwf, rfl, rfl⟩ := encodeOfDecodeIsTheWord w bs rest i h
  rw [List.append_assoc]
  exact decodeOfEncodeIsTheInstruction i (rest ++ more) hwf

/-- Settles O17: each word is decoded as it stands. -/
theorem wordsOfTheSpecDecode : Obligations.WordsOfTheSpecDecode :=
  ⟨rfl, rfl, rfl, rfl, rfl, rfl, rfl, rfl, rfl, rfl, rfl⟩

end Sys2Proof

namespace Sys2Proof.Machine

/-! ## The walk (rules R98 to R100, R225 to R227) -/

theorem Spells.head {d : Dec} {pos : Nat} {b : Bool} {w : Bits} (h : Spells d pos (b :: w)) : payloadBit d pos = b := h 0 (by simp)

theorem Spells.tail {d : Dec} {pos : Nat} {b : Bool} {w : Bits} (h : Spells d pos (b :: w)) : Spells d (pos + 1) w := fun k hk => by
  rw [Nat.add_assoc, Nat.add_comm 1 k]
  exact h (k + 1) (Nat.succ_lt_succ hk)

theorem passBit_of_lt {limit : Nat} (cause : ErrCode) {d : Dec} (h : d.bitpos < limit) :
    passBit limit cause d = .ok () { d with bitpos := d.bitpos + 1 } := if_neg (Nat.not_le.2 h)

theorem getBit_of_lt {limit : Nat} (cause : ErrCode) {d : Dec} (h : d.bitpos < limit) :
    getBit limit cause d = .ok (payloadBit d d.bitpos) { d with bitpos := d.bitpos + 1 } := by
  rw [getBit, passBit_of_lt cause h, Micro.bind_ok]

/-- Emitting a symbol after the walk has moved CUR and BITPOS: the last symbol of the message is followed by D_FINISH, any other leaves
PHASE (rule R227). WR does not wrap below ORIG_SIZE. -/
theorem emitSym_eq {d : Dec} (h : d.wr.toNat < d.origSize.toNat) (sym : Byte) (c : Handle) (pos : Nat) :
    emitSym sym { d with cur := c, bitpos := pos } = { d with
      cur := c
      bitpos := pos
      obuf := Memory.write d.obuf d.wr.toNat sym
      wr := d.wr + 1
      inSym := false
      ctl := { d.ctl with phase := if d.wr.toNat + 1 = d.origSize.toNat then 6 else d.ctl.phase } } := by
  have hlast : d.wr + 1 = d.origSize ↔ d.wr.toNat + 1 = d.origSize.toNat := by
    rw [← BitVec.toNat_inj, toNat_succ_of_lt h]
  simp only [emitSym, hlast]
  split <;> rfl

/-- The walk from CUR over the bits that lead to a Leaf emits it. The bits left before AVAIL bound the depth, so the walk never ends for
want of fuel. -/
theorem walkFrom_of_walk {tree : CodeTree} {w : Bits} {sym : Byte} {k : Nat} {d : Dec} (hreps : DecReps d.node d.cur tree)
    (hwalk : tree.walk w = some sym) (hbits : Spells d d.bitpos w) (havail : d.bitpos + w.length ≤ d.avail) (hk : w.length ≤ k) :
    ∃ c, decNode d.node c = .leaf sym ∧ walkFrom k d = .ok () (emitSym sym { d with cur := c, bitpos := d.bitpos + w.length }) := by
  induction w generalizing tree k d with
  | nil =>
    match tree with
    | .node l r => cases hwalk
    | .leaf s =>
      cases hwalk
      replace hreps : decNode d.node d.cur = .leaf sym := hreps
      exact ⟨d.cur, hreps, by cases k <;> simp [walkFrom, hreps]⟩
  | cons b w ih =>
    match tree with
    | .leaf s => cases hwalk
    | .node l r =>
      obtain ⟨x, y, hnode, hl, hr⟩ := hreps
      obtain ⟨k, rfl⟩ : ∃ k', k = k' + 1 := ⟨k - 1, by simp at hk; omega⟩
      simp only [List.length_cons] at havail hk
      have hchild : DecReps d.node (if b then y else x) (if b then r else l) := by cases b <;> assumption
      obtain ⟨c, hc, hrun⟩ := ih (tree := if b then r else l) (k := k)
        (d := { d with bitpos := d.bitpos + 1, cur := if b then y else x }) hchild (by cases b <;> exact hwalk) hbits.tail
        (by simp only; omega) (by omega)
      refine ⟨c, hc, ?_⟩
      rw [walkFrom, hnode]
      simp only [getBit_of_lt .dataTrunc (show d.bitpos < d.avail by omega), Micro.bind_ok, hbits.head, hrun, List.length_cons, Nat.add_assoc,
        Nat.add_comm 1]

/-- D_WALK from the root of a tree of two Leaves or more. -/
theorem walkSymbol_of_walk {l r : CodeTree} {w : Bits} {sym : Byte} {d : Dec} (hreps : DecReps d.node 0 (.node l r))
    (hwalk : (CodeTree.node l r).walk w = some sym) (hbits : Spells d d.bitpos w) (havail : d.bitpos + w.length ≤ d.avail) :
    ∃ c, decNode d.node c = .leaf sym ∧ walkSymbol d = .ok () (emitSym sym { d with cur := c, bitpos := d.bitpos + w.length }) := by
  obtain ⟨x, y, hroot, -, -⟩ := id hreps
  simp only [walkSymbol, hroot]
  exact walkFrom_of_walk (d := { d with cur := 0 }) hreps hwalk hbits havail (by omega)

/-- D_WALK over the one bit of a single Leaf, its value not examined (rule R226). -/
theorem walkSymbol_of_leaf {sym : Byte} {d : Dec} (hroot : decNode d.node 0 = .leaf sym) (h : d.bitpos < d.avail) :
    walkSymbol d = .ok () (emitSym sym { d with cur := 0, bitpos := d.bitpos + 1 }) := by
  simp only [walkSymbol, hroot, getBit_of_lt (d := { d with cur := 0 }) .dataTrunc h, Micro.bind_ok]

theorem anyBit_of_lt {d : Dec} (h : d.bitpos < d.avail) (sym : Byte) :
    anyBit sym d = .ok () (emitSym sym { d with cur := 0, bitpos := d.bitpos + 1 }) := by
  simp only [anyBit, passBit_of_lt (d := { d with cur := 0 }) .dataTrunc h, Micro.bind_ok]

theorem walkEdge_of_internal {right : Bool} {l r a b : Handle} {d : Dec} (h : d.bitpos < d.avail)
    (hchild : decNode d.node (if right then r else l) = .internal a b) :
    walkEdge right l r d = .ok () { d with cur := if right then r else l, bitpos := d.bitpos + 1, inSym := true } := by
  simp only [walkEdge, passBit_of_lt (d := { d with cur := standAt d }) .dataTrunc h, Micro.bind_ok, hchild]

theorem walkEdge_of_leaf {right : Bool} {l r : Handle} {sym : Byte} {d : Dec} (h : d.bitpos < d.avail)
    (hchild : decNode d.node (if right then r else l) = .leaf sym) :
    walkEdge right l r d = .ok () (emitSym sym { d with cur := if right then r else l, bitpos := d.bitpos + 1 }) := by
  simp only [walkEdge, passBit_of_lt (d := { d with cur := standAt d }) .dataTrunc h, Micro.bind_ok, hchild]

theorem exec_dWalk {s : State} (hroom : s.dec.wr.toNat < s.cfg.decOutCap) (hfits : windowFits s.cfg s.dec.avail = true) :
    exec .dWalk s = .next (s.setDec (settleDec (walkSymbol s.dec))) := if_pos ⟨hroom, hfits⟩

theorem exec_sAny {s : State} {sym : Byte} (hroom : s.dec.wr.toNat < s.cfg.decOutCap) (hroot : decNode s.dec.node 0 = .leaf sym) (x : Bool) :
    exec (.sAny x) s = .next (s.setDec (settleDec (anyBit sym s.dec))) := by
  simp only [exec, execSAny, if_pos hroom, hroot]

theorem walkBitAt_of_internal {s : State} {l r : Handle} (hroom : s.dec.wr.toNat < s.cfg.decOutCap)
    (hstand : decNode s.dec.node (standAt s.dec) = .internal l r) (right : Bool) :
    walkBitAt right s = .next (s.setDec (settleDec (walkEdge right l r s.dec))) := by
  simp only [walkBitAt, if_pos hroom, hstand]

/-- Settles O45: the walk from the root over the codeword, by induction on it. -/
theorem dWalkEmitsTheSymbol : Obligations.DWalkEmitsTheSymbol := by
  intro s l r w sym hreps hwalk hbits havail hfits hwr horig
  obtain ⟨c, hleaf, hrun⟩ := walkSymbol_of_walk hreps hwalk hbits havail
  refine ⟨_, exec_dWalk (hwr.trans_le horig) hfits, ?_⟩
  rw [hrun, settleDec_ok, emitSym_eq hwr]
  exact ⟨rfl, Memory.read_write_same .., fun a ha => Memory.read_write_other _ _ _ _ ha, hleaf⟩

/-- Settles O46: D_WALK and S_ANY emit the one symbol from the same state. -/
theorem singleLeafTakesOneBit : Obligations.SingleLeafTakesOneBit := by
  intro s sym x hroot havail hfits hwr horig
  have hroom := hwr.trans_le horig
  rw [exec_dWalk hroom hfits, exec_sAny hroom hroot, walkSymbol_of_leaf hroot havail, anyBit_of_lt havail, settleDec_ok, emitSym_eq hwr]
  exact ⟨_, rfl, rfl, rfl, Memory.read_write_same .., fun a ha => Memory.read_write_other _ _ _ _ ha⟩

/-- Settles O47: one edge, to an Internal node or to a Leaf. -/
theorem walkBitsFollowOneEdge : Obligations.WalkBitsFollowOneEdge := by
  intro s l r hstand havail hwr horig i c hi
  obtain ⟨right, hexec, rfl⟩ : ∃ right, exec i s = walkBitAt right s ∧ c = if right then r else l := by
    rcases hi with ⟨rfl, rfl⟩ | ⟨rfl, rfl⟩
    · exact ⟨false, rfl, rfl⟩
    · exact ⟨true, rfl, rfl⟩
  refine ⟨_, hexec.trans (walkBitAt_of_internal (hwr.trans_le horig) hstand right), fun a b hchild => ?_, fun sym hchild => ?_⟩
  · rw [walkEdge_of_internal havail hchild, settleDec_ok]
  · rw [walkEdge_of_leaf havail hchild, settleDec_ok, emitSym_eq hwr]
    exact ⟨rfl, Memory.read_write_same .., fun a ha => Memory.read_write_other _ _ _ _ ha⟩

end Sys2Proof.Machine

namespace Sys2Proof.Machine

/-! ## Tokens as steps of their own (rules R93 to R96, R165 to R169)

A Leaf that ends the right subtrees of several Internal nodes writes them innermost first, each with the node below it as its right child;
the outermost of them is the subtree that is handed on. -/

/-- The frames of Internal nodes that await their right subtrees, innermost first: each node with its left child. -/
def rightFrames (ps : List (Handle × Handle)) : List Frame := ps.map fun c => .needRight c.1 c.2

/-- NODE after the nodes `ps` have been closed, `h` being the innermost right child. -/
def closeNodes : List (Handle × Handle) → Handle → Vector DecNode 511 → Vector DecNode 511
  | [], _, v => v
  | c :: ps, h, v => closeNodes ps c.1 (v.set c.1.val (.internal c.2 h) c.1.isLt)

theorem giveNode_rightFrames (ps : List (Handle × Handle)) (st : List Frame) (h : Handle) (d : Dec) :
    giveNode (rightFrames ps ++ st) h d = giveNode st ((ps.map Prod.fst).getLastD h) { d with node := closeNodes ps h d.node } := by
  induction ps generalizing h d with
  | nil => rfl
  | cons c ps ih =>
    have hstep := giveNode_closes c ps st h d
    rw [rightFrames, hstep]
    exact (ih c.1 _).trans (by rw [List.map_cons, List.getLastD_cons]; rfl)

theorem closeNodes_other {ps : List (Handle × Handle)} {h g : Handle} (v : Vector DecNode 511) (hg : g ∉ ps.map Prod.fst) :
    decNode (closeNodes ps h v) g = decNode v g := by
  induction ps generalizing h v with
  | nil => rfl
  | cons c ps ih =>
    obtain ⟨hc, hps⟩ : g ≠ c.1 ∧ g ∉ ps.map Prod.fst := by simpa only [List.map_cons, List.mem_cons, not_or] using hg
    exact (ih _ hps).trans (decNode_set_other _ _ _ _ hc)

/-- Each closed node has its own left child, and the node below it, or the innermost right child, as its right one. -/
theorem closeNodes_closed {ps : List (Handle × Handle)} {h : Handle} (v : Vector DecNode 511) (hps : (ps.map Prod.fst).Nodup) {k : Nat}
    {p l x : Handle} (hp : ps[k]? = some (p, l)) (hx : (h :: ps.map Prod.fst)[k]? = some x) :
    decNode (closeNodes ps h v) p = .internal l x := by
  induction ps generalizing h v k with
  | nil => simp at hp
  | cons c ps ih =>
    obtain ⟨hc, hps⟩ := List.nodup_cons.1 hps
    cases k with
    | zero =>
      cases hp
      cases hx
      exact (closeNodes_other _ hc).trans (decNode_set_same ..)
    | succ k => exact ih _ hps hp hx

/-- The record a token takes is the one after those in use (rule R37). -/
theorem nextHandle_of_val {n : Fin 512} {h : Handle} (e : h.val = n.val) : ∃ m : Fin 512, nextHandle n = some (h, m) ∧ m.val = n.val + 1 := by
  have hlt : n.val < 511 := e ▸ h.isLt
  exact ⟨⟨n.val + 1, by omega⟩, (dif_pos hlt).trans (by simp [← e]), rfl⟩

theorem nextHandle_of_lt {n : Fin 512} (h : n.val < 511) : ∃ (g : Handle) (m : Fin 512), nextHandle n = some (g, m) :=
  ⟨_, _, dif_pos h⟩

section Token
variable {d : Dec} {h : Handle} {m : Fin 512} (hn : nextHandle d.nnode = some (h, m))
include hn

theorem tokInternal_of_room (hfit : d.bitpos + 1 ≤ d.treeBits.toNat) :
    tokInternal d = .ok () { d with nnode := m, bitpos := d.bitpos + 1, stack := .needLeft h :: d.stack } := by
  simp only [tokInternal, hn, passBits_eq_ite _ _ one_ne_zero, if_pos hfit, Micro.bind_ok]

theorem tokInternal_of_trunc (htrunc : d.treeBits.toNat < d.bitpos + 1) :
    tokInternal d = .raise .treeTrunc { d with nnode := m, bitpos := max d.bitpos d.treeBits.toNat } := by
  simp only [tokInternal, hn, passBits_eq_ite _ _ one_ne_zero, if_neg (Nat.not_le.2 htrunc), Micro.bind_raise]

theorem tokLeaf_of_trunc (sym : Byte) (htrunc : d.treeBits.toNat < d.bitpos + 9) :
    tokLeaf sym d = .raise .treeTrunc { d with nnode := m, bitpos := max d.bitpos d.treeBits.toNat } := by
  simp only [tokLeaf, hn, passBits_eq_ite _ _ (OfNat.ofNat_ne_zero 9), if_neg (Nat.not_le.2 htrunc), Micro.bind_raise]

/-- A T_LEAF whose bits fit writes its Leaf, closes the nodes whose right subtree it ends, and hands the outermost of them on. -/
theorem tokLeaf_of_room (sym : Byte) (hfit : d.bitpos + 9 ≤ d.treeBits.toNat) {ps : List (Handle × Handle)} {st : List Frame}
    (hstack : d.stack = rightFrames ps ++ st) :
    tokLeaf sym d = giveNode st ((ps.map Prod.fst).getLastD h) { d with
      nnode := m, bitpos := d.bitpos + 9, node := closeNodes ps h (d.node.set h.val (.leaf sym) h.isLt) } := by
  simp only [tokLeaf, hn, passBits_eq_ite _ _ (OfNat.ofNat_ne_zero 9), if_pos hfit, Micro.bind_ok, hstack, giveNode_rightFrames]

end Token

/-- Handles that fall from `h` on are closed over a fresh Leaf: the Leaf stays, the nodes are closed, and no other record changes. -/
theorem closeNodes_setLeaf {ps : List (Handle × Handle)} {h : Handle} (hps : (h :: ps.map Prod.fst).Pairwise (· > ·)) (v : Vector DecNode 511)
    (sym : Byte) :
    decNode (closeNodes ps h (v.set h.val (.leaf sym) h.isLt)) h = .leaf sym ∧
    (∀ (k : Nat) (p l x : Handle), ps[k]? = some (p, l) → (h :: ps.map Prod.fst)[k]? = some x →
      decNode (closeNodes ps h (v.set h.val (.leaf sym) h.isLt)) p = .internal l x) ∧
    ∀ g : Handle, g ∉ h :: ps.map Prod.fst → decNode (closeNodes ps h (v.set h.val (.leaf sym) h.isLt)) g = decNode v g := by
  obtain ⟨hh, hnodup⟩ := List.nodup_cons.1 (hps.imp fun hgt => ne_of_gt hgt)
  refine ⟨(closeNodes_other _ hh).trans (decNode_set_same ..), fun k p l x => closeNodes_closed _ hnodup, fun g hg => ?_⟩
  obtain ⟨hgh, hgps⟩ : g ≠ h ∧ g ∉ ps.map Prod.fst := by simpa only [List.mem_cons, not_or] using hg
  exact (closeNodes_other _ hgps).trans (decNode_set_other _ _ _ _ hgh)

theorem exec_tInternal (s : State) : exec .tInternal s = .next (s.setDec (settleDec (tokInternal s.dec))) := rfl

theorem exec_tLeaf (sym : Byte) (s : State) : exec (.tLeaf sym) s = .next (s.setDec (settleDec (tokLeaf sym s.dec))) := rfl

/-- Settles O43: no handle, too few bits, and the ways a token that fits can end. -/
theorem tokensTakeTheNextHandle : Obligations.TokensTakeTheNextHandle := by
  intro s sym
  refine ⟨fun hfull i hi => ?_, fun hlt hpos htrunc => ?_, fun hlt hpos htrunc => ?_, fun h hh hfit => ?_,
    fun h q ps st hh hps hfit hstack => ?_, fun h ps hh hps hend hstack => ?_, fun ps hlt hmore hstack => ?_⟩
  · have hn := nextHandle_eq_none.2 hfull
    rcases hi with rfl | rfl
    · exact ⟨_, exec_tInternal s, by simp only [tokInternal, hn]; exact ⟨rfl, rfl⟩⟩
    · exact ⟨_, exec_tLeaf sym s, by simp only [tokLeaf, hn]; exact ⟨rfl, rfl⟩⟩
  · obtain ⟨h, m, hn⟩ := nextHandle_of_lt hlt
    refine ⟨_, exec_tInternal s, ?_⟩
    rw [tokInternal_of_trunc hn htrunc, max_eq_right hpos]
    exact ⟨rfl, rfl⟩
  · obtain ⟨h, m, hn⟩ := nextHandle_of_lt hlt
    refine ⟨_, exec_tLeaf sym s, ?_⟩
    rw [tokLeaf_of_trunc hn sym htrunc, max_eq_right hpos]
    exact ⟨rfl, rfl⟩
  · obtain ⟨m, hn, hm⟩ := nextHandle_of_val hh
    refine ⟨_, exec_tInternal s, ?_⟩
    rw [tokInternal_of_room hn hfit]
    exact ⟨hm, rfl⟩
  · obtain ⟨m, hn, hm⟩ := nextHandle_of_val hh
    refine ⟨_, exec_tLeaf sym s, ?_⟩
    rw [tokLeaf_of_room hn sym hfit hstack]
    exact ⟨hm, rfl, closeNodes_setLeaf hps s.dec.node sym⟩
  · obtain ⟨m, hn, hm⟩ := nextHandle_of_val hh
    refine ⟨_, exec_tLeaf sym s, ?_⟩
    rw [tokLeaf_of_room hn sym hend.le (hstack.trans (List.append_nil _).symm), giveNode, finishTree, if_neg (not_not.2 hend)]
    exact ⟨hm, rfl, closeNodes_setLeaf hps s.dec.node sym⟩
  · obtain ⟨h, m, hn⟩ := nextHandle_of_lt hlt
    refine ⟨_, exec_tLeaf sym s, ?_⟩
    rw [tokLeaf_of_room hn sym hmore.le (hstack.trans (List.append_nil _).symm), giveNode, finishTree, if_pos hmore.ne]
    exact ⟨rfl, rfl⟩

end Sys2Proof.Machine

namespace Sys2Proof.Machine

/-! ## Reads of the registers (rules R109, R251, R252) -/

theorem txnJob_pickAgent (s : State) (u : UnitId) (t : Txn) : txnJob (pickAgent s).2 u t = txnJob s u t := by
  obtain ⟨l, a, e⟩ := pickAgent_eq s
  rw [e]
  cases u <;> rfl

/-- The host presents its next transaction when its port is free, and a read of STATUS always (rules R251, R261). -/
theorem step_host_txn {s : State} {u : UnitId} {t : Txn} {l : List HostEvent} (ha : (pickAgent s).1 = .host) (hscript : s.script = .txn u t :: l)
    (hfree : (s.port u).held = none ∨ t = .csrRead 1) : step s = perform (txnJob s u t) ((pickAgent s).2.setScript l) := by
  simp only [step, ha, fetch, pickAgent_script, hscript, pickAgent_port, if_pos hfree, txnJob_pickAgent]

/-- STATUS as the host reads it (rules R23, R109). -/
theorem statusWord_eq (r : RunState) : statusWord r = match r with | .idle => 0x00 | .busy => 0x01 | .done => 0x02 | .error => 0x03 := by
  cases r <;> rfl

theorem setScript_port (s : State) (l : List HostEvent) (u : UnitId) : (s.setScript l).port u = s.port u := by cases u <;> rfl

theorem respond_eq (s : State) (u : UnitId) (v : ReadData) : s.respond u v = s.setPort u { s.port u with rdata := some v } := rfl

/-- The job of each read of a register that is accepted: the port returns the register, and nothing else is done. -/
theorem txnJob_csrRead {s t : State} {u : UnitId} {idx : Nat} (ht : t.ctl u = s.ctl u)
    (h : idx = 1 ∨ ((s.ctl u).state ≠ .busy ∧ CtlOk u (s.ctl u) ∧ (idx = 2 ∨ idx = 3 ∨ idx = 4))) :
    perform (txnJob s u (.csrRead idx)) t = .next (t.respond u
      (if idx = 1 then .byte (statusWord (s.ctl u).state)
        else if idx = 2 then .word (s.ctl u).inLen
        else if idx = 3 then .word (s.ctl u).outLen
        else .byte (errWord (s.ctl u).errCode))) := by
  rcases h with rfl | ⟨hn, hok, rfl | rfl | rfl⟩
  · obtain ⟨i, hdec, hexec⟩ := decode_statusWord u (s.ctl u).state
    simp [txnJob, admitted, hdec, jobOf, perform, hexec, returnStatus]
  · rw [← ht] at hn ⊢
    simp [txnJob, admitted, perform, portAccess, whenFree_of_not_busy hn, portEffect]
  · rw [← ht] at hn ⊢
    simp [txnJob, admitted, perform, portAccess, whenFree_of_not_busy hn, portEffect]
  · obtain ⟨i, hdec, hexec⟩ := decode_errWord hok.cause
    rw [← ht] at hn
    simp [txnJob, admitted, hdec, jobOf, perform, hexec, returnErr_of_not_busy hn, respond_eq]

/-- Settles O8: the host's step is the job of the read, and answering changes what the port returns alone. -/
theorem registerReadsReturnTheRegister : Obligations.RegisterReadsReturnTheRegister := by
  intro u rest s idx ha hscript h
  have hfree : (s.port u).held = none ∨ Txn.csrRead idx = .csrRead 1 := h.elim (fun hidx => .inr (congrArg _ hidx)) fun h => .inl h.1
  have hctl : ((pickAgent s).2.setScript rest).ctl u = s.ctl u := by cases u <;> simp [State.ctl]
  have hport : ((pickAgent s).2.setScript rest).port u = s.port u := by rw [setScript_port, pickAgent_port]
  refine ⟨_, (step_host_txn ha hscript hfree).trans (txnJob_csrRead hctl (h.imp_right And.right)), ?_⟩
  rw [respond_eq, State.setPort_port_same, hport, statusWord_eq]
  exact ⟨rfl, rfl, rfl, rfl⟩

end Sys2Proof.Machine

namespace Sys2Proof.Machine

/-! ## A placed word (notes/assumptions/10.md)

`placeWord` puts the bits of a window where the next step reads that window. For each window that `tableWindow` picks, the bits read there
are the bits placed, so the job of the next step is the instruction they decode to. -/

/-! ### Bits placed in the payload -/

theorem getLsbD_setBit (b : Byte) (v : Bool) {k j : Nat} (hj : j < 8) :
    (setBit b k v).getLsbD j = if j = k then v else b.getLsbD j := by
  have hone : ((1 : Byte) <<< k).getLsbD j = decide (j = k) := by
    have hbit : BitVec.getLsbD (1 : Byte) (j - k) = decide (j - k = 0) := BitVec.getLsbD_one
    rw [BitVec.getLsbD_shiftLeft, hbit, Bool.eq_iff_iff]
    simp only [Bool.and_eq_true, Bool.not_eq_true', decide_eq_true_eq, decide_eq_false_iff_not]
    omega
  cases v with
  | false =>
    rw [setBit, if_neg Bool.false_ne_true, BitVec.getLsbD_and, BitVec.getLsbD_not, hone]
    by_cases h : j = k <;> simp [h, hj]
  | true =>
    rw [setBit, if_pos rfl, BitVec.getLsbD_or, hone]
    by_cases h : j = k <;> simp [h]

/-- IBUF after one payload bit has been placed. -/
def placeBit (m : Memory) (pos : Nat) (b : Bool) : Memory :=
  Memory.write m (13 + pos / 8) (setBit ((Memory.read m (13 + pos / 8)).getD 0) (7 - pos % 8) b)

theorem placeBits_cons (m : Memory) (pos : Nat) (b : Bool) (bs : Bits) : placeBits m pos (b :: bs) = placeBits (placeBit m pos b) (pos + 1) bs := rfl

theorem payloadBit_placeBit_same (d : Dec) (pos : Nat) (b : Bool) :
    payloadBit { d with ibuf := placeBit d.ibuf pos b } pos = b := by
  simp only [payloadBit, cellByte, placeBit, Memory.read_write_same, Option.getD_some]
  rw [getLsbD_setBit _ _ (by omega), if_pos rfl]

theorem read_placeBit_isSome {m : Memory} {k : Nat} (h : (Memory.read m k).isSome = true) (pos : Nat) (b : Bool) :
    (Memory.read (placeBit m pos b) k).isSome = true := by
  rw [placeBit, Memory.read_write]
  split
  · rfl
  · exact h

/-- A bit of a written cell keeps its value when another bit is placed. -/
theorem payloadBit_placeBit_other {d : Dec} {j pos : Nat} (hj : (Memory.read d.ibuf (13 + j / 8)).isSome = true) (hne : j ≠ pos) (b : Bool) :
    payloadBit { d with ibuf := placeBit d.ibuf pos b } j = payloadBit d j := by
  simp only [payloadBit, cellByte, placeBit, Memory.read_write]
  split
  · rename_i hcell
    obtain ⟨x, hx⟩ := Option.isSome_iff_exists.1 hj
    rw [← hcell, hx]
    simp only [Option.getD_some]
    rw [getLsbD_setBit _ _ (by omega), if_neg (by omega)]
  · rfl

/-- Placing bits leaves the bits before them in written cells. -/
theorem payloadBit_placeBits_before {d : Dec} {j pos : Nat} (hj : (Memory.read d.ibuf (13 + j / 8)).isSome = true) (hlt : j < pos) (bs : Bits) :
    payloadBit { d with ibuf := placeBits d.ibuf pos bs } j = payloadBit d j := by
  induction bs generalizing d pos with
  | nil => rfl
  | cons b bs ih =>
    rw [placeBits_cons]
    exact (ih (d := { d with ibuf := placeBit d.ibuf pos b }) (read_placeBit_isSome hj pos b) (by omega)).trans
      (payloadBit_placeBit_other hj (by omega) b)

/-- Bits placed at a position are what the payload spells there. -/
theorem spells_placeBits (d : Dec) (pos : Nat) (bs : Bits) : Spells { d with ibuf := placeBits d.ibuf pos bs } pos bs := by
  induction bs generalizing d pos with
  | nil => exact fun k hk => absurd hk (Nat.not_lt_zero k)
  | cons b bs ih =>
    intro k hk
    rw [placeBits_cons]
    cases k with
    | zero =>
      have hcell : (Memory.read (placeBit d.ibuf pos b) (13 + pos / 8)).isSome = true := by
        rw [placeBit, Memory.read_write_same]
        rfl
      exact (payloadBit_placeBits_before (d := { d with ibuf := placeBit d.ibuf pos b }) hcell (Nat.lt_succ_self pos) bs).trans
        (payloadBit_placeBit_same d pos b)
    | succ k =>
      have h := ih { d with ibuf := placeBit d.ibuf pos b } (pos + 1) k (Nat.lt_of_succ_lt_succ hk)
      rwa [Nat.add_assoc, Nat.add_comm 1 k] at h

/-- The bits read up to a limit are those the payload spells, and then zeros. -/
theorem streamBits_of_spells {d : Dec} {pos n : Nat} {w : Bits} (h : Spells d pos w) (hn : w.length ≤ n) :
    streamBits d (pos + w.length) n pos = w ++ List.replicate (n - w.length) false := by
  induction w generalizing pos n with
  | nil =>
    have hpast : ∀ j, pos ≤ j → streamBits d pos n j = List.replicate n false := by
      induction n with
      | zero => exact fun _ _ => rfl
      | succ n ih =>
        intro j hj
        rw [streamBits, ih (Nat.zero_le _) (j + 1) (by omega), decide_eq_false (by omega), Bool.false_and, List.replicate_succ]
    exact hpast pos le_rfl
  | cons b w ih =>
    obtain ⟨n, rfl⟩ : ∃ n', n = n' + 1 := ⟨n - 1, by simp at hn; omega⟩
    have hrest := ih h.tail (Nat.le_of_succ_le_succ hn)
    rw [Nat.add_assoc, Nat.add_comm 1] at hrest
    rw [streamBits, h.head, List.length_cons, hrest, decide_eq_true (by omega), Bool.true_and, Nat.add_sub_add_right, List.cons_append]

/-- Bytes stored from an address on are read back there. -/
theorem cellBytes_writeBytes (u : UnitId) (ep : Nat) (m : Memory) (k : Nat) (bs : List Byte) :
    cellBytes u ep (Memory.writeBytes m k bs) k bs.length = bs := by
  induction bs generalizing m k with
  | nil => rfl
  | cons b bs ih =>
    have hfirst : Memory.read (Memory.writeBytes (Memory.write m k b) (k + 1) bs) k = some b := by
      rw [Memory.read_writeBytes, if_neg (by omega), Memory.read_write_same]
    rw [List.length_cons, cellBytes, Memory.writeBytes, ih, cellByte, hfirst, Option.getD_some]

theorem natBits_ofBits_of_length {n : Nat} {bs : Bits} (h : bs.length = n) : natBits n (ofBits bs) = bs := h ▸ natBits_ofBits bs

/-- 13 header bytes stored at address 0 are the header DEC reads (rules R72, R91). -/
theorem headerBits_writeBytes (d : Dec) {bs : Bits} (h : bs.length = 104) :
    headerBits { d with ibuf := Memory.writeBytes d.ibuf 0 (beBytes 13 (ofBits bs)) } = bs := by
  have hcells := cellBytes_writeBytes .dec d.epoch d.ibuf 0 (beBytes 13 (ofBits bs))
  rw [beBytes_length] at hcells
  rw [headerBits, hcells, bytesBits_beBytes, natBits_ofBits_of_length h]

/-! ### The job of the next step -/

/-- The next step of the state runs the instruction. -/
def RunsNext (s : State) (i : Instr) : Prop := (fetch (pickAgent s).1 (pickAgent s).2).1 = .run i

theorem RunsNext.step_eq {s : State} {i : Instr} (h : RunsNext s i) : step s = exec i (fetch (pickAgent s).1 (pickAgent s).2).2 := by
  rw [step, h]
  rfl

/-- A unit whose turn it is runs what its job decodes. -/
theorem runsNext_enc {s : State} {w : Window} {bs rest : Bits} {i : Instr} (ha : (pickAgent s).1 = .unit .enc)
    (hjob : encJob s = jobOf .enc (decode w bs)) (hdec : decode w bs = .ok (i, rest)) : RunsNext s i := by
  rw [RunsNext, ha]
  simp only [fetch, encJob_pickAgent, hjob, hdec, jobOf]

theorem runsNext_dec {s : State} {w : Window} {bs rest : Bits} {i : Instr} (ha : (pickAgent s).1 = .unit .dec)
    (hjob : decJob s = jobOf .dec (decode w bs)) (hdec : decode w bs = .ok (i, rest)) : RunsNext s i := by
  rw [RunsNext, ha]
  simp only [fetch, decJob_pickAgent, hjob, hdec, jobOf]

/-- A transaction placed at a free port is the next job. -/
theorem fetch_placeTxn (u : UnitId) (t : Txn) (s : State) :
    (fetch (pickAgent (placeTxn u t s)).1 (pickAgent (placeTxn u t s)).2).1 = txnJob s u t := by
  have hjob : txnJob (pickAgent (placeTxn u t s)).2 u t = txnJob s u t := by
    rw [txnJob_pickAgent]
    cases u <;> rfl
  rw [← hjob]
  exact congrArg Prod.fst (if_pos (.inl (by cases u <;> rfl)))

theorem runsNext_cmd {u : UnitId} {bs rest : Bits} {i : Instr} (hlen : bs.length = 8) (hdec : decode (.cmd u) bs = .ok (i, rest)) (s : State) :
    RunsNext (placeWord (.cmd u) bs s) i := by
  have hv : ofBits bs < 2 ^ 8 := hlen ▸ ofBits_lt bs
  rw [← natBits_ofBits_of_length hlen, decode_cmd u hv] at hdec
  cases hdec
  exact (fetch_placeTxn ..).trans (txnJob_command hv)

theorem runsNext_phase {u : UnitId} {bs rest : Bits} {i : Instr} (hlen : bs.length = 4) (hdec : decode (.phase u) bs = .ok (i, rest))
    (s : State) : RunsNext (placeWord (.phase u) bs s) i := by
  have hv : ofBits bs < 2 ^ 4 := hlen ▸ ofBits_lt bs
  have hword : natBits 4 (BitVec.ofNat 4 (ofBits bs)).toNat = bs := (natBits_toNat_ofNat hv).trans (natBits_ofBits_of_length hlen)
  rw [← hword] at hdec
  cases u with
  | enc => exact runsNext_enc rfl (encJob_of_busy rfl) hdec
  | dec => exact runsNext_dec rfl (decJob_phase rfl nofun) hdec

/-- ERRCODE holds the value that was placed, if it is one of DEC's (rule R281). -/
theorem errWord_errOfWord {v : Nat} (h : (decodeErr .dec v).isSome = true) : (errWord (errOfWord v)).toNat = v := by
  rcases (decodeErr_dec_isSome v).1 h with rfl | ⟨hge, hle⟩ | rfl | rfl
  · rfl
  · interval_cases v <;> rfl
  · rfl
  · rfl

theorem runsNext_err {bs rest : Bits} {i : Instr} (hlen : bs.length = 8) (hdec : decode (.err .dec) bs = .ok (i, rest)) (s : State) :
    RunsNext (placeWord (.err .dec) bs s) i := by
  have hword : bin8 (errWord (errOfWord (ofBits bs))) = bs := by
    obtain ⟨v, hv, hlook, rfl⟩ := decodeReg_eq_ok hdec
    obtain rfl : rest = [] := by simpa using hlen
    rw [List.append_nil, ofBits_natBits hv, bin8, errWord_errOfWord (by simp [hlook])]
  refine (fetch_placeTxn ..).trans ?_
  rw [← hword] at hdec
  simp [txnJob, admitted, hdec, jobOf]

theorem runsNext_tok {s : State} {bs rest : Bits} {i : Instr} (hlen : bs.length ≤ 9) (hdec : decode .tok bs = .ok (i, rest))
    (hwidth : s.dec.bitpos + bs.length < 2 ^ 32) (hfits : windowFits s.cfg (s.dec.bitpos + bs.length) = true) :
    RunsNext (placeWord .tok bs s) i := by
  have htree : (placeWord .tok bs s).dec.treeBits.toNat = s.dec.bitpos + bs.length := Nat.mod_eq_of_lt hwidth
  have hspells : Spells (placeWord .tok bs s).dec s.dec.bitpos bs := spells_placeBits s.dec s.dec.bitpos bs
  have hword : tokenBits (placeWord .tok bs s).dec = bs ++ List.replicate (9 - bs.length) false := by
    rw [tokenBits, htree]
    exact streamBits_of_spells hspells hlen
  refine runsNext_dec rfl (decJob_tree rfl rfl rfl (htree ▸ hfits)) (rest := rest ++ List.replicate (9 - bs.length) false) ?_
  rw [hword]
  exact decode_append hdec _

theorem runsNext_walk {s : State} {bs rest : Bits} {i : Instr} {leaf : Bool} (hlen : bs.length = 1)
    (hdec : decode (.walk leaf) bs = .ok (i, rest)) (hfits : windowFits s.cfg (s.dec.bitpos + 1) = true) :
    RunsNext (placeWord (.walk leaf) bs s) i := by
  have hroot : rootIsLeaf (placeWord (.walk leaf) bs s).dec = leaf := by
    cases leaf with
    | false => exact rootIsLeaf_of_internal (decNode_set_same s.dec.node 0 (.internal 1 2))
    | true => exact rootIsLeaf_of_leaf (decNode_set_same s.dec.node 0 (.leaf 0))
  have hspells : Spells (placeWord (.walk leaf) bs s).dec s.dec.bitpos bs := spells_placeBits s.dec s.dec.bitpos bs
  have hword : walkBit (placeWord (.walk leaf) bs s).dec = bs := by
    have h := streamBits_of_spells hspells hlen.le
    rw [hlen] at h
    exact h.trans (List.append_nil bs)
  refine runsNext_dec rfl (decJob_walk rfl rfl rfl hfits) (rest := rest) ?_
  rw [hroot, hword]
  exact hdec

theorem runsNext_hdr {s : State} {bs rest : Bits} {i : Instr} (hlen : bs.length = 104) (hdec : decode .hdr bs = .ok (i, rest))
    (hcap : 13 ≤ s.cfg.decInCap) : RunsNext (placeWord .hdr bs s) i := by
  have hword : headerBits (placeWord .hdr bs s).dec = bs := headerBits_writeBytes s.dec hlen
  exact runsNext_dec rfl (decJob_header rfl rfl rfl hcap) (hword.symm ▸ hdec)

/-! ### The windows of a bare word -/

/-- The windows picked for a bare word, with the number of bits placed in each. -/
theorem tableWindow_cases {nbits w : Nat} {win : Window} {bs : Bits} (h : tableWindow nbits w = some (win, bs)) :
    (win = .cmd .enc ∧ bs.length = 8) ∨ (win = .phase .enc ∧ bs.length = 4) ∨ (win = .err .dec ∧ bs.length = 8) ∨
    (win = .tok ∧ bs.length ≤ 9) ∨ (win = .hdr ∧ bs.length = 104) ∨ (win = .walk false ∧ bs.length = 1) := by
  unfold tableWindow at h
  split_ifs at h <;> cases h <;> simp

theorem decodeTableWord_eq_some {nbits w : Nat} {i : Instr} (h : decodeTableWord nbits w = some i) :
    ∃ win bs rest, tableWindow nbits w = some (win, bs) ∧ decode win bs = .ok (i, rest) := by
  unfold decodeTableWord at h
  split at h
  · cases h
  · rename_i win bs hwin
    split at h
    · rename_i j rest hdec
      cases h
      exact ⟨win, bs, rest, hwin, hdec⟩
    · cases h

/-- Settles O14: the window picked for the word is read back by the step that follows. -/
theorem placedTableWordIsFetched : Obligations.PlacedTableWordIsFetched := by
  intro nbits w i _ hword
  obtain ⟨win, bs, rest, hwin, hdec⟩ := decodeTableWord_eq_some hword
  have hplace : State.reset.withFetchWord nbits w = placeWord win bs State.reset := by rw [State.withFetchWord, hwin]
  have hruns : RunsNext (placeWord win bs State.reset) i := by
    rcases tableWindow_cases hwin with ⟨rfl, hlen⟩ | ⟨rfl, hlen⟩ | ⟨rfl, hlen⟩ | ⟨rfl, hlen⟩ | ⟨rfl, hlen⟩ | ⟨rfl, hlen⟩
    · exact runsNext_cmd hlen hdec _
    · exact runsNext_phase hlen hdec _
    · exact runsNext_err hlen hdec _
    · have hpos : State.reset.dec.bitpos = 0 := rfl
      have hcap : State.reset.cfg.decInCap = 1333 := rfl
      exact runsNext_tok hlen hdec (by omega) (by simp only [windowFits, hcap, decide_eq_true_eq]; omega)
    · exact runsNext_hdr hlen hdec (by decide)
    · exact runsNext_walk hlen hdec (by decide)
  rw [hplace]
  exact ⟨hruns, hruns.step_eq⟩

end Sys2Proof.Machine

namespace Sys2Proof.Machine

/-! ## The frequency counter (rules R131 to R134) -/

theorem countByte_rd (e : Enc) : (countByte e).rd = e.rd + 1 := rfl

theorem freqOf_countByte (e : Enc) (b : Byte) :
    freqOf (countByte e) b = if b = cellByte .enc e.epoch e.ibuf e.rd.toNat then freqOf e b + 1 else freqOf e b := by
  simp only [freqOf, countByte, Vector.getElem_set, BitVec.toNat_inj, eq_comm (a := b)]
  split
  · next h => rw [h]
  · rfl

theorem countByte_ctl {e : Enc} (hrd : e.rd.toNat < e.ctl.inLen.toNat) :
    (countByte e).ctl = { e.ctl with phase := if e.rd.toNat + 1 = e.ctl.inLen.toNat then 3 else e.ctl.phase } := by
  have hlast : e.rd + 1 = e.ctl.inLen ↔ e.rd.toNat + 1 = e.ctl.inLen.toNat := by rw [← BitVec.toNat_inj, toNat_succ_of_lt hrd]
  simp only [countByte, hlast]
  split <;> rfl

theorem exec_eCount {s : State} (hcell : s.enc.rd.toNat < s.cfg.encInCap) : exec .eCount s = .next (s.setEnc (countByte s.enc)) := if_pos hcell

/-- Settles O20: the step is `countByte`, which counts the byte its read of the cell gives. -/
theorem eCountCountsOneByte : Obligations.ECountCountsOneByte := by
  intro s hrd hcap
  refine ⟨_, exec_eCount (hrd.trans_le hcap), ?_, freqOf_countByte s.enc, fun b hb => ?_⟩
  · rw [State.setEnc_enc, ← countByte_ctl hrd]
    rfl
  · have hcell : cellByte .enc s.enc.epoch s.enc.ibuf s.enc.rd.toNat = b := by rw [cellByte, hb, Option.getD_some]
    rw [State.setEnc_enc, freqOf_countByte, hcell, if_pos rfl]

/-! ### The whole message -/

/-- ENC in E_COUNT after `k` bytes of the message: the counters hold the counts of its first `k` bytes (rule R132). -/
structure Counted (msg : List Byte) (k : Nat) (e : Enc) : Prop where
  inLen_eq : e.ctl.inLen.toNat = msg.length
  holds : Holds e.ibuf msg
  rd_eq : e.rd.toNat = k
  phase_eq : e.ctl.phase = if k = msg.length then 3 else 2
  freq_eq : ∀ b, (freqOf e b).toNat = (msg.take k).count b

/-- One byte more; no counter wraps (rule R133), being at most the bytes counted, fewer than IN_LEN. -/
theorem Counted.next {msg : List Byte} {k : Nat} {e : Enc} (h : Counted msg k e) (hk : k < msg.length) :
    Counted msg (k + 1) (countByte e) := by
  obtain ⟨hlen, hholds, hrd, hphase, hfreq⟩ := h
  have hlt : e.rd.toNat < e.ctl.inLen.toNat := by omega
  have hctl := countByte_ctl hlt
  refine ⟨by rw [hctl, hlen], hholds, by rw [countByte_rd, toNat_succ_of_lt hlt, hrd], ?_, fun b => ?_⟩
  · rw [hctl, hphase, hrd, hlen, if_neg hk.ne]
  · have hcell : cellByte .enc e.epoch e.ibuf e.rd.toNat = msg[k] := by rw [cellByte, hrd, hholds k hk, Option.getD_some]
    have hcount : (msg.take (k + 1)).count b = (msg.take k).count b + if msg[k] = b then 1 else 0 := by
      rw [List.take_succ_eq_append_getElem hk, List.count_append, List.count_singleton]
      simp only [beq_iff_eq]
    have hsmall : (freqOf e b).toNat < e.ctl.inLen.toNat := by
      have : (msg.take k).count b ≤ k := List.count_le_length.trans (List.length_take_le k msg)
      rw [hfreq b]
      omega
    rw [freqOf_countByte, hcell, hcount, ← hfreq b]
    by_cases hb : b = msg[k]
    · rw [if_pos hb, if_pos hb.symm, toNat_succ_of_lt hsmall]
    · rw [if_neg hb, if_neg (Ne.symm hb), Nat.add_zero]

theorem Counted.iterate {msg : List Byte} {e : Enc} (h : Counted msg 0 e) {k : Nat} (hk : k ≤ msg.length) :
    Counted msg k (countByte^[k] e) := by
  induction k with
  | zero => exact h
  | succ k ih =>
    rw [Function.iterate_succ_apply']
    exact (ih (by omega)).next hk

/-- Settles O21: `Counted` holds at the start and one more byte keeps it, so it holds after each prefix of the message. -/
theorem countingGivesTheByteFrequencies : Obligations.CountingGivesTheByteFrequencies := by
  intro cfg e msg _ hne _ hlen hholds hrd hphase hfreq
  have hstart : Counted msg 0 e :=
    { inLen_eq := hlen
      holds := hholds
      rd_eq := by rw [hrd]; rfl
      phase_eq := by rw [hphase, if_neg (Ne.symm (mt List.length_eq_zero_iff.1 hne))]
      freq_eq := fun b => by rw [hfreq b]; rfl }
  have hend := hstart.iterate le_rfl
  refine ⟨fun b => ?_, BitVec.eq_of_toNat_eq (hend.rd_eq.trans hlen.symm), ?_, fun k hk => ?_⟩
  · rw [hend.freq_eq, List.take_length]
  · rw [hend.phase_eq, if_pos rfl]
  · rw [(hstart.iterate hk.le).phase_eq, if_neg hk.ne]

end Sys2Proof.Machine

namespace Sys2Proof.Machine

/-! ## The tree builder (rules R141 to R147) -/

/-! ### ExtractMin (rule R142) -/

theorem extractMin_singleton (cfg : Config) (nodes : Vector EncNode 511) (h : Handle) : extractMin cfg nodes [h] = some (h, []) := by
  simp [extractMin, firstOf]

/-- The first of a list is each of its members or comes before it. -/
theorem firstOf_first (cfg : Config) (nodes : Vector EncNode 511) (best : Handle) (q : List Handle) :
    ∀ h ∈ best :: q, firstOf cfg nodes best q = h ∨ comesBefore cfg nodes (firstOf cfg nodes best q) h = true := by
  induction q generalizing best with
  | nil => simp [firstOf]
  | cons g q ih =>
    simp only [firstOf, List.forall_mem_cons]
    split
    · next hlt =>
      obtain ⟨hg, hq⟩ := List.forall_mem_cons.1 (ih g)
      exact ⟨.inr (hg.elim (fun e => by rwa [e]) fun hc => comesBefore_trans hc hlt), hg, hq⟩
    · next hge =>
      obtain ⟨hb, hq⟩ := List.forall_mem_cons.1 (ih best)
      refine ⟨hb, ?_, hq⟩
      by_cases hne : best = g
      · exact hne ▸ hb
      · have hbg := (comesBefore_total hne).resolve_right hge
        exact .inr (hb.elim (fun e => by rwa [e]) fun hc => comesBefore_trans hc hbg)

/-- The extracted handle is each member of the queue or comes before it. -/
theorem extractMin_first {cfg : Config} {nodes : Vector EncNode 511} {q q' : List Handle} {a : Handle}
    (h : extractMin cfg nodes q = some (a, q')) : ∀ g ∈ q, a = g ∨ comesBefore cfg nodes a g = true := by
  cases q with
  | nil => simp
  | cons b q =>
    obtain ⟨rfl, -⟩ : firstOf cfg nodes b q = a ∧ _ := by simpa [extractMin] using h
    exact firstOf_first cfg nodes b q

/-- A queue of one handle or more has a first one; the queue is that handle and the rest, in another order. -/
theorem extractMin_of_length (cfg : Config) (nodes : Vector EncNode 511) {q : List Handle} {n : Nat} (hlen : q.length = n + 1) :
    ∃ a q', extractMin cfg nodes q = some (a, q') ∧ q.Perm (a :: q') ∧ q'.Sublist q ∧ q'.length = n := by
  cases hex : extractMin cfg nodes q with
  | none => simp [extractMin_eq_none.1 hex] at hlen
  | some aq =>
    obtain ⟨a, q'⟩ := aq
    obtain ⟨ha, hsub, hlen'⟩ := extractMin_sublist hex
    exact ⟨a, q', rfl, (extractMin_eq_some hex).2 ▸ List.perm_cons_erase ha, hsub, by omega⟩

/-- On the default TIEBREAK a handle's rank is the handle. -/
theorem tieOf_default {cfg : Config} (h : cfg.tieRank = []) (g : Handle) : tieOf cfg g = g.val := by
  simp [tieOf, h]

/-- Settles O23: `firstOf` goes down a strict total order, and `erase` takes out the one copy of its answer. -/
theorem extractMinGivesTheFirst : Obligations.ExtractMinGivesTheFirst := by
  intro cfg nodes q hnodup hne
  cases hex : extractMin cfg nodes q with
  | none => exact absurd (extractMin_eq_none.1 hex) hne
  | some aq =>
    obtain ⟨a, q'⟩ := aq
    have hfirst := extractMin_first hex
    obtain ⟨ha, -, hlen⟩ := extractMin_sublist hex
    have hmem : ∀ h, h ∈ q' ↔ h ∈ q ∧ h ≠ a := fun h => by
      rw [(extractMin_eq_some hex).2, hnodup.mem_erase_iff, and_comm]
    refine ⟨a, q', rfl, ha, hmem, hlen, fun h hh => ?_, fun hd h => tieOf_default hd h⟩
    obtain ⟨hq, hna⟩ := (hmem h).1 hh
    have hbefore := (comesBefore_iff cfg nodes a h).1 ((hfirst h hq).resolve_left (Ne.symm hna))
    rw [Fin.lt_def]
    omega

/-! ### E_ROOT (rule R145) -/

/-- Settles O26: the last handle is the first of its queue. -/
theorem eRootTakesTheLastHandle : Obligations.ERootTakesTheLastHandle := by
  intro s h hpq
  have hroot : takeRoot s.cfg s.enc = { s.enc with root := h, pq := [], ctl := gotoPhase phECodegen s.enc.ctl } := by
    rw [takeRoot, hpq, extractMin_singleton]
  exact congrArg (fun e => Host.Outcome.next (s.setEnc e)) hroot

/-! ### E_MERGE (rule R143) -/

/-- ENC after `a` and `b` have got the Internal record `g` over them, which joins the queue `q` of the others (rule R143). -/
def joinNodes (e : Enc) (a b g : Handle) (m : Fin 512) (q : List Handle) : Enc :=
  { e with
    node := e.node.set g.val (.internal (nodeFreq (encNode e.node a) + nodeFreq (encNode e.node b)) a b) g.isLt
    nnode := m
    pq := queueInsert g q }

theorem encNode_joinNodes_same (e : Enc) (a b g : Handle) (m : Fin 512) (q : List Handle) :
    encNode (joinNodes e a b g m q).node g = .internal (nodeFreq (encNode e.node a) + nodeFreq (encNode e.node b)) a b :=
  encNode_set_same ..

theorem encNode_joinNodes_other (e : Enc) (a b : Handle) {g h : Handle} (m : Fin 512) (q : List Handle) (hne : h ≠ g) :
    encNode (joinNodes e a b g m q).node h = encNode e.node h :=
  encNode_set_other _ _ _ _ hne

theorem mergeStep_of_two {cfg : Config} {e : Enc} {a b g : Handle} {q q' : List Handle} {m : Fin 512}
    (h1 : extractMin cfg e.node e.pq = some (a, q)) (h2 : extractMin cfg e.node q = some (b, q'))
    (hn : nextHandle e.nnode = some (g, m)) : mergeStep cfg e = some (joinNodes e a b g m q') := by
  simp only [mergeStep, h1, h2, hn, joinNodes]

theorem mergeStep_of_one (cfg : Config) {e : Enc} {a : Handle} (h : e.pq = [a]) :
    mergeStep cfg e = some { e with ctl := gotoPhase phERoot e.ctl } := by
  simp only [mergeStep, h, extractMin_singleton]
  rfl

theorem exec_eMerge {s : State} {e : Enc} (h : mergeStep s.cfg s.enc = some e) : exec .eMerge s = .next (s.setEnc e) := by
  simp only [exec, execEMerge, h]

/-- Settles O24: `mergeStep` joins when two handles can be extracted, and passes on when the queue holds one. -/
theorem eMergeJoinsTheTwoFirst : Obligations.EMergeJoinsTheTwoFirst := by
  intro s
  refine ⟨fun a b q q' h1 h2 hroom => ?_, fun a hpq => exec_eMerge (mergeStep_of_one s.cfg hpq)⟩
  obtain ⟨g, m, hn⟩ := nextHandle_of_lt hroom
  obtain ⟨hg, hm, -⟩ := nextHandle_eq_some hn
  exact ⟨_, g, exec_eMerge (mergeStep_of_two h1 h2 hn), hg, hm, rfl, encNode_joinNodes_same .., fun _ => encNode_joinNodes_other _ _ _ _ _,
    fun _ => mem_queueInsert⟩

/-! ### E_LEAVES (rule R141) -/

/-- ENC, from `e0`, after the Leaves of the symbols `occ` have been made: they are the records from 0 on, all of them queued. -/
structure LeavesOf (e0 : Enc) (occ : List Byte) (e : Enc) : Prop where
  frame : e = { e0 with node := e.node, nnode := e.nnode, pq := e.pq }
  nnode_eq : e.nnode.val = occ.length
  mem_pq : ∀ h : Handle, h ∈ e.pq ↔ h.val < e.nnode.val
  pq_length : e.pq.length = e.nnode.val
  leaf : ∀ (h : Handle) (b : Byte), occ[h.val]? = some b → encNode e.node h = .leaf b (freqOf e0 b)
  other : ∀ h : Handle, e.nnode.val ≤ h.val → encNode e.node h = encNode e0.node h

theorem LeavesOf.freqOf_eq {e0 e : Enc} {occ : List Byte} (h : LeavesOf e0 occ e) (b : Byte) : freqOf e b = freqOf e0 b := by
  rw [h.frame]
  rfl

theorem addLeaf_of_zero {sym : Byte} {e : Enc} (h : freqOf e sym = 0) : addLeaf sym e = some e := if_pos h

/-- A symbol that occurs gets the next record. -/
theorem LeavesOf.next {e0 e : Enc} {occ : List Byte} (h : LeavesOf e0 occ e) {sym : Byte} (hocc : freqOf e0 sym ≠ 0)
    (hroom : occ.length < 511) : ∃ e', addLeaf sym e = some e' ∧ LeavesOf e0 (occ ++ [sym]) e' := by
  have hfreq := h.freqOf_eq sym
  obtain ⟨hframe, hnnode, hmem, hlen, hleaf, hother⟩ := h
  obtain ⟨g, m, hn⟩ := nextHandle_of_lt (hnnode ▸ hroom)
  obtain ⟨hg, hm, -⟩ := nextHandle_eq_some hn
  have hnew : g ∉ e.pq := not_mem_of_inUse (fun k => (hmem k).1) hg
  have hadd : addLeaf sym e =
      some { e with node := e.node.set g.val (.leaf sym (freqOf e sym)) g.isLt, nnode := m, pq := queueInsert g e.pq } := by
    rw [addLeaf, if_neg (hfreq ▸ hocc), hn]
  refine ⟨_, hadd, by rw [hframe], by simp [hm, hnnode], fun k => ?_, ?_, fun k b hb => ?_, fun k hk => ?_⟩
  · rw [mem_queueInsert, hmem, Fin.ext_iff]
    dsimp only
    omega
  · rw [length_queueInsert hnew, hlen, hm]
  · by_cases hkg : k = g
    · obtain rfl : sym = b := by simpa [hkg, hg, hnnode] using hb
      rw [hkg, encNode_set_same, hfreq]
    · have hkv : k.val ≠ occ.length := fun heq => hkg (Fin.ext (by omega))
      rw [encNode_set_other _ _ _ _ hkg]
      refine hleaf k b ?_
      rw [← hb, List.getElem?_append_left]
      have := (List.getElem?_eq_some_iff.1 hb).1
      simp only [List.length_append, List.length_singleton] at this
      omega
  · dsimp only at hk
    have hkg : k ≠ g := by rintro rfl; omega
    rw [encNode_set_other _ _ _ _ hkg, hother k (by omega)]

/-- The loop makes the Leaves of those of its symbols that occur, in its order. -/
theorem LeavesOf.loop {e0 e : Enc} {occ : List Byte} (h : LeavesOf e0 occ e) (syms : List Byte)
    (hroom : occ.length + syms.length ≤ 511) :
    ∃ e', addLeaves syms e = some e' ∧ LeavesOf e0 (occ ++ syms.filter fun b => freqOf e0 b ≠ 0) e' := by
  induction syms generalizing occ e with
  | nil => exact ⟨e, rfl, by simpa using h⟩
  | cons sym syms ih =>
    rw [List.length_cons] at hroom
    by_cases hz : freqOf e0 sym = 0
    · obtain ⟨e', he', h'⟩ := ih h (by omega)
      refine ⟨e', ?_, by rwa [List.filter_cons_of_neg (by simpa using hz)]⟩
      simp only [addLeaves, addLeaf_of_zero ((h.freqOf_eq sym).trans hz), he']
    · obtain ⟨e1, he1, h1⟩ := h.next hz (by omega)
      obtain ⟨e', he', h'⟩ := ih h1 (by simp only [List.length_append, List.length_singleton]; omega)
      refine ⟨e', ?_, by rwa [List.filter_cons_of_pos (by simpa using hz), List.append_cons]⟩
      simp only [addLeaves, he1, he']

theorem exec_eLeaves {s : State} {e : Enc} (h : addLeaves allSymbols s.enc = some e) :
    exec .eLeaves s = .next (s.setEnc { e with ctl := gotoPhase phEMerge e.ctl }) := by
  simp only [exec, execELeaves, h]

/-- Settles O22: `LeavesOf` holds of no symbols at the start, and the loop over all symbols keeps it. -/
theorem eLeavesMakesOneLeafPerSymbol : Obligations.ELeavesMakesOneLeafPerSymbol := by
  intro s hnnode hpq
  have hstart : LeavesOf s.enc [] s.enc :=
    { frame := rfl
      nnode_eq := hnnode
      mem_pq := by simp [hpq, hnnode]
      pq_length := by simp [hpq, hnnode]
      leaf := nofun
      other := fun _ _ => rfl }
  obtain ⟨e, he, hend⟩ := hstart.loop allSymbols (by rw [allSymbols_length]; decide)
  refine ⟨_, exec_eLeaves he, ?_, hend.nnode_eq, hend.mem_pq, hend.pq_length, hend.leaf, hend.other⟩
  rw [hend.frame]
  rfl

/-! ### The merges of a run (rules R144, R147) -/

/-- `tree` stands at `h` in records below `n`: it does in every arena that agrees with `nodes` on these. -/
def RepsBelow (nodes : Vector EncNode 511) (n : Nat) (h : Handle) (tree : CodeTree) : Prop :=
  ∀ nodes' : Vector EncNode 511, (∀ g : Handle, g.val < n → encNode nodes' g = encNode nodes g) → EncReps nodes' h tree

theorem RepsBelow.reps {nodes : Vector EncNode 511} {n : Nat} {h : Handle} {tree : CodeTree} (hr : RepsBelow nodes n h tree) :
    EncReps nodes h tree := hr nodes fun _ _ => rfl

theorem RepsBelow.mono {nodes nodes' : Vector EncNode 511} {n m : Nat} {h : Handle} {tree : CodeTree} (hr : RepsBelow nodes n h tree)
    (hn : n ≤ m) (hagree : ∀ g : Handle, g.val < n → encNode nodes' g = encNode nodes g) : RepsBelow nodes' m h tree :=
  fun v hv => hr v fun g hg => (hv g (hg.trans_le hn)).trans (hagree g hg)

/-- A record over two trees is the root of their join. -/
theorem RepsBelow.node {nodes : Vector EncNode 511} {n : Nat} {a b g : Handle} {f : BitVec 64} {l r : CodeTree} (hg : g.val < n)
    (hnode : encNode nodes g = .internal f a b) (hl : RepsBelow nodes n a l) (hr : RepsBelow nodes n b r) :
    RepsBelow nodes n g (.node l r) :=
  fun v hv => ⟨f, a, b, (hv g hg).trans hnode, hl v hv, hr v hv⟩

/-- The queued handles are the roots of trees whose symbols, taken together, are `syms` in some order. -/
def Forest (syms : List Byte) (e : Enc) : Prop :=
  ∃ tree : Handle → CodeTree, (∀ h ∈ e.pq, RepsBelow e.node e.nnode.val h (tree h)) ∧ (e.pq.flatMap fun h => (tree h).syms).Perm syms

/-- The symbol of a Leaf record. -/
def EncNode.sym : EncNode → Byte
  | .leaf b _ => b
  | .internal _ _ _ => 0

theorem EncNode.sym_leaf (b : Byte) (f : BitVec 64) : (EncNode.leaf b f).sym = b := rfl

/-- Queued Leaves are a forest of single Leaves. -/
theorem forest_of_leaves {e : Enc} {syms : List Byte} (hinUse : ∀ h ∈ e.pq, h.val < e.nnode.val)
    (h : List.Forall₂ (fun h b => ∃ f, encNode e.node h = .leaf b f) e.pq syms) : Forest syms e := by
  have hsym : ∀ h b, (∃ f, encNode e.node h = .leaf b f) →
      (∃ f, encNode e.node h = .leaf (encNode e.node h).sym f) ∧ (encNode e.node h).sym = b := by
    rintro h b ⟨f, hf⟩
    rw [hf, EncNode.sym_leaf]
    exact ⟨⟨f, rfl⟩, rfl⟩
  obtain ⟨hleaf, hmap⟩ := (List.forall₂_and_left _ _).1 (h.imp hsym)
  have hsyms : e.pq.map (fun h => (encNode e.node h).sym) = syms := List.forall₂_eq_eq_eq ▸ List.forall₂_map_left_iff.2 hmap
  refine ⟨fun h => .leaf (encNode e.node h).sym, fun k hk v hv => ?_, ?_⟩
  · obtain ⟨f, hf⟩ := hleaf k hk
    exact ⟨f, (hv k (hinUse k hk)).trans hf⟩
  · rw [← hsyms, List.map_eq_flatMap]
    rfl

/-- In a queue of one the forest is one tree. -/
theorem Forest.tree {syms : List Byte} {e : Enc} {root : Handle} (h : Forest syms e) (hpq : e.pq = [root]) :
    ∃ tree : CodeTree, EncReps e.node root tree ∧ tree.syms.Perm syms := by
  obtain ⟨tree, hreps, hperm⟩ := h
  exact ⟨tree root, (hreps root (by simp [hpq])).reps, by simpa [hpq] using hperm⟩

/-- ENC, from `e0`, after `k` merges (rule R144). -/
structure Merged (e0 : Enc) (k : Nat) (e : Enc) : Prop where
  pq_length : e.pq.length + k = e0.pq.length
  nnode_eq : e.nnode.val = e0.nnode.val + k
  ctl_eq : e.ctl = e0.ctl
  queue : QueueOk e
  arena : ArenaOk e0.node → ArenaOk e.node
  forest : ∀ syms, Forest syms e0 → Forest syms e

/-- The trees at the queued handles with those of `a` and `b` joined at `g`. -/
def joinTrees (tree : Handle → CodeTree) (a b g : Handle) : Handle → CodeTree := Function.update tree g (.node (tree a) (tree b))

theorem joinTrees_root (tree : Handle → CodeTree) (a b g : Handle) : joinTrees tree a b g g = .node (tree a) (tree b) :=
  Function.update_self ..

theorem joinTrees_other (tree : Handle → CodeTree) (a b : Handle) {g h : Handle} (hne : h ≠ g) : joinTrees tree a b g h = tree h :=
  Function.update_of_ne hne ..

section Join
variable {e : Enc} {a b g : Handle} {m : Fin 512} {q : List Handle}
  (hqueue : QueueOk e) (hperm : e.pq.Perm (a :: b :: q)) (hn : nextHandle e.nnode = some (g, m))
include hqueue hperm hn

/-- The new record lies above the two it joins and above those still queued (rule R31). -/
theorem below_of_join : a < g ∧ b < g ∧ ∀ k ∈ q, k < g := by
  obtain ⟨hg, -, -⟩ := nextHandle_eq_some hn
  have hlt : ∀ k ∈ e.pq, k < g := fun k hk => Fin.lt_def.2 (hg ▸ hqueue.inUse k hk)
  simpa only [hperm.mem_iff, List.forall_mem_cons] using hlt

/-- Two handles leave the queue and one enters it, so the record taken leaves room for the merges that remain (rule R144). -/
theorem QueueOk.join (hsub : q.Sublist e.pq) :
    QueueOk (joinNodes e a b g m q) ∧ (joinNodes e a b g m q).pq.length + 1 = e.pq.length := by
  obtain ⟨hg, hm, -⟩ := nextHandle_eq_some hn
  obtain ⟨-, -, hq⟩ := below_of_join hqueue hperm hn
  have hlen : (queueInsert g q).length + 1 = e.pq.length := by
    rw [length_queueInsert fun h => lt_irrefl g (hq g h), hperm.length_eq]
    rfl
  have hroom := hqueue.room
  refine ⟨⟨queueInsert_sorted (hqueue.sorted.sublist hsub), fun k hk => ?_, ?_⟩, hlen⟩
  · have hkg : k.val ≤ g.val := (mem_queueInsert.1 hk).elim (fun heq => heq ▸ le_rfl) fun hk => (hq k hk).le
    simp only [joinNodes]
    omega
  · simp only [joinNodes]
    omega

theorem ArenaOk.join (h : ArenaOk e.node) : ArenaOk (joinNodes e a b g m q).node := by
  obtain ⟨ha, hb, -⟩ := below_of_join hqueue hperm hn
  exact h.setInternal ha hb _

/-- The join of two trees holds the symbols of both. -/
theorem Forest.join {syms : List Byte} (h : Forest syms e) : Forest syms (joinNodes e a b g m q) := by
  obtain ⟨tree, hreps, hsyms⟩ := h
  obtain ⟨hg, hm, -⟩ := nextHandle_eq_some hn
  obtain ⟨-, -, hqg⟩ := below_of_join hqueue hperm hn
  have hnew : g ∉ q := fun h => lt_irrefl g (hqg g h)
  have hkeep : ∀ h ∈ a :: b :: q, RepsBelow (joinNodes e a b g m q).node m.val h (tree h) := fun h hh =>
    (hreps h (hperm.mem_iff.2 hh)).mono (by omega) fun k hk => encNode_joinNodes_other _ _ _ _ _ (by rintro rfl; omega)
  have hother : ∀ h ∈ q, joinTrees tree a b g h = tree h := fun h hh => joinTrees_other tree a b (hqg h hh).ne
  obtain ⟨ha, hb, hq⟩ := by simpa only [List.forall_mem_cons] using hkeep
  refine ⟨joinTrees tree a b g, fun h hh => ?_, ?_⟩
  · rcases mem_queueInsert.1 hh with rfl | hh
    · rw [joinTrees_root]
      exact .node (by simp only [joinNodes]; omega) (encNode_joinNodes_same ..) ha hb
    · rw [hother h hh]
      exact hq h hh
  · have hflat : ((g :: q).flatMap fun h => (joinTrees tree a b g h).syms) = (a :: b :: q).flatMap fun h => (tree h).syms := by
      simp only [List.flatMap_cons, joinTrees_root, CodeTree.syms, List.append_assoc,
        List.flatMap_congr fun h hh => congrArg CodeTree.syms (hother h hh)]
    have hnewFirst := (perm_queueInsert hnew).flatMap_right fun h => (joinTrees tree a b g h).syms
    rw [hflat] at hnewFirst
    exact hnewFirst.trans ((hperm.symm.flatMap_right _).trans hsyms)

end Join

/-- With two handles queued or more, a step joins two of them. -/
theorem mergeStep_of_length (cfg : Config) {e : Enc} {n : Nat} (hqueue : QueueOk e) (hlen : e.pq.length = n + 2) :
    ∃ a b g m q, mergeStep cfg e = some (joinNodes e a b g m q) ∧ nextHandle e.nnode = some (g, m) ∧
      e.pq.Perm (a :: b :: q) ∧ q.Sublist e.pq := by
  obtain ⟨a, q, h1, hperm1, hsub1, hlen1⟩ := extractMin_of_length cfg e.node hlen
  obtain ⟨b, q', h2, hperm2, hsub2, -⟩ := extractMin_of_length cfg e.node hlen1
  obtain ⟨g, m, hn⟩ := nextHandle_of_lt (n := e.nnode) (by have := hqueue.room; omega)
  exact ⟨a, b, g, m, q', mergeStep_of_two h1 h2 hn, hn, hperm1.trans (hperm2.cons a), hsub2.trans hsub1⟩

/-- One merge more. -/
theorem Merged.next (cfg : Config) {e0 e : Enc} {k n : Nat} (h : Merged e0 k e) (hlen : e.pq.length = n + 2) :
    ∃ e', mergeStep cfg e = some e' ∧ Merged e0 (k + 1) e' := by
  obtain ⟨hcount, hnnode, hctl, hqueue, harena, hforest⟩ := h
  obtain ⟨a, b, g, m, q, hstep, hn, hperm, hsub⟩ := mergeStep_of_length cfg hqueue hlen
  obtain ⟨-, hm, -⟩ := nextHandle_eq_some hn
  obtain ⟨hqueue', hcount'⟩ := hqueue.join hperm hn hsub
  exact ⟨_, hstep,
    { pq_length := by omega
      nnode_eq := hm.trans (by omega)
      ctl_eq := hctl
      queue := hqueue'
      arena := fun h => (harena h).join hqueue hperm hn
      forest := fun syms h => (hforest syms h).join hqueue hperm hn }⟩

/-- `k` steps of E_MERGE, one after the other. -/
def mergeSteps (cfg : Config) (k : Nat) (e : Enc) : Option Enc := (fun o => o.bind fun e => mergeStep cfg e)^[k] (some e)

/-- From `n + 1` queued handles the first `n` steps merge. -/
theorem mergeSteps_merged (cfg : Config) {e : Enc} {n : Nat} (hqueue : QueueOk e) (hlen : e.pq.length = n + 1) {k : Nat} (hk : k ≤ n) :
    ∃ t, mergeSteps cfg k e = some t ∧ Merged e k t := by
  induction k with
  | zero => exact ⟨e, rfl, ⟨rfl, rfl, rfl, hqueue, id, fun _ => id⟩⟩
  | succ k ih =>
    obtain ⟨t, ht, hmerged⟩ := ih (by omega)
    have hleft := hmerged.pq_length
    obtain ⟨t', hstep, hmerged'⟩ := hmerged.next cfg (n := n - k - 1) (by omega)
    refine ⟨t', ?_, hmerged'⟩
    rw [mergeSteps, Function.iterate_succ_apply', ← mergeSteps, ht, Option.bind_some, hstep]

/-- Settles O25: `Merged` holds after each of the `n` merges; then one handle is left, and the forest is its tree. -/
theorem mergingTakesOneStepPerPair : Obligations.MergingTakesOneStepPerPair := by
  intro s n hlen hsorted hinUse hroom hphase
  obtain ⟨t, ht, hcount, hnnode, hctl, -, harena, hforest⟩ :=
    mergeSteps_merged s.cfg ⟨hsorted, hinUse, hlen ▸ hroom⟩ hlen le_rfl
  obtain ⟨root, hpq⟩ : ∃ root, t.pq = [root] := List.length_eq_one_iff.1 (by omega)
  refine ⟨t, ht, by rw [hpq]; rfl, hnnode, hctl ▸ hphase, ⟨_, mergeStep_of_one s.cfg hpq, rfl, rfl⟩, harena, fun syms hleaves => ?_⟩
  obtain ⟨tree, hreps, hperm⟩ := (hforest syms (forest_of_leaves hinUse hleaves)).tree hpq
  exact ⟨root, tree, hpq, hreps, hperm, hperm.nodup_iff.2⟩

end Sys2Proof.Machine

namespace Sys2Proof.Machine

/-! ## The code table (rules R151 to R154) -/

/-! ### E_CODEGEN (rules R151, R152) -/

/-- Storing the code of one symbol leaves the others' alone. -/
theorem getElem_setCode (code : Vector Bits 256) (sym b : Byte) (p : Bits) :
    (code.set sym.toNat p sym.isLt)[b.toNat]'b.isLt = if b = sym then p else code[b.toNat]'b.isLt := by
  simp only [Vector.getElem_set, BitVec.toNat_inj, eq_comm]

theorem codegen_of_leaf {e : Enc} {sym : Byte} {f : BitVec 64} (h : encNode e.node e.root = .leaf sym f) :
    codegen e = some (e.code.set sym.toNat [false] sym.isLt) := by
  simp only [codegen, h]

theorem codegen_of_internal {e : Enc} {f : BitVec 64} {l r : Handle} (h : encNode e.node e.root = .internal f l r) :
    codegen e = assignCodes e.node 511 e.root [] e.code := by
  simp only [codegen, h]

theorem codegen_ends {e : Enc} (ha : ArenaOk e.node) : ∃ code, codegen e = some code := by
  cases h : encNode e.node e.root with
  | leaf sym f => exact ⟨_, codegen_of_leaf h⟩
  | internal f l r =>
    rw [codegen_of_internal h]
    exact assignCodes_ends ha e.root.isLt [] e.code

theorem exec_eCodegen {s : State} {code : Vector Bits 256} (h : codegen s.enc = some code) :
    exec .eCodegen s = .next (s.setEnc { s.enc with code := code, ctl := gotoPhase phETree s.enc.ctl }) := by
  simp only [exec, execECodegen, h]

/-- Settles O27: the traversal ends in such an arena, and a root that is a Leaf gets one entry set. -/
theorem eCodegenFillsTheTable : Obligations.ECodegenFillsTheTable := by
  intro s ha
  obtain ⟨code, hcode⟩ := codegen_ends ha
  refine ⟨_, exec_eCodegen hcode, rfl, fun b f hroot => ?_⟩
  obtain rfl : s.enc.code.set b.toNat [false] b.isLt = code := Option.some.inj ((codegen_of_leaf hroot).symm.trans hcode)
  exact ⟨(getElem_setCode ..).trans (if_pos rfl), fun b' hne => (getElem_setCode ..).trans (if_neg hne)⟩

/-! ### Codes are paths (rule R153) -/

theorem assignCodes_of_leaf {nodes : Vector EncNode 511} {h : Handle} {sym : Byte} {f : BitVec 64} (hnode : encNode nodes h = .leaf sym f)
    (k : Nat) (p : Bits) (code : Vector Bits 256) : assignCodes nodes (k + 1) h p code = some (code.set sym.toNat p sym.isLt) := by
  simp only [assignCodes, hnode]

theorem assignCodes_of_internal {nodes : Vector EncNode 511} {h l r : Handle} {f : BitVec 64} (hnode : encNode nodes h = .internal f l r)
    (k : Nat) (p : Bits) (code : Vector Bits 256) :
    assignCodes nodes (k + 1) h p code =
      (assignCodes nodes k l (p ++ [false]) code).bind fun code' => assignCodes nodes k r (p ++ [true]) code' := by
  simp only [assignCodes, hnode]
  cases assignCodes nodes k l (p ++ [false]) code <;> rfl

/-- `code'` is `code` with the paths to the Leaves of `tree`, a subtree at path `p`, put in. -/
structure AddsPaths (tree : CodeTree) (p : Bits) (code code' : Vector Bits 256) : Prop where
  path : ∀ b ∈ tree.syms, ∃ w, code'[b.toNat]'b.isLt = p ++ w ∧ tree.walk w = some b
  keep : ∀ b, b ∉ tree.syms → code'[b.toNat]'b.isLt = code[b.toNat]'b.isLt

theorem addsPaths_leaf (sym : Byte) (p : Bits) (code : Vector Bits 256) :
    AddsPaths (.leaf sym) p code (code.set sym.toNat p sym.isLt) where
  path b hb := by
    obtain rfl : b = sym := List.mem_singleton.1 hb
    exact ⟨[], by rw [getElem_setCode, if_pos rfl, List.append_nil], rfl⟩
  keep b hb := by rw [getElem_setCode, if_neg (mt List.mem_singleton.2 hb)]

/-- The right subtree comes last, so it has the last word on its symbols; distinct symbols are not needed. -/
theorem AddsPaths.node {l r : CodeTree} {p : Bits} {code code1 code2 : Vector Bits 256} (hl : AddsPaths l (p ++ [false]) code code1)
    (hr : AddsPaths r (p ++ [true]) code1 code2) : AddsPaths (.node l r) p code code2 where
  path b hb := by
    by_cases hbr : b ∈ r.syms
    · obtain ⟨w, hcode, hwalk⟩ := hr.path b hbr
      exact ⟨true :: w, by rw [hcode, List.append_assoc, List.singleton_append], hwalk⟩
    · obtain ⟨w, hcode, hwalk⟩ := hl.path b ((List.mem_append.1 hb).resolve_right hbr)
      exact ⟨false :: w, by rw [hr.keep b hbr, hcode, List.append_assoc, List.singleton_append], hwalk⟩
  keep b hb := by
    obtain ⟨hbl, hbr⟩ := not_or.1 (mt List.mem_append.2 hb)
    rw [hr.keep b hbr, hl.keep b hbl]

/-- `Assign` puts in the paths of the tree it goes through (rule R151). -/
theorem addsPaths_of_assignCodes {nodes : Vector EncNode 511} {tree : CodeTree} {k : Nat} {h : Handle} {p : Bits}
    {code code' : Vector Bits 256} (hreps : EncReps nodes h tree) (hassign : assignCodes nodes k h p code = some code') :
    AddsPaths tree p code code' := by
  induction tree generalizing k h p code code' with
  | leaf sym =>
    obtain ⟨f, hnode⟩ := hreps
    cases k with
    | zero => cases hassign
    | succ k =>
      rw [assignCodes_of_leaf hnode] at hassign
      exact Option.some.inj hassign ▸ addsPaths_leaf sym p code
  | node l r ihl ihr =>
    obtain ⟨f, x, y, hnode, hx, hy⟩ := hreps
    cases k with
    | zero => cases hassign
    | succ k =>
      rw [assignCodes_of_internal hnode] at hassign
      obtain ⟨code1, hleft, hright⟩ := Option.bind_eq_some_iff.1 hassign
      exact (ihl hx hleft).node (ihr hy hright)

/-! ### Paths are prefix-free (rule R154) -/

/-- A walk that has reached a Leaf goes on from there as in the tree of that Leaf alone. -/
theorem CodeTree.walk_append {tree : CodeTree} {v : Bits} {a : Byte} (h : tree.walk v = some a) (u : Bits) :
    tree.walk (v ++ u) = (CodeTree.leaf a).walk u := by
  induction tree generalizing v with
  | leaf sym =>
    cases v with
    | nil => cases h; rfl
    | cons c v => cases h
  | node l r ihl ihr =>
    cases v with
    | nil => cases h
    | cons c v =>
      cases c with
      | false => exact ihl h
      | true => exact ihr h

/-- A Leaf is not passed: of two paths to Leaves one is a prefix of the other only when both lead to the same symbol. -/
theorem CodeTree.eq_of_walk_of_prefix {tree : CodeTree} {v w : Bits} {a b : Byte} (hv : tree.walk v = some a) (hw : tree.walk w = some b)
    (h : v <+: w) : a = b := by
  obtain ⟨u, rfl⟩ := h
  rw [walk_append hv] at hw
  cases u with
  | nil => exact Option.some.inj hw
  | cons c u => cases hw

theorem CodeTree.ne_nil_of_walk_node {l r : CodeTree} {w : Bits} {b : Byte} (h : (CodeTree.node l r).walk w = some b) : w ≠ [] := by
  rintro rfl
  cases h

/-- Settles O28: `Assign` from the root with the empty path makes each entry the path of its symbol, and paths to Leaves are prefix-free. -/
theorem codesArePathsToTheLeaves : Obligations.CodesArePathsToTheLeaves := by
  intro s t l r ha hreps _ hexec
  obtain ⟨code, hcode⟩ := codegen_ends ha
  obtain rfl : s.setEnc { s.enc with code := code, ctl := gotoPhase phETree s.enc.ctl } = t := by
    simpa only [exec_eCodegen hcode, Host.Outcome.next.injEq] using hexec
  obtain ⟨f, x, y, hroot, -, -⟩ := id hreps
  rw [codegen_of_internal hroot] at hcode
  obtain ⟨hpath, hkeep⟩ := addsPaths_of_assignCodes hreps hcode
  have hwalk : ∀ b ∈ (CodeTree.node l r).syms, (CodeTree.node l r).walk (code[b.toNat]'b.isLt) = some b := by
    intro b hb
    obtain ⟨w, hw, hwalk⟩ := hpath b hb
    rwa [hw, List.nil_append]
  exact ⟨fun b hb => ⟨hwalk b hb, CodeTree.ne_nil_of_walk_node (hwalk b hb)⟩,
    fun a ha b hb => CodeTree.eq_of_walk_of_prefix (hwalk a ha) (hwalk b hb), hkeep⟩

end Sys2Proof.Machine

namespace Sys2Proof.Machine

/-! ## Trees and their streams (rules R161, R162) -/

theorem CodeTree.leaves_pos (t : CodeTree) : 0 < t.leaves := by
  induction t with
  | leaf s => exact Nat.one_pos
  | node l r ihl _ => exact Nat.add_pos_left ihl _

/-- A Leaf has 9 bits, and an Internal node adds one bit to those of its two subtrees. -/
theorem CodeTree.ser_length (t : CodeTree) : t.ser.length + 1 = 10 * t.leaves := by
  induction t with
  | leaf s => rw [CodeTree.ser, List.length_cons, bin8_length, CodeTree.leaves]
  | node l r ihl ihr =>
    rw [CodeTree.ser, List.length_cons, List.length_append, CodeTree.leaves]
    omega

theorem CodeTree.size_eq (t : CodeTree) : t.size + 1 = 2 * t.leaves := by
  induction t with
  | leaf s => rfl
  | node l r ihl ihr =>
    rw [CodeTree.size, CodeTree.leaves]
    omega

/-- Settles O29: both counts by induction on the tree. -/
theorem treeStreamLength : Obligations.TreeStreamLength := fun t => ⟨t.ser_length, t.size_eq⟩

theorem CodeTree.ser_leaf (sym : Byte) : (CodeTree.leaf sym).ser = true :: bin8 sym := rfl

theorem CodeTree.ser_node (l r : CodeTree) : (CodeTree.node l r).ser = false :: (l.ser ++ r.ser) := rfl

end Sys2Proof.Machine

namespace Sys2Proof.Machine

/-! ## The deserializer (rules R164 to R171)

`Deser` takes handles in rising order, so a subtree stands in the records from its own handle up to NNODE. The Internal node above it is
written later, below that range, and its sibling is read later, above it: neither touches it. -/

/-! ### The tree in a range of records -/

/-- `tree` stands at `h` in the records from `lo` up to `hi`: it does in every arena that agrees with `nodes` on these. -/
def DecRepsIn (nodes : Vector DecNode 511) (lo hi : Nat) (h : Handle) (tree : CodeTree) : Prop :=
  ∀ nodes' : Vector DecNode 511, (∀ g : Handle, lo ≤ g.val → g.val < hi → decNode nodes' g = decNode nodes g) → DecReps nodes' h tree

theorem DecRepsIn.reps {nodes : Vector DecNode 511} {lo hi : Nat} {h : Handle} {tree : CodeTree} (hr : DecRepsIn nodes lo hi h tree) :
    DecReps nodes h tree := hr nodes fun _ _ _ => rfl

theorem DecRepsIn.mono {nodes nodes' : Vector DecNode 511} {lo lo' hi hi' : Nat} {h : Handle} {tree : CodeTree}
    (hr : DecRepsIn nodes lo hi h tree) (hlo : lo' ≤ lo) (hhi : hi ≤ hi')
    (hagree : ∀ g : Handle, lo ≤ g.val → g.val < hi → decNode nodes' g = decNode nodes g) : DecRepsIn nodes' lo' hi' h tree :=
  fun v hv => hr v fun g hge hlt => (hv g (hlo.trans hge) (hlt.trans_le hhi)).trans (hagree g hge hlt)

theorem DecRepsIn.leaf {nodes : Vector DecNode 511} {lo hi : Nat} {h : Handle} {sym : Byte} (hlo : lo ≤ h.val) (hhi : h.val < hi)
    (hnode : decNode nodes h = .leaf sym) : DecRepsIn nodes lo hi h (.leaf sym) :=
  fun _ hv => (hv h hlo hhi).trans hnode

theorem DecRepsIn.node {nodes : Vector DecNode 511} {lo hi : Nat} {h a b : Handle} {l r : CodeTree} (hlo : lo ≤ h.val) (hhi : h.val < hi)
    (hnode : decNode nodes h = .internal a b) (hl : DecRepsIn nodes lo hi a l) (hr : DecRepsIn nodes lo hi b r) :
    DecRepsIn nodes lo hi h (.node l r) :=
  fun v hv => ⟨a, b, (hv h hlo hhi).trans hnode, hl v hv, hr v hv⟩

/-! ### The ways a call of `Deser` goes -/

section Call
variable {d : Dec} {h : Handle} {m : Fin 512} (hn : nextHandle d.nnode = some (h, m))
include hn

/-- A T_LEAF that fits is read and its Leaf written (rules R95, R165). -/
theorem deser_of_leaf (hbit : payloadBit d d.bitpos = true) (hfit : d.bitpos + 9 ≤ d.treeBits.toNat) (k : Nat) :
    deser (k + 1) d =
      .ok h { d with nnode := m, bitpos := d.bitpos + 9, node := d.node.set h.val (.leaf (tokenSym d)) h.isLt } := by
  have hget := getBit_of_lt .treeTrunc (d := { d with nnode := m }) (limit := d.treeBits.toNat) (by simp only; omega)
  have hbit' : payloadBit { d with nnode := m } d.bitpos = true := hbit
  have hfit' : d.bitpos + 1 + 8 ≤ d.treeBits.toNat := hfit
  simp only [deser, hn, hget, hbit', Micro.bind_ok, if_true, getBits_eq, passBits_eq_ite _ _ (OfNat.ofNat_ne_zero 8), if_pos hfit']
  rfl

/-- A T_INTERNAL that fits is followed by its two subtrees (rules R94, R165). -/
theorem deser_of_internal (hbit : payloadBit d d.bitpos = false) (hfit : d.bitpos < d.treeBits.toNat) (k : Nat) :
    deser (k + 1) d = (deser k { d with nnode := m, bitpos := d.bitpos + 1 }).bind fun l d2 => (deser k d2).bind fun r d3 =>
      .ok h { d3 with node := d3.node.set h.val (.internal l r) h.isLt } := by
  have hget := getBit_of_lt .treeTrunc (d := { d with nnode := m }) (limit := d.treeBits.toNat) hfit
  have hbit' : payloadBit { d with nnode := m } d.bitpos = false := hbit
  simp only [deser, hn, hget, hbit', Micro.bind_ok, Bool.false_eq_true, if_false]

/-- A token of which the window holds a part only ends at the window's end (rule R167). -/
theorem deser_of_trunc (hpos : d.bitpos ≤ d.treeBits.toNat)
    (htrunc : d.bitpos = d.treeBits.toNat ∨ payloadBit d d.bitpos = true ∧ d.treeBits.toNat < d.bitpos + 9) (k : Nat) :
    deser (k + 1) d = .raise .treeTrunc { d with nnode := m, bitpos := d.treeBits.toNat } := by
  rcases getBit_cases d.treeBits.toNat .treeTrunc { d with nnode := m } with ⟨hge, hget⟩ | ⟨hlt, hget⟩
  · have hend : d.bitpos = d.treeBits.toNat := hpos.antisymm hge
    simp only [deser, hn, hget, Micro.bind_raise]
    rw [← hend]
  · obtain ⟨hbit, hshort⟩ := htrunc.resolve_left hlt.ne
    have hbit' : payloadBit { d with nnode := m } d.bitpos = true := hbit
    have hshort' : ¬ d.bitpos + 1 + 8 ≤ d.treeBits.toNat := Nat.not_le.2 hshort
    have hmax : max (d.bitpos + 1) d.treeBits.toNat = d.treeBits.toNat := max_eq_right hlt
    simp only [deser, hn, hget, hbit', Micro.bind_ok, if_true, getBits_eq, passBits_eq_ite _ _ (OfNat.ofNat_ne_zero 8), if_neg hshort',
      Micro.bind_raise, hmax]

end Call

/-! ### A completed call -/

/-- A call of `Deser` from `d` has read `tree`, given the handle `h` and left `d'` (rules R165, R171). What it leaves of the other registers is
`deser_frame`. -/
structure Deserialized (tree : CodeTree) (d : Dec) (h : Handle) (d' : Dec) : Prop where
  handle : h.val = d.nnode.val
  nnode_eq : d'.nnode.val = d.nnode.val + tree.size
  bitpos_eq : d'.bitpos = d.bitpos + tree.ser.length
  fits : d'.bitpos ≤ d'.treeBits.toNat
  reps : DecRepsIn d'.node d.nnode.val d'.nnode.val h tree
  keep : ∀ g : Handle, g.val < d.nnode.val → decNode d'.node g = decNode d.node g

theorem deserialized_leaf {d : Dec} {h : Handle} {m : Fin 512} (hn : nextHandle d.nnode = some (h, m))
    (hfit : d.bitpos + 9 ≤ d.treeBits.toNat) (sym : Byte) :
    Deserialized (.leaf sym) d h { d with nnode := m, bitpos := d.bitpos + 9, node := d.node.set h.val (.leaf sym) h.isLt } := by
  obtain ⟨hh, hm, -⟩ := nextHandle_eq_some hn
  exact {
    handle := hh
    nnode_eq := hm
    bitpos_eq := by rw [CodeTree.ser_leaf, List.length_cons, bin8_length]
    fits := hfit
    reps := .leaf hh.ge (by simp only; omega) (decNode_set_same ..)
    keep := fun g hg => decNode_set_other _ _ _ _ (by rintro rfl; omega) }

/-- Two subtrees, read one after the other, under the Internal node whose handle was taken before them. -/
theorem Deserialized.node {l r : CodeTree} {d d2 d3 : Dec} {h x y : Handle} {m : Fin 512} (hn : nextHandle d.nnode = some (h, m))
    (hl : Deserialized l { d with nnode := m, bitpos := d.bitpos + 1 } x d2) (hr : Deserialized r d2 y d3) :
    Deserialized (.node l r) d h { d3 with node := d3.node.set h.val (.internal x y) h.isLt } := by
  obtain ⟨hh, hm, -⟩ := nextHandle_eq_some hn
  obtain ⟨-, hln, hlpos, -, hlreps, hlkeep⟩ := hl
  obtain ⟨-, hrn, hrpos, hrfits, hrreps, hrkeep⟩ := hr
  simp only at hln hlpos hlreps hlkeep
  have hset : ∀ g : Handle, g.val ≠ d.nnode.val → decNode (d3.node.set h.val (.internal x y) h.isLt) g = decNode d3.node g :=
    fun g hg => decNode_set_other _ _ _ _ (by rintro rfl; exact hg hh)
  exact {
    handle := hh
    nnode_eq := by simp only [CodeTree.size]; omega
    bitpos_eq := by simp only [CodeTree.ser_node, List.length_cons, List.length_append]; omega
    fits := hrfits
    reps := .node hh.ge (by simp only; omega) (decNode_set_same ..)
      (hlreps.mono (by omega) (by simp only; omega) fun g hge hlt => (hset g (by omega)).trans (hrkeep g hlt))
      (hrreps.mono (by omega) le_rfl fun g hge _ => hset g (by omega))
    keep := fun g hg => (hset g hg.ne).trans ((hrkeep g (by omega)).trans (hlkeep g (by omega))) }

/-! ### A window that holds a tree (rule R171) -/

theorem Spells.append {d : Dec} {pos : Nat} {v w : Bits} (h : Spells d pos (v ++ w)) : Spells d pos v ∧ Spells d (pos + v.length) w := by
  constructor
  · intro k hk
    rw [h k (by simp only [List.length_append]; omega), List.getElem_append_left hk]
  · intro k hk
    rw [Nat.add_assoc, h (v.length + k) (by simp only [List.length_append]; omega), List.getElem_append_right (Nat.le_add_right ..)]
    simp only [Nat.add_sub_cancel_left]

/-- The bits read below the limit are those the payload spells. -/
theorem streamBits_of_spells_below {d : Dec} {limit pos : Nat} {w : Bits} (h : Spells d pos w) (hfit : pos + w.length ≤ limit) :
    streamBits d limit w.length pos = w := by
  induction w generalizing pos with
  | nil => rfl
  | cons b w ih =>
    rw [List.length_cons] at hfit
    rw [List.length_cons, streamBits, ih h.tail (by omega), h.head, decide_eq_true (by omega), Bool.true_and]

/-- The symbol of a T_LEAF is the byte its eight bits spell (rule R96). -/
theorem tokenSym_of_spells {d : Dec} {sym : Byte} (h : Spells d d.bitpos (true :: bin8 sym)) (hfit : d.bitpos + 9 ≤ d.treeBits.toNat) :
    tokenSym d = sym := by
  have hbits := streamBits_of_spells_below (limit := d.treeBits.toNat) h.tail (by rw [bin8_length]; omega)
  rw [bin8_length] at hbits
  rw [tokenSym, hbits, bin8, ofBits_natBits_toNat, BitVec.ofNat_toNat, BitVec.setWidth_eq]

/-- Where the window spells a tree for which there are handles, `Deser` reads that tree. The depth a tree needs is at most its size. -/
theorem deser_of_spells {tree : CodeTree} {k : Nat} {d : Dec} (hk : tree.size ≤ k) (hroom : d.nnode.val + tree.size ≤ 511)
    (hbits : Spells d d.bitpos tree.ser) (hfit : d.bitpos + tree.ser.length ≤ d.treeBits.toNat) :
    ∃ h d', deser k d = .ok h d' ∧ Deserialized tree d h d' := by
  induction tree generalizing k d with
  | leaf sym =>
    rw [CodeTree.size] at hk hroom
    rw [CodeTree.ser_leaf, List.length_cons, bin8_length] at hfit
    obtain ⟨k, rfl⟩ : ∃ k', k = k' + 1 := ⟨k - 1, by omega⟩
    obtain ⟨h, m, hn⟩ := nextHandle_of_lt (n := d.nnode) (by omega)
    refine ⟨h, _, deser_of_leaf hn hbits.head hfit k, ?_⟩
    rw [tokenSym_of_spells hbits hfit]
    exact deserialized_leaf hn hfit sym
  | node l r ihl ihr =>
    rw [CodeTree.size] at hk hroom
    rw [CodeTree.ser_node, List.length_cons, List.length_append] at hfit
    obtain ⟨k, rfl⟩ : ∃ k', k = k' + 1 := ⟨k - 1, by omega⟩
    obtain ⟨h, m, hn⟩ := nextHandle_of_lt (n := d.nnode) (by omega)
    obtain ⟨-, hm, -⟩ := nextHandle_eq_some hn
    obtain ⟨hlbits, hrbits⟩ := hbits.tail.append
    obtain ⟨x, d2, el, hl⟩ := ihl (k := k) (d := { d with nnode := m, bitpos := d.bitpos + 1 }) (by omega) (by simp only; omega) hlbits
      (by simp only; omega)
    have hln := hl.nnode_eq
    have hlpos := hl.bitpos_eq
    obtain ⟨-, hframe⟩ := deser_frame el
    simp only at hln hlpos hframe
    obtain ⟨y, d3, er, hr⟩ := ihr (k := k) (d := d2) (by omega) (by omega) (by rw [hlpos, hframe]; exact hrbits)
      (by rw [hlpos, hframe]; simp only; omega)
    refine ⟨h, _, ?_, hl.node hn hr⟩
    rw [deser_of_internal hn hbits.head (by omega), el, Micro.bind_ok, er, Micro.bind_ok]

theorem exec_dTree {s : State} (hfits : windowFits s.cfg s.dec.treeBits.toNat = true) :
    exec .dTree s = .next (s.setDec (settleDec (deserTree s.dec))) := if_pos hfits

/-- Settles O41: `Deser` reads the tree, and its end is the end of the window. -/
theorem dTreeRebuildsTheTree : Obligations.DTreeRebuildsTheTree := by
  intro s tree hsize hnnode hpos hlen hfits hbits
  obtain ⟨h, d', hrun, hd⟩ := deser_of_spells (d := s.dec) (hsize.trans (by decide : 511 ≤ 512)) (by omega) (by rwa [hpos]) (by omega)
  obtain ⟨-, hframe⟩ := deser_frame hrun
  have hend : d'.bitpos = tree.ser.length := by rw [hd.bitpos_eq, hpos, Nat.zero_add]
  have hwindow : d'.bitpos = d'.treeBits.toNat := by rw [hend, hframe, hlen]
  have hroot : h = 0 := Fin.ext (hd.handle.trans hnnode)
  refine ⟨_, exec_dTree (by rwa [hlen]), ?_⟩
  rw [deserTree, hrun, Micro.bind_ok, finishTree, if_neg (not_not.2 hwindow), settleDec_ok, ← hend]
  refine ⟨?_, hroot ▸ hd.reps.reps, by rw [State.setDec_dec, hd.nnode_eq, hnnode, Nat.zero_add]⟩
  rw [hframe]
  rfl

/-! ### Any window (rules R164 to R169) -/

/-- DEC with other contents of the registers `Deser` works with. -/
def Rebuilds (d d' : Dec) : Prop := d' = { d with node := d'.node, nnode := d'.nnode, bitpos := d'.bitpos }

theorem Rebuilds.trans {d e f : Dec} (h : Rebuilds d e) (h' : Rebuilds e f) : Rebuilds d f := by
  rw [Rebuilds, h', h]

theorem Rebuilds.ctl_eq {d d' : Dec} (h : Rebuilds d d') : d'.ctl = d.ctl := by rw [h]

theorem Rebuilds.treeBits_eq {d d' : Dec} (h : Rebuilds d d') : d'.treeBits = d.treeBits := by rw [h]

theorem Rebuilds.withCtl {d d' : Dec} (h : Rebuilds d d') (c : Ctl) (st : List Frame) (b : Bool) :
    { d' with ctl := c, stack := st, inSym := b } =
      { d with node := d'.node, nnode := d'.nnode, bitpos := d'.bitpos, ctl := c, stack := st, inSym := b } := by rw [h]

/-- A fault of `Deser` and where it leaves DEC: all records taken, or the window at its end (rules R167, R169). -/
def TreeFault (c : ErrCode) (d : Dec) : Prop :=
  (c = .treeNodes ∧ d.nnode.val = 511 ∧ d.bitpos ≤ d.treeBits.toNat) ∨ (c = .treeTrunc ∧ d.bitpos = d.treeBits.toNat)

/-- Whatever the window holds, `Deser` reads a tree or raises one of its two faults. The handles left bound the depth. -/
theorem deser_ends {k : Nat} {d : Dec} (hk : 512 ≤ k + d.nnode.val) (hpos : d.bitpos ≤ d.treeBits.toNat) :
    (∃ tree h d', deser k d = .ok h d' ∧ Deserialized tree d h d') ∨ ∃ c d', deser k d = .raise c d' ∧ Rebuilds d d' ∧ TreeFault c d' := by
  induction k generalizing d with
  | zero => exact absurd d.nnode.isLt (by omega)
  | succ k ih =>
    cases hn : nextHandle d.nnode with
    | none => exact .inr ⟨_, d, (tokenAt_of_full hn k).2, rfl, .inl ⟨rfl, nextHandle_eq_none.1 hn, hpos⟩⟩
    | some hm =>
      obtain ⟨h, m⟩ := hm
      have htrunc : (d.bitpos = d.treeBits.toNat ∨ payloadBit d d.bitpos = true ∧ d.treeBits.toNat < d.bitpos + 9) →
          ∃ c d', deser (k + 1) d = .raise c d' ∧ Rebuilds d d' ∧ TreeFault c d' :=
        fun ht => ⟨_, _, deser_of_trunc hn hpos ht k, rfl, .inr ⟨rfl, rfl⟩⟩
      rcases hpos.eq_or_lt with hend | hlt
      · exact .inr (htrunc (.inl hend))
      cases hbit : payloadBit d d.bitpos with
      | true =>
        rcases Nat.lt_or_ge d.treeBits.toNat (d.bitpos + 9) with hshort | hfit
        · exact .inr (htrunc (.inr ⟨hbit, hshort⟩))
        · exact .inl ⟨_, h, _, deser_of_leaf hn hbit hfit k, deserialized_leaf hn hfit _⟩
      | false =>
        obtain ⟨-, hm, -⟩ := nextHandle_eq_some hn
        have hrun := deser_of_internal hn hbit hlt k
        have hstart : Rebuilds d { d with nnode := m, bitpos := d.bitpos + 1 } := rfl
        rcases ih (d := { d with nnode := m, bitpos := d.bitpos + 1 }) (by simp only; omega) hlt with
          ⟨l, x, d2, el, hl⟩ | ⟨c, d2, el, hframe, hfault⟩
        · have hln := hl.nnode_eq
          simp only at hln
          rw [el, Micro.bind_ok] at hrun
          rcases ih (d := d2) (by omega) hl.fits with ⟨r, y, d3, er, hr⟩ | ⟨c, d3, er, hframe, hfault⟩
          · exact .inl ⟨.node l r, h, _, by rw [hrun, er, Micro.bind_ok], hl.node hn hr⟩
          · exact .inr ⟨c, d3, by rw [hrun, er, Micro.bind_raise], hstart.trans (Rebuilds.trans (deser_frame el).2 hframe), hfault⟩
        · exact .inr ⟨c, d2, by rw [hrun, el, Micro.bind_raise], hstart.trans hframe, hfault⟩

/-- The whole tree: complete at the end of its window, or one of three faults (rules R166 to R169). -/
theorem deserTree_ends {d : Dec} (hnnode : d.nnode.val = 0) (hpos : d.bitpos = 0) :
    (∃ tree d', deserTree d = .ok () { d' with ctl := gotoPhase phDWalk d'.ctl } ∧ Rebuilds d d' ∧ d'.bitpos = d'.treeBits.toNat ∧
      DecReps d'.node 0 tree) ∨
    ∃ c d', deserTree d = .raise c d' ∧ Rebuilds d d' ∧ (TreeFault c d' ∨ c = .treeExcess ∧ d'.bitpos < d'.treeBits.toNat) := by
  rcases deser_ends (k := 512) (d := d) (by omega) (by omega) with ⟨tree, h, d', hrun, hd⟩ | ⟨c, d', hrun, hframe, hfault⟩
  · obtain ⟨-, hframe⟩ := deser_frame hrun
    have hroot : h = 0 := Fin.ext (hd.handle.trans hnnode)
    rw [deserTree, hrun, Micro.bind_ok, finishTree]
    split
    next hmore => exact .inr ⟨_, d', rfl, hframe, .inr ⟨rfl, lt_of_le_of_ne hd.fits hmore⟩⟩
    next hend => exact .inl ⟨tree, d', rfl, hframe, not_not.1 hend, hroot ▸ hd.reps.reps⟩
  · exact .inr ⟨c, d', by rw [deserTree, hrun, Micro.bind_raise], hframe, .inl hfault⟩

/-- Settles O42: the ends of the whole tree, one by one. -/
theorem dTreeAlwaysEnds : Obligations.DTreeAlwaysEnds := by
  intro s hnnode hpos hfits
  refine ⟨_, exec_dTree hfits, ?_⟩
  rcases deserTree_ends hnnode hpos with ⟨tree, d', hrun, hframe, hend, hreps⟩ | ⟨c, d', hrun, hframe, hfault⟩
  · have hrest := congrArg s.setDec (hframe.withCtl (gotoPhase phDWalk d'.ctl) d'.stack d'.inSym)
    rw [hframe.treeBits_eq] at hend
    rw [hrun, settleDec_ok]
    exact ⟨hrest, hend.le, .inl ⟨congrArg (gotoPhase phDWalk) hframe.ctl_eq, hend, tree, hreps⟩⟩
  · have hrest := congrArg s.setDec (hframe.withCtl (raiseFault c d'.ctl) [] false)
    have hctl := congrArg (raiseFault c) hframe.ctl_eq
    rw [hrun]
    rw [TreeFault, hframe.treeBits_eq] at hfault
    rcases hfault with (⟨rfl, hfull, hle⟩ | ⟨rfl, hend⟩) | ⟨rfl, hlt⟩
    · exact ⟨hrest, hle, .inr ⟨_, .inl rfl, hctl, fun _ => hfull, nofun, nofun⟩⟩
    · exact ⟨hrest, hend.le, .inr ⟨_, .inr (.inl rfl), hctl, nofun, fun _ => hend, nofun⟩⟩
    · exact ⟨hrest, hlt.le, .inr ⟨_, .inr (.inr rfl), hctl, nofun, nofun, fun _ => hlt⟩⟩

end Sys2Proof.Machine

namespace Sys2Proof.Machine

/-! ## The packer (rules R181 to R183)

`Packs w e e'`: between `e` and `e'` the bits `w` have been appended. One `PutBit` appends one bit, and appending goes on from where it ended. -/

/-- The byte of the payload at an address, as far as it has been packed: in OBUF below WR, in ACC at WR (rule R183). -/
def packedByte (e : Enc) (a : Nat) : Byte := if a < e.wr.toNat then (Memory.read e.obuf a).getD 0 else e.acc

theorem packedBit_eq (e : Enc) (k : Nat) : packedBit e k = (packedByte e (13 + k / 8)).getLsbD (7 - k % 8) := by
  unfold packedBit packedByte
  split <;> rfl

theorem packedByte_wr (e : Enc) : packedByte e e.wr.toNat = e.acc := if_neg (lt_irrefl _)

/-- ACC with one more bit (rule R181). -/
def nextAcc (b : Bool) (e : Enc) : Byte := e.acc ||| ((if b then (1 : Byte) else 0) <<< (7 - e.nb.toNat))

/-- The bit goes to bit 7 - NB, which with the bits below it was 0. -/
theorem getLsbD_nextAcc {e : Enc} (hacc : ∀ k, k < 8 - e.nb.toNat → e.acc.getLsbD k = false) (b : Bool) {j : Nat} (hj : j < 8) :
    (nextAcc b e).getLsbD j = if j = 7 - e.nb.toNat then b else e.acc.getLsbD j := by
  have hset : nextAcc true e = setBit e.acc (7 - e.nb.toNat) true := rfl
  have hkeep : nextAcc false e = e.acc := by simp [nextAcc]
  cases b with
  | false =>
    rw [hkeep]
    split
    next h => exact hacc j (by have := e.nb.isLt; omega)
    next => rfl
  | true => rw [hset, getLsbD_setBit _ _ hj]

/-- A piece of packing stores at WR and up: nothing below the old WR nor from the new WR on. -/
structure StoresUp (e e' : Enc) : Prop where
  wr_le : e.wr.toNat ≤ e'.wr.toNat
  read_eq : ∀ a, a < e.wr.toNat ∨ e'.wr.toNat ≤ a → Memory.read e'.obuf a = Memory.read e.obuf a

theorem StoresUp.refl (e : Enc) : StoresUp e e := ⟨le_rfl, fun _ _ => rfl⟩

theorem StoresUp.trans {e f g : Enc} (h : StoresUp e f) (h' : StoresUp f g) : StoresUp e g where
  wr_le := h.wr_le.trans h'.wr_le
  read_eq a ha := by
    have := h.wr_le
    have := h'.wr_le
    rw [h'.read_eq a (by omega), h.read_eq a (by omega)]

/-- From `e` to `e'` the packer has appended the bits `w` (rules R182, R183). -/
structure Packs (w : Bits) (e e' : Enc) : Prop where
  ok : PackerOk e'
  nbits_eq : e'.nbits = e.nbits + w.length
  old : ∀ k, k < e.nbits → packedBit e' k = packedBit e k
  new : ∀ k (h : k < w.length), packedBit e' (e.nbits + k) = w[k]
  stores : StoresUp e e'

theorem Packs.nil {e : Enc} (h : PackerOk e) : Packs [] e e := ⟨h, rfl, fun _ _ => rfl, nofun, .refl e⟩

theorem Packs.cons {b : Bool} {w : Bits} {e e1 e' : Enc} (h : Packs [b] e e1) (h' : Packs w e1 e') : Packs (b :: w) e e' := by
  have hn : e1.nbits = e.nbits + 1 := h.nbits_eq
  exact {
    ok := h'.ok
    nbits_eq := by rw [h'.nbits_eq, hn, List.length_cons, Nat.add_assoc, Nat.add_comm 1]
    old := fun k hk => (h'.old k (by omega)).trans (h.old k hk)
    new := fun k hk => by
      cases k with
      | zero => exact (h'.old _ (by omega)).trans (h.new 0 Nat.one_pos)
      | succ k =>
        have hpos : e.nbits + (k + 1) = e1.nbits + k := by omega
        rw [hpos]
        exact h'.new k (Nat.lt_of_succ_lt_succ hk)
    stores := h.stores.trans h'.stores }

/-- One bit has been appended when the byte at the old WR has got it and the bytes below are as before. -/
theorem packs_bit {b : Bool} {e e' : Enc} (h : PackerOk e) (hok : PackerOk e') (hn : e'.nbits = e.nbits + 1)
    (hbelow : ∀ a, a < e.wr.toNat → packedByte e' a = packedByte e a) (hlast : packedByte e' e.wr.toNat = nextAcc b e)
    (hstores : StoresUp e e') : Packs [b] e e' := by
  obtain ⟨hnb, hwr, hacc⟩ := h
  have hbit : ∀ k, k ≤ e.nbits → packedBit e' k = if k = e.nbits then b else packedBit e k := by
    intro k hk
    rw [packedBit_eq, packedBit_eq]
    rcases (Nat.div_le_div_right hk : k / 8 ≤ e.nbits / 8).lt_or_eq with hlt | heq
    · rw [hbelow _ (by omega), if_neg (by rintro rfl; exact lt_irrefl _ hlt)]
    · have hk' : 7 - k % 8 = 7 - e.nb.toNat ↔ k = e.nbits := by omega
      rw [heq, ← hwr, hlast, packedByte_wr, getLsbD_nextAcc hacc b (by omega)]
      simp only [hk']
  exact {
    ok := hok
    nbits_eq := hn
    old := fun k hk => by rw [hbit k hk.le, if_neg hk.ne]
    new := fun k hk => by
      obtain rfl : k = 0 := Nat.lt_one_iff.1 hk
      rw [Nat.add_zero, hbit _ le_rfl, if_pos rfl]
      rfl
    stores := hstores }

/-- A bit that does not fill its byte. -/
theorem packs_kept {e : Enc} (h : PackerOk e) (hnb7 : e.nb.toNat < 7) (b : Bool) :
    Packs [b] e { e with acc := nextAcc b e, nb := e.nb + 1, nbits := e.nbits + 1 } := by
  obtain ⟨hnb, hwr, hacc⟩ := id h
  have hnb' : (e.nb + 1).toNat = e.nb.toNat + 1 := by bv_omega
  have hok : PackerOk { e with acc := nextAcc b e, nb := e.nb + 1, nbits := e.nbits + 1 } := by
    refine ⟨by simp only; omega, by simp only; omega, fun k hk => ?_⟩
    simp only [hnb'] at hk ⊢
    rw [getLsbD_nextAcc hacc b (by omega), if_neg (by omega), hacc k (by omega)]
  refine packs_bit h hok rfl (fun a ha => ?_) (packedByte_wr _) ⟨le_rfl, fun _ _ => rfl⟩
  rw [packedByte, packedByte, if_pos ha, if_pos ha]

/-- A bit that fills its byte, which is stored at WR (rule R181). -/
theorem packs_stored {e : Enc} (h : PackerOk e) (hfull : e.nb.toNat = 7) (hwr' : (e.wr + 1).toNat = e.wr.toNat + 1) (b : Bool) :
    Packs [b] e { e with
      acc := 0, nb := 0, nbits := e.nbits + 1, obuf := Memory.write e.obuf e.wr.toNat (nextAcc b e), wr := e.wr + 1 } := by
  obtain ⟨hnb, hwr, -⟩ := id h
  have hlow : ∀ a, a ≤ e.wr.toNat → a < (e.wr + 1).toNat := fun a ha => hwr' ▸ Nat.lt_succ_of_le ha
  refine packs_bit h ⟨?_, hwr'.trans ?_, fun k _ => BitVec.getLsbD_zero⟩ rfl (fun a ha => ?_) ?_
    ⟨(hlow _ le_rfl).le, fun a ha => Memory.read_write_other _ _ _ _ ?_⟩
  · exact (by omega : 0 = (e.nbits + 1) % 8)
  · simp only
    omega
  · rw [packedByte, packedByte, if_pos (hlow a ha.le), if_pos ha, Memory.read_write_other _ _ _ _ ha.ne]
  · rw [packedByte, if_pos (hlow _ le_rfl), Memory.read_write_same, Option.getD_some]
  · simp only [hwr'] at ha
    omega

/-- `PutBit` appends its bit, or it fills a byte for which there is no room (rule R181). WR stays within ENC_OUT_CAP once it is, so the
larger of the two is the same before and after. -/
theorem putBit_packs {cfg : Config} (hwide : cfg.encOutCap < 2 ^ 64) {e : Enc} (h : PackerOk e) (b : Bool) :
    (∃ e', putBit cfg b e = .ok () e' ∧ Packs [b] e e' ∧ max e'.wr.toNat cfg.encOutCap = max e.wr.toNat cfg.encOutCap) ∨
    (∃ e', putBit cfg b e = .raise .outCap e' ∧ StoresUp e e' ∧ max e.wr.toNat cfg.encOutCap < 13 + (e.nbits + 1) / 8) := by
  obtain ⟨hnb, hwr, -⟩ := id h
  rcases putBit_cases cfg b e with ⟨hlt, heq⟩ | ⟨hfull, hroom, heq⟩ | ⟨hfull, hcap, heq⟩
  · exact .inl ⟨_, heq, packs_kept h hlt b, rfl⟩
  · have hwr' : (e.wr + 1).toNat = e.wr.toNat + 1 := toNat_succ_of_lt (n := BitVec.ofNat 64 cfg.encOutCap) (by simp; omega)
    exact .inl ⟨_, heq, packs_stored h hfull hwr' b, by simp only [hwr']; omega⟩
  · exact .inr ⟨_, heq, ⟨le_rfl, fun _ _ => rfl⟩, by omega⟩

/-- `PutBits` appends its bits when the bytes they fill end below ENC_OUT_CAP, or when they fill none; else it raises OUT_CAP
(rules R182, R290). -/
theorem putBits_packs {cfg : Config} (hwide : cfg.encOutCap < 2 ^ 64) {e : Enc} (h : PackerOk e) (w : Bits) :
    (∃ e', putBits cfg w e = .ok () e' ∧ Packs w e e' ∧ 13 + (e.nbits + w.length) / 8 ≤ max e.wr.toNat cfg.encOutCap) ∨
    (∃ e', putBits cfg w e = .raise .outCap e' ∧ StoresUp e e' ∧ max e.wr.toNat cfg.encOutCap < 13 + (e.nbits + w.length) / 8) := by
  induction w generalizing e with
  | nil =>
    obtain ⟨-, hwr, -⟩ := id h
    exact .inl ⟨e, rfl, .nil h, by simp [hwr]⟩
  | cons b w ih =>
    rw [putBits, List.length_cons]
    rcases putBit_packs hwide h b with ⟨e1, hrun, hpacks, hmax⟩ | ⟨e1, hrun, hstores, hroom⟩ <;> rw [hrun]
    · have hn : e1.nbits = e.nbits + 1 := hpacks.nbits_eq
      rw [Micro.bind_ok, ← hmax, Nat.add_comm w.length, ← Nat.add_assoc, ← hn]
      rcases ih hpacks.ok with ⟨e', hrun', hpacks', hroom⟩ | ⟨e', hrun', hstores, hroom⟩
      · exact .inl ⟨e', hrun', hpacks.cons hpacks', hroom⟩
      · exact .inr ⟨e', hrun', hpacks.stores.trans hstores, hroom⟩
    · exact .inr ⟨e1, rfl, hstores, by omega⟩

/-! ## E_TREE (rules R161, R163) -/

/-- `PutBits` changes the packer's registers and OBUF alone. -/
theorem putBits_keeps (cfg : Config) (w : Bits) (e : Enc) :
    (putBits cfg w e).Ends fun e' => e' = { e with acc := e'.acc, nb := e'.nb, nbits := e'.nbits, obuf := e'.obuf, wr := e'.wr } := by
  rcases putBits_frame cfg w e with ⟨_, _, _, _, _, h⟩ | ⟨_, _, _, _, _, h⟩ <;> rw [h]
  · rfl
  · exact ⟨by decide, rfl⟩

theorem ser_of_leaf {nodes : Vector EncNode 511} {h : Handle} {sym : Byte} {f : BitVec 64} (hnode : encNode nodes h = .leaf sym f) (k : Nat) :
    ser nodes (k + 1) h = some (CodeTree.leaf sym).ser := by
  simp only [ser, hnode]
  rfl

theorem ser_of_internal {nodes : Vector EncNode 511} {h l r : Handle} {f : BitVec 64} (hnode : encNode nodes h = .internal f l r) (k : Nat) :
    ser nodes (k + 1) h = (ser nodes k l).bind fun wl => (ser nodes k r).map fun wr => false :: (wl ++ wr) := by
  simp only [ser, hnode]
  cases ser nodes k l with
  | none => rfl
  | some wl => cases ser nodes k r <;> rfl

/-- `Ser` in the arena gives the stream of the tree that stands there (rule R161). -/
theorem eq_ser_of_reps {nodes : Vector EncNode 511} {tree : CodeTree} {k : Nat} {h : Handle} {w : Bits} (hreps : EncReps nodes h tree)
    (hser : ser nodes k h = some w) : w = tree.ser := by
  induction tree generalizing k h w with
  | leaf sym =>
    obtain ⟨f, hnode⟩ := hreps
    cases k with
    | zero => cases hser
    | succ k => exact Option.some.inj (hser.symm.trans (ser_of_leaf hnode k))
  | node l r ihl ihr =>
    obtain ⟨f, a, b, hnode, ha, hb⟩ := hreps
    cases k with
    | zero => cases hser
    | succ k =>
      rw [ser_of_internal hnode] at hser
      obtain ⟨wl, el, hser⟩ := Option.bind_eq_some_iff.1 hser
      obtain ⟨wr, er, rfl⟩ := Option.map_eq_some_iff.1 hser
      rw [ihl ha el, ihr hb er, CodeTree.ser_node]

theorem exec_eTree {s : State} {tree : CodeTree} (ha : ArenaOk s.enc.node) (hreps : EncReps s.enc.node s.enc.root tree) :
    exec .eTree s = .next (s.setEnc (settleEnc (emitTree s.cfg tree.ser s.enc))) := by
  obtain ⟨w, hser⟩ := ser_ends ha s.enc.root.isLt
  obtain rfl := eq_ser_of_reps hreps hser
  simp only [exec, execETree, hser]

/-- Settles O30: the arena gives the tree's stream, and the packer appends it or finds no room. A stream has 9 bits or more, so it fills a
byte. -/
theorem eTreeEmitsTheTree : Obligations.ETreeEmitsTheTree := by
  intro s tree ha hreps hwide hnbits hnb hacc hwr
  have hok : PackerOk s.enc := by
    simp [PackerOk, hnbits, hnb, hacc, hwr]
  have hwr13 : s.enc.wr.toNat = 13 := by rw [hwr]; rfl
  have hbyte : 1 ≤ tree.ser.length / 8 := by
    have := tree.ser_length
    have := tree.leaves_pos
    omega
  have hkeeps := putBits_keeps s.cfg tree.ser s.enc
  refine ⟨_, exec_eTree ha hreps, ?_⟩
  rcases putBits_packs hwide hok tree.ser with ⟨e', hrun, hpacks, hroom⟩ | ⟨e', hrun, hstores, hroom⟩ <;>
    rw [hnbits, hwr13, Nat.zero_add] at hroom <;> rw [hrun] at hkeeps
  · have hn : e'.nbits = tree.ser.length := by rw [hpacks.nbits_eq, hnbits, Nat.zero_add]
    have hctl : e'.ctl = s.enc.ctl := by rw [hkeeps]
    rw [emitTree, hrun, Micro.bind_ok, settleEnc_ok]
    refine ⟨?_, fun a ha => hpacks.stores.read_eq a (hwr13 ▸ ha), fun _ => ⟨?_, rfl, hn, ?_, fun k hk => ?_⟩,
      fun hcap => absurd hroom (by omega)⟩
    · rw [hkeeps]
      rfl
    · exact congrArg (gotoPhase phEData) hctl
    · exact congrArg (BitVec.ofNat 32) hn
    · have hbit := hpacks.new k hk
      rw [hnbits, Nat.zero_add] at hbit
      exact hbit
  · obtain ⟨-, hkeeps⟩ := hkeeps
    have hctl : e'.ctl = s.enc.ctl := by rw [hkeeps]
    rw [emitTree, hrun, Micro.bind_raise, settleEnc_raise]
    refine ⟨?_, fun a ha => hstores.read_eq a (hwr13 ▸ ha), fun hcap => absurd hroom (by omega), fun _ => congrArg (raiseFault .outCap) hctl⟩
    rw [hkeeps]
    rfl

end Sys2Proof.Machine

namespace Sys2Proof.Machine

/-! ## The bits appended (rules R181 to R183) -/

/-- A bit above the last of its byte is put in ACC (rule R181). -/
theorem putBit_of_lt (cfg : Config) (b : Bool) {e : Enc} (h : e.nb.toNat < 7) :
    putBit cfg b e = .ok () { e with acc := nextAcc b e, nb := e.nb + 1, nbits := e.nbits + 1 } := if_neg (by omega)

/-- The last bit of a byte with room stores the byte at WR (rule R181). -/
theorem putBit_of_room {cfg : Config} (b : Bool) {e : Enc} (h : e.nb.toNat = 7) (hroom : e.wr.toNat < cfg.encOutCap) :
    putBit cfg b e = .ok () { e with
      acc := 0, nb := 0, nbits := e.nbits + 1, obuf := Memory.write e.obuf e.wr.toNat (nextAcc b e), wr := e.wr + 1 } :=
  (if_pos (by omega)).trans (if_neg (Nat.not_le.2 hroom))

/-- The last bit of a byte without room raises OUT_CAP (rule R181). -/
theorem putBit_of_full {cfg : Config} (b : Bool) {e : Enc} (h : e.nb.toNat = 7) (hcap : cfg.encOutCap ≤ e.wr.toNat) :
    putBit cfg b e = .raise .outCap { e with acc := nextAcc b e, nb := e.nb + 1, nbits := e.nbits + 1 } :=
  (if_pos (by omega)).trans (if_pos hcap)

/-- Settles O31: a bit that does not fill its byte, one that does, and one whose byte finds no room. -/
theorem putBitFillsFromTheTop : Obligations.PutBitFillsFromTheTop := by
  intro cfg b e hacc
  refine ⟨fun hlt => ?_, fun hfull hroom => ?_, fun hfull hcap => ⟨_, putBit_of_full b hfull hcap⟩⟩
  · exact ⟨_, putBit_of_lt cfg b hlt, rfl, by simp only; bv_omega, fun k hk => getLsbD_nextAcc hacc b hk⟩
  · refine ⟨_, nextAcc b e, putBit_of_room b hfull hroom, rfl, Memory.read_write_same _ _ _,
      fun a ha => Memory.read_write_other _ _ _ _ ha, fun k hk => ?_⟩
    rw [getLsbD_nextAcc hacc b hk, hfull]

theorem packs_of_putBits {cfg : Config} (hwide : cfg.encOutCap < 2 ^ 64) {w : Bits} {e e' : Enc} (h : PackerOk e)
    (hrun : putBits cfg w e = .ok () e') : Packs w e e' := by
  rcases putBits_packs hwide h w with ⟨e1, hrun1, hpacks, -⟩ | ⟨e1, hrun1, -, -⟩ <;> rw [hrun] at hrun1 <;> cases hrun1
  exact hpacks

/-- Settles O32: bits appended one after the other keep the agreement of the registers and the bits before them. -/
theorem packerAppendsInOrder : Obligations.PackerAppendsInOrder := by
  intro cfg w e e' hwide hok hrun
  have hpacks := packs_of_putBits hwide hok hrun
  exact ⟨hpacks.ok, hpacks.nbits_eq, hpacks.old, hpacks.new⟩

/-! ## E_FLUSH (rule R184) -/

theorem flush_of_aligned (cfg : Config) {e : Enc} (h : e.nb = 0) :
    flush cfg e = .ok () { e with padBits := 0, ctl := gotoPhase phEHeader e.ctl } := if_pos h

theorem flush_of_room {cfg : Config} {e : Enc} (h : e.nb ≠ 0) (hroom : e.wr.toNat < cfg.encOutCap) :
    flush cfg e = .ok () { e with
      padBits := BitVec.ofNat 8 (8 - e.nb.toNat), obuf := Memory.write e.obuf e.wr.toNat e.acc, wr := e.wr + 1, acc := 0, nb := 0,
      ctl := gotoPhase phEHeader e.ctl } := (if_neg h).trans (if_neg (Nat.not_le.2 hroom))

theorem flush_of_full {cfg : Config} {e : Enc} (h : e.nb ≠ 0) (hcap : cfg.encOutCap ≤ e.wr.toNat) :
    flush cfg e = .raise .outCap { e with padBits := BitVec.ofNat 8 (8 - e.nb.toNat) } := (if_neg h).trans (if_pos hcap)

/-- The pad count of a byte that is not empty fits its register (rule R184). -/
theorem toNat_padBits (n : Nat) : (BitVec.ofNat 8 (8 - n)).toNat = 8 - n := by
  rw [BitVec.toNat_ofNat]
  omega

theorem exec_eFlush (s : State) : exec .eFlush s = .next (s.setEnc (settleEnc (flush s.cfg s.enc))) := rfl

/-- Settles O34: nothing to pad, a byte padded and stored, and a byte without room. -/
theorem eFlushPadsToAByte : Obligations.EFlushPadsToAByte := by
  intro s
  rw [exec_eFlush]
  refine ⟨fun hnb => ?_, fun hnb hroom => ?_, fun hnb hcap => ?_⟩
  · rw [flush_of_aligned s.cfg hnb, settleEnc_ok]
    rfl
  · rw [flush_of_room hnb hroom, settleEnc_ok]
    exact ⟨_, rfl, rfl, toNat_padBits _, Memory.read_write_same _ _ _, fun a ha => Memory.read_write_other _ _ _ _ ha⟩
  · rw [flush_of_full hnb hcap, settleEnc_raise]
    exact ⟨_, rfl, rfl, rfl⟩

/-! ## The bits read (rule R185) -/

theorem getBit_of_le {limit : Nat} (cause : ErrCode) {d : Dec} (h : limit ≤ d.bitpos) : getBit limit cause d = .raise cause d := by
  rw [getBit, passBit, if_pos h, Micro.bind_raise]

theorem payloadBit_of_read {d : Dec} {pos : Nat} {b : Byte} (h : Memory.read d.ibuf (13 + pos / 8) = some b) :
    payloadBit d pos = b.getLsbD (7 - pos % 8) := by
  rw [payloadBit, cellByte, h, Option.getD_some]

/-- Settles O40: the limit reached, and the bit of the byte that is read. -/
theorem getBitReadsOneBit : Obligations.GetBitReadsOneBit := by
  intro limit cause d
  refine ⟨getBit_of_le cause, fun hlt b hread => ?_⟩
  rw [getBit_of_lt cause hlt, payloadBit_of_read hread]

/-! ## What was packed is what is read (rule R187) -/

/-- The payload bytes below WR are stored (rules R63, R183). -/
def PayloadStored (e : Enc) : Prop := ∀ a, 13 ≤ a → a < e.wr.toNat → (Memory.read e.obuf a).isSome = true

theorem payloadStored_store {e : Enc} (h : PayloadStored e) (v : Byte) :
    PayloadStored { e with obuf := Memory.write e.obuf e.wr.toNat v, wr := e.wr + 1 } := fun a ha hlt =>
  stored_write h v a ha (by simp only at hlt; bv_omega)

theorem putBits_payloadStored (cfg : Config) (w : Bits) {e : Enc} (h : PayloadStored e) : (putBits cfg w e).Ends PayloadStored := by
  induction w generalizing e with
  | nil => exact h
  | cons b w ih =>
    refine Micro.Ends.bind ?_ fun _ e' h' => ih h'
    rcases putBit_cases cfg b e with ⟨_, heq⟩ | ⟨_, _, heq⟩ | ⟨_, _, heq⟩ <;> rw [heq]
    · exact h
    · exact payloadStored_store h _
    · exact ⟨by decide, h⟩

theorem read_eq_packedByte {e : Enc} (h : PayloadStored e) {a : Nat} (hge : 13 ≤ a) (hlt : a < e.wr.toNat) :
    Memory.read e.obuf a = some (packedByte e a) := by
  obtain ⟨b, hb⟩ := Option.isSome_iff_exists.1 (h a hge hlt)
  rw [packedByte, if_pos hlt, hb, Option.getD_some]

/-- From `e` to `e'` the packer has been flushed: every packed byte is in OBUF, and the payload is what was packed and the padding. -/
structure Flushes (e e' : Enc) : Prop where
  read_eq : ∀ a, 13 ≤ a → a < e'.wr.toNat → Memory.read e'.obuf a = some (packedByte e a)
  padBits_eq : e'.padBits.toNat = (8 - e.nbits % 8) % 8
  length_eq : 8 * (e'.wr.toNat - 13) = e.nbits + e'.padBits.toNat

/-- Nothing is left in ACC. -/
theorem flushes_aligned {e : Enc} (h : PackerOk e) (hstored : PayloadStored e) (haligned : e.nb = 0) (c : Ctl) :
    Flushes e { e with padBits := 0, ctl := c } := by
  obtain ⟨hnb, hwr, -⟩ := h
  have hnb0 : e.nbits % 8 = 0 := hnb.symm.trans (congrArg BitVec.toNat haligned)
  exact {
    read_eq := fun a hge hlt => read_eq_packedByte hstored hge hlt
    padBits_eq := by rw [hnb0]; rfl
    length_eq := (by omega : 8 * (e.wr.toNat - 13) = e.nbits + 0) }

/-- The byte in ACC is stored at the old WR. -/
theorem flushes_stored {e : Enc} (h : PackerOk e) (hstored : PayloadStored e) (hpart : e.nb ≠ 0)
    (hwr' : (e.wr + 1).toNat = e.wr.toNat + 1) (c : Ctl) :
    Flushes e { e with
      padBits := BitVec.ofNat 8 (8 - e.nb.toNat), obuf := Memory.write e.obuf e.wr.toNat e.acc, wr := e.wr + 1, acc := 0, nb := 0, ctl := c } := by
  obtain ⟨hnb, hwr, -⟩ := h
  have hpos : e.nb.toNat ≠ 0 := fun h0 => hpart (BitVec.eq_of_toNat_eq h0)
  have hpad := toNat_padBits e.nb.toNat
  exact {
    read_eq := fun a hge hlt => by
      rcases (Nat.lt_succ_iff.1 (hwr' ▸ hlt)).lt_or_eq with hbelow | rfl
      · rw [Memory.read_write_other _ _ _ _ hbelow.ne, read_eq_packedByte hstored hge hbelow]
      · rw [Memory.read_write_same, packedByte_wr]
    padBits_eq := by simp only [hpad]; omega
    length_eq := by simp only [hpad, hwr']; omega }

theorem flushes_of_flush {cfg : Config} (hwide : cfg.encOutCap < 2 ^ 64) {e e' : Enc} (h : PackerOk e) (hstored : PayloadStored e)
    (hrun : flush cfg e = .ok () e') : Flushes e e' := by
  by_cases haligned : e.nb = 0
  · rw [flush_of_aligned cfg haligned] at hrun
    cases hrun
    exact flushes_aligned h hstored haligned _
  by_cases hroom : e.wr.toNat < cfg.encOutCap
  · rw [flush_of_room haligned hroom] at hrun
    cases hrun
    exact flushes_stored h hstored haligned (by bv_omega) _
  · rw [flush_of_full haligned (Nat.le_of_not_lt hroom)] at hrun
    cases hrun

/-- Settles O58: each bit of `w` lies in a packed byte, which the flush has left in OBUF. -/
theorem unpackerReadsWhatThePackerWrote : Obligations.UnpackerReadsWhatThePackerWrote := by
  intro cfg w e e1 e2 d hwide hacc hnb hnbits hwr hput hflush hmoved
  have hok : PackerOk e := by simp [PackerOk, hacc, hnb, hnbits, hwr]
  have hwr13 : e.wr.toNat = 13 := congrArg BitVec.toNat hwr
  have hstored : PayloadStored e := fun a hge hlt => absurd (hwr13 ▸ hlt) (Nat.not_lt.2 hge)
  have hpacks := packs_of_putBits hwide hok hput
  have hstored1 := putBits_payloadStored cfg w hstored
  rw [hput] at hstored1
  have hflushes := flushes_of_flush hwide hpacks.ok hstored1 hflush
  have hn : e1.nbits = w.length := by rw [hpacks.nbits_eq, hnbits, Nat.zero_add]
  have hlen := hflushes.length_eq
  rw [hn] at hlen
  refine ⟨fun k hk => ?_, hn ▸ hflushes.padBits_eq, hlen⟩
  have hlt : 13 + k / 8 < e2.wr.toNat := by omega
  have hread := (hmoved _ (Nat.le_add_right 13 _) hlt).trans (hflushes.read_eq _ (Nat.le_add_right 13 _) hlt)
  rw [Nat.zero_add, payloadBit_of_read hread, ← packedBit_eq, ← hpacks.new k hk, hnbits, Nat.zero_add]

end Sys2Proof.Machine

namespace Sys2Proof.Machine

/-! ## E_INIT (rule R201) -/

/-- A message that fits IBUF: the encoder is cleared for it. -/
theorem encInit_of_fits {cfg : Config} {e : Enc} (h : e.ctl.inLen.toNat ≤ cfg.encInCap) :
    encInit cfg e = .ok () { e with
      ctl := gotoPhase (if e.ctl.inLen = 0 then phEEmpty else phECount) (initOutcome e.ctl)
      origSize := e.ctl.inLen, rd := 0, freq := Vector.replicate 256 0, code := Vector.replicate 256 [], nnode := 0, pq := []
      acc := 0, nb := 0, nbits := 0, wr := 13 } := if_neg (Nat.not_lt.2 h)

/-- A message that does not fit IBUF (rule R288). -/
theorem encInit_of_long {cfg : Config} {e : Enc} (h : cfg.encInCap < e.ctl.inLen.toNat) :
    encInit cfg e = .raise .inCap { e with ctl := initOutcome e.ctl } := if_pos h

theorem exec_eInit (s : State) : exec .eInit s = .next (s.setEnc (settleEnc (encInit s.cfg s.enc))) := rfl

/-- Settles O19: the message fits IBUF, or it does not. -/
theorem eInitClearsTheEncoder : Obligations.EInitClearsTheEncoder := by
  intro s
  rw [exec_eInit]
  refine ⟨fun hlong => ?_, fun hfits => ⟨_, rfl, ?_, ?_⟩⟩
  · rw [encInit_of_long hlong]
    rfl
  · rw [encInit_of_fits hfits]
    rfl
  · rw [encInit_of_fits hfits]
    simp [freqOf, codeOf]

/-! ## E_EMPTY (rule R210) -/

theorem exec_eEmpty {s : State} (hcap : 13 ≤ s.cfg.encOutCap) : exec .eEmpty s = .next (s.setEnc (storeEmpty s.enc)) := if_pos hcap

/-- The buffer of the empty file: thirteen bytes 0x00, and above them what stood there. -/
theorem read_storeEmpty (e : Enc) (a : Nat) : Memory.read (storeEmpty e).obuf a = if a < 13 then some 0 else Memory.read e.obuf a := by
  refine (Memory.read_writeBytes _ 0 _ a).trans ?_
  simp only [List.length_replicate, Nat.zero_le, true_and, Nat.zero_add, Nat.sub_zero]
  split
  · next h => rw [List.getElem?_replicate, if_pos h]
  · rfl

/-- Settles O36: the 13 bytes are written from address 0 on. -/
theorem eEmptyStoresTheEmptyFile : Obligations.EEmptyStoresTheEmptyFile := by
  intro s hcfg
  exact ⟨_, exec_eEmpty (encOutCap_ge hcfg), rfl, fun a ha => (read_storeEmpty s.enc a).trans (if_pos ha),
    fun a ha => (read_storeEmpty s.enc a).trans (if_neg (Nat.not_lt.2 ha))⟩

/-! ## E_DATA (rule R207) -/

theorem exec_eData {s : State} (hcell : s.enc.rd.toNat < s.cfg.encInCap) :
    exec .eData s = .next (s.setEnc (settleEnc (encodeByte s.cfg s.enc))) := if_pos hcell

/-- The code of the byte at RD. -/
def nextCode (e : Enc) : Bits := codeOf e (cellByte .enc e.epoch e.ibuf e.rd.toNat)

theorem encodeByte_eq (cfg : Config) (e : Enc) :
    encodeByte cfg e = (putBits cfg (nextCode e) e).bind fun _ e' => .ok () { e' with
      rd := e'.rd + 1, ctl := if e'.rd + 1 = e'.ctl.inLen then gotoPhase phEFlush e'.ctl else e'.ctl } := rfl

/-- The code appended, RD moves, and the last byte leads to E_FLUSH. -/
theorem encodeByte_of_ok {cfg : Config} {e e' : Enc} (hrun : putBits cfg (nextCode e) e = .ok () e') :
    encodeByte cfg e = .ok () { e' with
      rd := e'.rd + 1, ctl := if e'.rd + 1 = e'.ctl.inLen then gotoPhase phEFlush e'.ctl else e'.ctl } := by
  rw [encodeByte_eq, hrun, Micro.bind_ok]

theorem encodeByte_of_raise {cfg : Config} {e e' : Enc} {c : ErrCode} (hrun : putBits cfg (nextCode e) e = .raise c e') :
    encodeByte cfg e = .raise c e' := by
  rw [encodeByte_eq, hrun, Micro.bind_raise]

/-- Where a phase that moves RD goes on: to `p` after the last byte. -/
theorem gotoPhase_of_last {rd : BitVec 64} {c : Ctl} (hlt : rd.toNat < c.inLen.toNat) (p : BitVec 4) :
    (if rd + 1 = c.inLen then gotoPhase p c else c) = { c with phase := if rd.toNat + 1 = c.inLen.toNat then p else c.phase } := by
  have hlast : rd + 1 = c.inLen ↔ rd.toNat + 1 = c.inLen.toNat := by rw [← BitVec.toNat_inj, toNat_succ_of_lt hlt]
  simp only [hlast]
  split <;> rfl

/-- Settles O33: the packer appends the code or finds no room. -/
theorem eDataEmitsOneCodeword : Obligations.EDataEmitsOneCodeword := by
  intro s hrd hfits hwide hok w
  have hkeeps := putBits_keeps s.cfg w s.enc
  refine ⟨_, exec_eData (hrd.trans_le hfits), ?_⟩
  rcases putBits_packs hwide hok w with ⟨e', hrun, hpacks, hroom⟩ | ⟨e', hrun, hstores, hroom⟩ <;> rw [hrun] at hkeeps
  · have hrd' : e'.rd = s.enc.rd := by rw [hkeeps]
    have hctl' : e'.ctl = s.enc.ctl := by rw [hkeeps]
    rw [encodeByte_of_ok hrun, hrd', hctl', settleEnc_ok]
    refine ⟨?_, hpacks.stores.read_eq, fun _ => ⟨rfl, hpacks.nbits_eq, hpacks.new, gotoPhase_of_last hrd phEFlush⟩,
      fun hfull hwr => absurd hroom (by omega)⟩
    rw [hkeeps]
    rfl
  · obtain ⟨-, hkeeps⟩ := hkeeps
    have hctl' : e'.ctl = s.enc.ctl := by rw [hkeeps]
    rw [encodeByte_of_raise hrun, settleEnc_raise]
    refine ⟨?_, hstores.read_eq, fun hcap => absurd hroom (by omega), fun _ _ => congrArg (raiseFault .outCap) hctl'⟩
    rw [hkeeps]
    rfl

end Sys2Proof.Machine

namespace Sys2Proof.Machine

/-! ## The phase graph (rules R23, R200, R220) -/

/-- Where a micro-operation of phase `p` leaves the control registers: along an edge, in DONE from an ending phase, or in ERROR from a phase
that can raise a fault. -/
def PhaseMove (edges : List (Nat × Nat)) (ends faults : BitVec 4 → Prop) (p : BitVec 4) (c : Ctl) : Prop :=
  (c.state = .busy ∧ (p.toNat, c.phase.toNat) ∈ edges) ∨ (c.state = .done ∧ c.phase = 0 ∧ ends p) ∨
    (c.state = .error ∧ c.phase = 0 ∧ faults p)

/-- The graph of ENC (rule R200). -/
def EncMove : BitVec 4 → Ctl → Prop :=
  PhaseMove [(1, 2), (1, 11), (2, 2), (2, 3), (3, 4), (4, 4), (4, 5), (5, 6), (6, 7), (7, 8), (8, 8), (8, 9), (9, 10)]
    (fun p => p = 10 ∨ p = 11) (fun p => p = 1 ∨ p = 7 ∨ p = 8 ∨ p = 9)

/-- The graph of DEC (rule R220). -/
def DecMove : BitVec 4 → Ctl → Prop :=
  PhaseMove [(1, 2), (2, 3), (2, 6), (3, 4), (4, 5), (5, 5), (5, 6)] (fun p => p = 6) (fun p => p = 1 ∨ p = 3 ∨ p = 4 ∨ p = 5)

section Moves
variable {edges : List (Nat × Nat)} {ends faults : BitVec 4 → Prop} {p : BitVec 4} {c : Ctl}

theorem PhaseMove.goto (hb : c.state = .busy) {q : BitVec 4} (h : (p.toNat, q.toNat) ∈ edges) :
    PhaseMove edges ends faults p (gotoPhase q c) := .inl ⟨hb, h⟩

theorem PhaseMove.stay (hb : c.state = .busy) (hp : c.phase = p) (h : (p.toNat, p.toNat) ∈ edges) : PhaseMove edges ends faults p c :=
  .inl ⟨hb, by rwa [hp]⟩

/-- A phase that repeats itself until its last turn. -/
theorem PhaseMove.loop (hb : c.state = .busy) (hp : c.phase = p) {q : BitVec 4} (hstay : (p.toNat, p.toNat) ∈ edges)
    (hgo : (p.toNat, q.toNat) ∈ edges) (last : Prop) [Decidable last] :
    PhaseMove edges ends faults p (if last then gotoPhase q c else c) := by
  split
  · exact .goto hb hgo
  · exact .stay hb hp hstay

theorem PhaseMove.endRun (h : ends p) (n : BitVec 64) : PhaseMove edges ends faults p (endRun n c) := .inr (.inl ⟨rfl, rfl, h⟩)

theorem PhaseMove.raise (h : faults p) (k : ErrCode) : PhaseMove edges ends faults p (raiseFault k c) := .inr (.inr ⟨rfl, rfl, h⟩)

/-- A micro-operation that can raise a fault moves as it does when it raises none. -/
theorem PhaseMove.settleEnc {m : Micro Enc Unit} (h : faults p) (hok : ∀ e, m = .ok () e → PhaseMove edges ends faults p e.ctl) :
    PhaseMove edges ends faults p (settleEnc m).ctl := by
  cases m with
  | ok a e => exact hok e rfl
  | raise k e => exact .raise h k

theorem PhaseMove.settleDec {m : Micro Dec Unit} (h : faults p) (hok : ∀ d, m = .ok () d → PhaseMove edges ends faults p d.ctl) :
    PhaseMove edges ends faults p (settleDec m).ctl := by
  cases m with
  | ok a d => exact hok d rfl
  | raise k d => exact .raise h k

end Moves

/-! ### ENC -/

theorem SetsEnc.ite {P : Enc → Prop} {s : State} {c : Prop} [Decidable c] {e : Enc} {f : Fault} (h : P e) :
    SetsEnc P s (if c then .next (s.setEnc e) else .fault f) := by
  split
  · exact .next h
  · exact .fault

/-- ENC with the record `x` at the new handle `g`, which joins the queue `q`. -/
def addNode (e : Enc) (x : EncNode) (g : Handle) (m : Fin 512) (q : List Handle) : Enc :=
  { e with node := e.node.set g.val x g.isLt, nnode := m, pq := queueInsert g q }

theorem addLeaf_of_pos {sym : Byte} {e : Enc} {g : Handle} {m : Fin 512} (hocc : freqOf e sym ≠ 0)
    (hn : nextHandle e.nnode = some (g, m)) : addLeaf sym e = some (addNode e (.leaf sym (freqOf e sym)) g m e.pq) := by
  rw [addLeaf, if_neg hocc, hn]
  rfl

/-- The loop body makes a Leaf of a symbol that occurs, and passes over one that does not (rule R141). -/
theorem addLeaf_cases {sym : Byte} {e e' : Enc} (h : addLeaf sym e = some e') :
    (freqOf e sym = 0 ∧ e' = e) ∨
    (freqOf e sym ≠ 0 ∧ ∃ g m, nextHandle e.nnode = some (g, m) ∧ e' = addNode e (.leaf sym (freqOf e sym)) g m e.pq) := by
  by_cases hz : freqOf e sym = 0
  · exact .inl ⟨hz, (Option.some.inj ((addLeaf_of_zero hz).symm.trans h)).symm⟩
  · cases hn : nextHandle e.nnode with
    | none => cases (by rw [addLeaf, if_neg hz, hn] : addLeaf sym e = none).symm.trans h
    | some gm => exact .inr ⟨hz, _, _, rfl, (Option.some.inj ((addLeaf_of_pos hz hn).symm.trans h)).symm⟩

theorem addLeaves_ctl {syms : List Byte} {e e' : Enc} (h : addLeaves syms e = some e') : e'.ctl = e.ctl := by
  induction syms generalizing e with
  | nil => rw [Option.some.inj h]
  | cons sym syms ih =>
    simp only [addLeaves] at h
    split at h
    · cases h
    · next e1 h1 =>
      rw [ih h]
      rcases addLeaf_cases h1 with ⟨-, rfl⟩ | ⟨-, g, m, -, rfl⟩ <;> rfl

/-- With fewer than two handles queued a step of E_MERGE passes on. -/
theorem mergeStep_of_few {cfg : Config} {e : Enc}
    (h : extractMin cfg e.node e.pq = none ∨ ∃ a q, extractMin cfg e.node e.pq = some (a, q) ∧ extractMin cfg e.node q = none) :
    mergeStep cfg e = some { e with ctl := gotoPhase phERoot e.ctl } := by
  rcases h with h | ⟨a, q, h1, h2⟩
  · simp only [mergeStep, h]
  · simp only [mergeStep, h1, h2]

/-- A step of E_MERGE joins the two first handles, or passes on when there are not two (rule R143). -/
theorem mergeStep_cases {cfg : Config} {e e' : Enc} (h : mergeStep cfg e = some e') :
    ((extractMin cfg e.node e.pq = none ∨ ∃ a q, extractMin cfg e.node e.pq = some (a, q) ∧ extractMin cfg e.node q = none) ∧
      e' = { e with ctl := gotoPhase phERoot e.ctl }) ∨
    (∃ a q b q' g m, extractMin cfg e.node e.pq = some (a, q) ∧ extractMin cfg e.node q = some (b, q') ∧
      nextHandle e.nnode = some (g, m) ∧ e' = joinNodes e a b g m q') := by
  have heq : ∀ {x}, mergeStep cfg e = some x → e' = x := fun hx => Option.some.inj (h.symm.trans hx)
  cases h1 : extractMin cfg e.node e.pq with
  | none => exact .inl ⟨.inl rfl, heq (mergeStep_of_few (.inl h1))⟩
  | some aq =>
    obtain ⟨a, q⟩ := aq
    cases h2 : extractMin cfg e.node q with
    | none => exact .inl ⟨.inr ⟨a, q, rfl, h2⟩, heq (mergeStep_of_few (.inr ⟨a, q, h1, h2⟩))⟩
    | some bq =>
      obtain ⟨b, q'⟩ := bq
      cases hn : nextHandle e.nnode with
      | none => simp [mergeStep, h1, h2, hn] at h
      | some gm => exact .inr ⟨a, q, b, q', _, _, rfl, h2, rfl, heq (mergeStep_of_two h1 h2 hn)⟩

theorem putBits_ctl {cfg : Config} {w : Bits} {e e' : Enc} (h : putBits cfg w e = .ok () e') : e'.ctl = e.ctl := by
  have hkeeps := putBits_keeps cfg w e
  rw [h] at hkeeps
  rw [hkeeps]

section EncMoves
variable {e : Enc} (cfg : Config) (hb : e.ctl.state = .busy)
include hb

theorem encInit_move : EncMove phInit (settleEnc (encInit cfg e)).ctl := by
  rcases Nat.lt_or_ge cfg.encInCap e.ctl.inLen.toNat with h | h
  · rw [encInit_of_long h]
    exact .raise (.inl rfl) _
  · rw [encInit_of_fits h, settleEnc_ok]
    refine PhaseMove.goto (c := initOutcome e.ctl) hb ?_
    split <;> decide

theorem mergeStep_move {e' : Enc} (hp : e.ctl.phase = phEMerge) (h : mergeStep cfg e = some e') : EncMove phEMerge e'.ctl := by
  rcases mergeStep_cases h with ⟨-, rfl⟩ | ⟨_, _, _, _, _, _, -, -, -, rfl⟩
  · exact .goto hb (by decide)
  · exact .stay hb hp (by decide)

theorem takeRoot_move : EncMove phERoot (takeRoot cfg e).ctl := by
  unfold takeRoot
  split
  · exact .goto hb (by decide)
  · exact .goto hb (by decide)

theorem emitTree_move (w : Bits) : EncMove phETree (settleEnc (emitTree cfg w e)).ctl := by
  refine .settleEnc (.inr (.inl rfl)) fun e' h => ?_
  obtain ⟨_, e1, hput, h⟩ := Micro.bind_eq_ok h
  cases h
  exact .goto (putBits_ctl hput ▸ hb) (by decide)

theorem encodeByte_move (hp : e.ctl.phase = phEData) : EncMove phEData (settleEnc (encodeByte cfg e)).ctl := by
  refine .settleEnc (.inr (.inr (.inl rfl))) fun e' h => ?_
  obtain ⟨_, e1, hput, h⟩ := Micro.bind_eq_ok h
  have hctl := putBits_ctl hput
  cases h
  exact .loop (hctl ▸ hb) (hctl ▸ hp) (by decide) (by decide) _

theorem flush_move : EncMove phEFlush (settleEnc (flush cfg e)).ctl := by
  by_cases haligned : e.nb = 0
  · rw [flush_of_aligned cfg haligned]
    exact .goto hb (by decide)
  · rcases Nat.lt_or_ge e.wr.toNat cfg.encOutCap with hroom | hcap
    · rw [flush_of_room haligned hroom]
      exact .goto hb (by decide)
    · rw [flush_of_full haligned hcap]
      exact .raise (.inr (.inr (.inr rfl))) _

end EncMoves

/-- A value of PHASE that is decoded is one rule R27 defines. -/
theorem legalPhase_of_decode {u : UnitId} {p : BitVec 4} {i : Instr} {rest : Bits}
    (h : decode (.phase u) (natBits 4 p.toNat) = .ok (i, rest)) : legalPhase u p = true := by
  rw [decode, decodeReg_natBits p.isLt] at h
  cases hlook : decodePhase u p.toNat with
  | none => simp [hlook] at h
  | some j =>
    have hsome : (decodePhase u p.toNat).isSome = true := by rw [hlook]; rfl
    cases u with
    | enc => exact decide_eq_true ((decodeEncPhase_isSome _ p.isLt).1 hsome)
    | dec => exact decide_eq_true ((decodeDecPhase_isSome _ p.isLt).1 hsome)

/-- The control registers of a BUSY unit agree with each other, but for OUT_LEN and ERRCODE, once its PHASE is decoded. -/
theorem ctlOk_of_decode {u : UnitId} {c : Ctl} {i : Instr} {rest : Bits}
    (hdec : decode (.phase u) (natBits 4 c.phase.toNat) = .ok (i, rest)) (hb : c.state = .busy) (hne : c.phase ≠ 0) : CtlOk u { c with outLen := 0, errCode := .none } :=
  Ctl.Running.ctlOk ⟨hb, rfl, rfl⟩ (legalPhase_of_decode hdec) hne

/-- The micro-operation of each phase of ENC moves along the graph. -/
theorem enc_moves {s : State} {i : Instr} {rest : Bits} (hdec : decode (.phase .enc) (natBits 4 s.enc.ctl.phase.toNat) = .ok (i, rest))
    (hb : s.enc.ctl.state = .busy) (hne : s.enc.ctl.phase ≠ 0) : SetsEnc (fun e => EncMove s.enc.ctl.phase e.ctl) s (exec i s) := by
  rcases encPhase_of_busy (ctlOk_of_decode hdec hb hne) hb with hp | hp | hp | hp | hp | hp | hp | hp | hp | hp | hp <;>
    replace hp : s.enc.ctl.phase = _ := hp <;> rw [hp] at hdec ⊢ <;> cases hdec
  · exact .next (encInit_move s.cfg hb)
  · exact .ite (.loop hb hp (by decide) (by decide) _)
  · simp only [exec, execELeaves]
    split
    · next e he => exact .next (.goto (addLeaves_ctl he ▸ hb) (by decide))
    · exact .fault
  · simp only [exec, execEMerge]
    split
    · next e he => exact .next (mergeStep_move s.cfg hb hp he)
    · exact .fault
  · exact .next (takeRoot_move s.cfg hb)
  · simp only [exec, execECodegen]
    split
    · exact .next (.goto hb (by decide))
    · exact .fault
  · simp only [exec, execETree]
    split
    · exact .next (emitTree_move s.cfg hb _)
    · exact .fault
  · exact .ite (encodeByte_move s.cfg hb hp)
  · exact .next (flush_move s.cfg hb)
  · exact .ite (.endRun (.inl rfl) _)
  · exact .ite (.endRun (.inr rfl) _)

/-! ### DEC -/

theorem SetsDec.ite {P : Dec → Prop} {s : State} {c : Prop} [Decidable c] {d : Dec} {f : Fault} (h : P d) :
    SetsDec P s (if c then .next (s.setDec d) else .fault f) := by
  split
  · exact .next h
  · exact .fault

section DecMoves
variable {d : Dec} (cfg : Config) (hb : d.ctl.state = .busy)
include hb

theorem decInit_move : DecMove phInit (settleDec (decInit cfg d)).ctl := by
  refine .settleDec (.inl rfl) fun d' h => ?_
  simp only [decInit] at h
  split at h
  · cases h
  · split at h <;> cases h
    exact PhaseMove.goto (c := initOutcome d.ctl) (q := phDHeader) hb (by decide)

theorem loadHeader_move (o : BitVec 64) (t : BitVec 32) (p : Byte) : DecMove phDHeader (loadHeader o t p d).ctl := by
  refine PhaseMove.goto (c := d.ctl) hb ?_
  split <;> decide

theorem checkHeader_move : DecMove phDCheck (settleDec (checkHeader cfg d)).ctl := by
  refine .settleDec (.inr (.inl rfl)) fun d' h => ?_
  simp only [checkHeader] at h
  split at h
  · cases h
  · split at h
    · cases h
    · split at h <;> cases h
      exact .goto hb (by decide)

theorem deserTree_move : DecMove phDTree (settleDec (deserTree d)).ctl := by
  refine .settleDec (.inr (.inr (.inl rfl))) fun d' h => ?_
  obtain ⟨root, d1, hdeser, h⟩ := Micro.bind_eq_ok h
  have hctl : d1.ctl = d.ctl := by rw [(deser_frame hdeser).2]
  unfold finishTree at h
  split at h <;> cases h
  exact .goto (hctl ▸ hb) (by decide)

theorem walkSymbol_move (hp : d.ctl.phase = phDWalk) : DecMove phDWalk (settleDec (walkSymbol d)).ctl := by
  have hend := walkSymbol_walkEnd d
  generalize walkSymbol d = m at hend ⊢
  cases hend with
  | fault _ _ => exact .raise (.inr (.inr (.inr rfl))) _
  | inside hreads =>
    obtain ⟨_, _, _, _, _, rfl, _⟩ := hreads
    exact .stay hb hp (by decide)
  | emitted hreads _ sym =>
    obtain ⟨_, _, _, _, _, rfl, _⟩ := hreads
    exact .loop hb hp (by decide) (by decide) _

end DecMoves

theorem finish_move (d : Dec) : DecMove phDFinish (finish d).ctl := PhaseMove.endRun (ends := fun p => p = 6) rfl _

/-- The micro-operation of each phase of DEC moves along the graph. -/
theorem dec_moves {s : State} {i : Instr} {rest : Bits} (hdec : decode (.phase .dec) (natBits 4 s.dec.ctl.phase.toNat) = .ok (i, rest))
    (hb : s.dec.ctl.state = .busy) (hne : s.dec.ctl.phase ≠ 0) : SetsDec (fun d => DecMove s.dec.ctl.phase d.ctl) s (exec i s) := by
  rcases decPhase_of_busy (ctlOk_of_decode hdec hb hne) hb with hp | hp | hp | hp | hp | hp <;>
    replace hp : s.dec.ctl.phase = _ := hp <;> rw [hp] at hdec ⊢ <;> cases hdec
  · exact .next (decInit_move s.cfg hb)
  · exact .ite (loadHeader_move hb _ _ _)
  · exact .next (checkHeader_move s.cfg hb)
  · exact .ite (deserTree_move hb)
  · exact .ite (walkSymbol_move hb hp)
  · exact .next (finish_move s.dec)

/-- Settles O50: the edges of both graphs, phase by phase. -/
theorem phaseGraph : Obligations.PhaseGraph := by
  intro s t i
  refine ⟨fun rest hdec hb hne hexec => ?_, fun rest hdec hb hne hexec => ?_⟩
  · obtain ⟨e, rfl, hmove⟩ := enc_moves hdec hb hne t hexec
    exact hmove
  · obtain ⟨d, rfl, hmove⟩ := dec_moves hdec hb hne t hexec
    exact hmove

end Sys2Proof.Machine

namespace Sys2Proof.Machine

/-! ## The encoder's run depends on the message alone (rule R203)

Two encoders that started at E_INIT on the same message stay alike: they agree on every register the run has written and on every cell it
can still read. `RunAlike` says what they agree on in every phase, `PhaseAlike` what a phase adds, and every micro-operation keeps both. -/

/-! ### Arenas that agree -/

/-- The records below `n` agree, and none of them has a child outside (rule R31). -/
structure SameArena (n : Nat) (nodes nodes' : Vector EncNode 511) : Prop where
  agree : ∀ h : Handle, h.val < n → encNode nodes' h = encNode nodes h
  closed : ∀ (h : Handle) (f : BitVec 64) (l r : Handle), h.val < n → encNode nodes h = .internal f l r → l.val < n ∧ r.val < n

section SameArena
variable {n : Nat} {nodes nodes' : Vector EncNode 511} (h : SameArena n nodes nodes')
include h

/-- A new record over children already there. -/
theorem SameArena.add {g : Handle} (hg : g.val = n) {x : EncNode} (hx : ∀ f l r, x = .internal f l r → l.val < n ∧ r.val < n) :
    SameArena (n + 1) (nodes.set g.val x g.isLt) (nodes'.set g.val x g.isLt) where
  agree k hk := by
    by_cases hkg : k = g
    · rw [hkg, encNode_set_same, encNode_set_same]
    · have hkv : k.val ≠ g.val := fun heq => hkg (Fin.ext heq)
      rw [encNode_set_other _ _ _ _ hkg, encNode_set_other _ _ _ _ hkg, h.agree k (by omega)]
  closed k f l r hk hnode := by
    by_cases hkg : k = g
    · rw [hkg, encNode_set_same] at hnode
      obtain ⟨hl, hr⟩ := hx f l r hnode
      exact ⟨by omega, by omega⟩
    · have hkv : k.val ≠ g.val := fun heq => hkg (Fin.ext heq)
      rw [encNode_set_other _ _ _ _ hkg] at hnode
      obtain ⟨hl, hr⟩ := h.closed k f l r (by omega) hnode
      exact ⟨by omega, by omega⟩

theorem SameArena.assignCodes_eq (k : Nat) {g : Handle} (hg : g.val < n) (p : Bits) (code : Vector Bits 256) :
    assignCodes nodes' k g p code = assignCodes nodes k g p code := by
  induction k generalizing g p code with
  | zero => rfl
  | succ k ih =>
    cases hnode : encNode nodes g with
    | leaf sym f => rw [assignCodes_of_leaf hnode, assignCodes_of_leaf ((h.agree g hg).trans hnode)]
    | internal f l r =>
      obtain ⟨hl, hr⟩ := h.closed g f l r hg hnode
      rw [assignCodes_of_internal hnode, assignCodes_of_internal ((h.agree g hg).trans hnode), ih hl]
      simp only [ih hr]

theorem SameArena.ser_eq (k : Nat) {g : Handle} (hg : g.val < n) : ser nodes' k g = ser nodes k g := by
  induction k generalizing g with
  | zero => rfl
  | succ k ih =>
    cases hnode : encNode nodes g with
    | leaf sym f => rw [ser_of_leaf hnode, ser_of_leaf ((h.agree g hg).trans hnode)]
    | internal f l r =>
      obtain ⟨hl, hr⟩ := h.closed g f l r hg hnode
      rw [ser_of_internal hnode, ser_of_internal ((h.agree g hg).trans hnode), ih hl, ih hr]

theorem SameArena.firstOf_eq (cfg : Config) {q : List Handle} {best : Handle} (hbest : best.val < n) (hq : ∀ k ∈ q, k.val < n) :
    firstOf cfg nodes' best q = firstOf cfg nodes best q := by
  induction q generalizing best with
  | nil => rfl
  | cons k q ih =>
    obtain ⟨hk, hq⟩ := List.forall_mem_cons.1 hq
    have hbefore : comesBefore cfg nodes' k best = comesBefore cfg nodes k best := by
      rw [comesBefore, comesBefore, h.agree k hk, h.agree best hbest]
    rw [firstOf, firstOf, hbefore]
    split
    · exact ih hk hq
    · exact ih hbest hq

theorem SameArena.extractMin_eq (cfg : Config) {q : List Handle} (hq : ∀ k ∈ q, k.val < n) :
    extractMin cfg nodes' q = extractMin cfg nodes q := by
  cases q with
  | nil => rfl
  | cons best q =>
    obtain ⟨hbest, hq⟩ := List.forall_mem_cons.1 hq
    rw [extractMin, extractMin, h.firstOf_eq cfg hbest hq]

end SameArena

/-- E_MERGE adds an Internal record over the two handles it joins. -/
theorem joinNodes_eq (e : Enc) (a b g : Handle) (m : Fin 512) (q : List Handle) :
    joinNodes e a b g m q = addNode e (.internal (nodeFreq (encNode e.node a) + nodeFreq (encNode e.node b)) a b) g m q := rfl

/-! ### Packers that agree -/

/-- The payload bytes below WR agree. -/
def SamePayload (wr : BitVec 64) (m m' : Memory) : Prop := ∀ a, 13 ≤ a → a < wr.toNat → Memory.read m' a = Memory.read m a

theorem SamePayload.store {wr : BitVec 64} {m m' : Memory} (h : SamePayload wr m m') (v : Byte) :
    SamePayload (wr + 1) (Memory.write m wr.toNat v) (Memory.write m' wr.toNat v) := by
  intro a hge hlt
  rw [Memory.read_write, Memory.read_write]
  split
  · rfl
  · exact h a hge (by bv_omega)

/-- The packer's registers and the payload agree. -/
structure SamePacker (e e' : Enc) : Prop where
  acc : e'.acc = e.acc
  nb : e'.nb = e.nb
  nbits : e'.nbits = e.nbits
  wr : e'.wr = e.wr
  payload : SamePayload e.wr e.obuf e'.obuf

/-- `x` and `x'` are `e` and `e'` after the same packing. -/
def PackedFrom (e e' x x' : Enc) : Prop :=
  ∃ acc nb nbits wr obuf obuf', SamePayload wr obuf obuf' ∧
    x = { e with acc := acc, nb := nb, nbits := nbits, wr := wr, obuf := obuf } ∧
    x' = { e' with acc := acc, nb := nb, nbits := nbits, wr := wr, obuf := obuf' }

theorem SamePacker.packedFrom {e e' : Enc} (h : SamePacker e e') : PackedFrom e e' e e' :=
  ⟨_, _, _, _, _, _, h.payload, rfl, by rw [← h.acc, ← h.nb, ← h.nbits, ← h.wr]⟩

theorem PackedFrom.samePacker {e e' x x' : Enc} (h : PackedFrom e e' x x') : SamePacker x x' := by
  obtain ⟨_, _, _, _, _, _, hpayload, rfl, rfl⟩ := h
  exact ⟨rfl, rfl, rfl, rfl, hpayload⟩

theorem PackedFrom.ctl_eq {e e' x x' : Enc} (h : PackedFrom e e' x x') (hctl : e'.ctl = e.ctl) : x'.ctl = x.ctl := by
  obtain ⟨_, _, _, _, _, _, -, rfl, rfl⟩ := h
  exact hctl

theorem PackedFrom.trans {e e' x x' y y' : Enc} (h : PackedFrom e e' x x') (h' : PackedFrom x x' y y') : PackedFrom e e' y y' := by
  obtain ⟨_, _, _, _, _, _, -, rfl, rfl⟩ := h
  obtain ⟨_, _, _, _, _, _, hpayload, rfl, rfl⟩ := h'
  exact ⟨_, _, _, _, _, _, hpayload, rfl, rfl⟩

/-- Two micro-operations end alike: both go on, in states related by `R`, or both raise the same fault from the same control registers. -/
inductive EndAlike (R : Enc → Enc → Prop) : Micro Enc Unit → Micro Enc Unit → Prop
  | ok {e e' : Enc} (h : R e e') : EndAlike R (.ok () e) (.ok () e')
  | raise {e e' : Enc} (c : ErrCode) (h : e'.ctl = e.ctl) : EndAlike R (.raise c e) (.raise c e')

theorem EndAlike.bind {R Q : Enc → Enc → Prop} {m m' : Micro Enc Unit} {f f' : Unit → Enc → Micro Enc Unit} (h : EndAlike R m m')
    (hf : ∀ e e', R e e' → EndAlike Q (f () e) (f' () e')) : EndAlike Q (m.bind f) (m'.bind f') := by
  cases h with
  | ok h => exact hf _ _ h
  | raise c h => exact .raise c h

theorem EndAlike.mono {R Q : Enc → Enc → Prop} {m m' : Micro Enc Unit} (h : EndAlike R m m') (hRQ : ∀ e e', R e e' → Q e e') :
    EndAlike Q m m' := by
  cases h with
  | ok h => exact .ok (hRQ _ _ h)
  | raise c h => exact .raise c h

theorem endAlike_putBit {e e' : Enc} (h : SamePacker e e') (hctl : e'.ctl = e.ctl) (cfg : Config) (b : Bool) :
    EndAlike (PackedFrom e e') (putBit cfg b e) (putBit cfg b e') := by
  obtain ⟨hacc, hnb, hnbits, hwr, hpayload⟩ := h
  have hnext : nextAcc b e' = nextAcc b e := by rw [nextAcc, nextAcc, hacc, hnb]
  rcases (Nat.le_of_lt_succ e.nb.isLt : e.nb.toNat ≤ 7).lt_or_eq with hlt | hfull
  · rw [putBit_of_lt cfg b hlt, putBit_of_lt cfg b (hnb ▸ hlt), hnext, hnb, hnbits]
    exact .ok ⟨_, _, _, _, _, _, hpayload, rfl, by rw [← hwr]⟩
  · rcases Nat.lt_or_ge e.wr.toNat cfg.encOutCap with hroom | hcap
    · rw [putBit_of_room b hfull hroom, putBit_of_room b (hnb ▸ hfull) (hwr ▸ hroom), hnext, hnbits, hwr]
      exact .ok ⟨_, _, _, _, _, _, hpayload.store _, rfl, rfl⟩
    · rw [putBit_of_full b hfull hcap, putBit_of_full b (hnb ▸ hfull) (hwr ▸ hcap)]
      exact .raise _ hctl

/-- The same bits are packed alike. -/
theorem endAlike_putBits {e e' : Enc} (h : SamePacker e e') (hctl : e'.ctl = e.ctl) (cfg : Config) (w : Bits) :
    EndAlike (PackedFrom e e') (putBits cfg w e) (putBits cfg w e') := by
  induction w generalizing e e' with
  | nil => exact .ok h.packedFrom
  | cons b w ih => exact (endAlike_putBit h hctl cfg b).bind fun x x' hx => (ih hx.samePacker (hx.ctl_eq hctl)).mono fun _ _ => hx.trans

/-! ### Encoders that agree -/

/-- What two encoders in the run on the message `msg` agree on in every phase from E_COUNT to E_HEADER. -/
structure RunAlike (msg : List Byte) (e e' : Enc) : Prop extends SamePacker e e' where
  nonempty : msg ≠ []
  len : e.ctl.inLen.toNat = msg.length
  holds : Holds e.ibuf msg
  holds' : Holds e'.ibuf msg
  ctl : e'.ctl = e.ctl
  rd : e'.rd = e.rd
  freq : e'.freq = e.freq
  nnode : e'.nnode = e.nnode
  pq : e'.pq = e.pq
  code : e'.code = e.code
  origSize : e'.origSize = e.origSize
  arena : SameArena e.nnode.val e.node e'.node
  inUse : ∀ h ∈ e.pq, h.val < e.nnode.val

/-- What a phase adds: the registers the run has written by then, and what the phase asks of them. -/
inductive PhaseAlike (msg : List Byte) (e e' : Enc) : BitVec 4 → Prop
  | count (h : Counted msg e.rd.toNat e) (hrd : e.rd.toNat < msg.length) : PhaseAlike msg e e' phECount
  | leaves (h : ∃ b, freqOf e b ≠ 0) : PhaseAlike msg e e' phELeaves
  | merge (h : e.pq ≠ []) : PhaseAlike msg e e' phEMerge
  | root (h : e.pq ≠ []) : PhaseAlike msg e e' phERoot
  | codegen (hroot : e'.root = e.root) (h : e.root.val < e.nnode.val) : PhaseAlike msg e e' phECodegen
  | tree (hroot : e'.root = e.root) (h : e.root.val < e.nnode.val) : PhaseAlike msg e e' phETree
  | data (htree : e'.treeBits = e.treeBits) (hrd : e.rd.toNat < msg.length) : PhaseAlike msg e e' phEData
  | flush (htree : e'.treeBits = e.treeBits) : PhaseAlike msg e e' phEFlush
  | header (htree : e'.treeBits = e.treeBits) (hpad : e'.padBits = e.padBits) : PhaseAlike msg e e' phEHeader

/-- Two encoders alike after the same number of micro-operations past E_INIT: inside the run, before E_EMPTY, or after its end. -/
inductive Alike (msg : List Byte) (e e' : Enc) : Prop
  | run {p : BitVec 4} (hat : e.at p) (h : RunAlike msg e e') (hp : PhaseAlike msg e e' p)
  | empty (hat : e.at phEEmpty) (hctl : e'.ctl = e.ctl)
  | ended (hn : e.ctl.state ≠ .busy) (hctl : e'.ctl = e.ctl)
    (hresult : e.ctl.state = .done → ∀ a, a < e.ctl.outLen.toNat → Memory.read e'.obuf a = Memory.read e.obuf a)

theorem Alike.ctl_eq {msg : List Byte} {e e' : Enc} (h : Alike msg e e') : e'.ctl = e.ctl := by
  cases h with
  | run _ h _ => exact h.ctl
  | empty _ h => exact h
  | ended _ h _ => exact h

theorem Alike.result_eq {msg : List Byte} {e e' : Enc} (h : Alike msg e e') (hd : e.ctl.state = .done) :
    ∀ a, a < e.ctl.outLen.toNat → Memory.read e'.obuf a = Memory.read e.obuf a := by
  cases h with
  | run hat _ _ => cases hat.1.symm.trans hd
  | empty hat _ => cases hat.1.symm.trans hd
  | ended _ _ hresult => exact hresult hd

/-- Micro-operations that end alike leave alike encoders: a fault takes both into the same ERROR (rule R290). -/
theorem EndAlike.alike {msg : List Byte} {m m' : Micro Enc Unit} (h : EndAlike (Alike msg) m m') :
    Alike msg (settleEnc m) (settleEnc m') := by
  cases h with
  | ok h => exact h
  | raise c h => exact .ended nofun (congrArg (raiseFault c) h) nofun

/-! ### Each micro-operation -/

section RunAlike
variable {msg : List Byte} {e e' : Enc} (h : RunAlike msg e e')
include h

theorem RunAlike.length_pos : 0 < msg.length := List.length_pos_iff.2 h.nonempty

theorem RunAlike.goto (p : BitVec 4) : RunAlike msg { e with ctl := gotoPhase p e.ctl } { e' with ctl := gotoPhase p e'.ctl } :=
  { h with ctl := congrArg (gotoPhase p) h.ctl }

/-- Both read the byte of the message at RD. -/
theorem RunAlike.cell_eq (hrd : e.rd.toNat < msg.length) :
    cellByte .enc e'.epoch e'.ibuf e'.rd.toNat = cellByte .enc e.epoch e.ibuf e.rd.toNat := by
  rw [cellByte, cellByte, h.rd, h.holds _ hrd, h.holds' _ hrd, Option.getD_some, Option.getD_some]

theorem alike_countByte (hat : e.at phECount) (hcount : Counted msg e.rd.toNat e) (hrd : e.rd.toNat < msg.length) :
    Alike msg (countByte e) (countByte e') := by
  have hcell := h.cell_eq hrd
  have hnext := hcount.next hrd
  have hlen := h.length_pos
  have hrun : RunAlike msg (countByte e) (countByte e') :=
    { h with
      len := hnext.inLen_eq
      ctl := by simp only [countByte, h.ctl, h.rd]
      rd := by rw [countByte_rd, countByte_rd, h.rd]
      freq := by simp only [countByte, freqOf, hcell, h.freq] }
  have hphase := hnext.phase_eq
  have hb : (countByte e).ctl.state = .busy := by
    rw [countByte_ctl (h.len ▸ hrd)]
    exact hat.1
  by_cases hlast : e.rd.toNat + 1 = msg.length
  · rw [if_pos hlast] at hphase
    refine .run ⟨hb, hphase⟩ hrun (.leaves ⟨msg[0], fun hz => ?_⟩)
    have hfreq := hnext.freq_eq msg[0]
    rw [hz, hlast, List.take_length] at hfreq
    exact List.count_eq_zero.1 hfreq.symm (List.getElem_mem hlen)
  · rw [if_neg hlast] at hphase
    refine .run ⟨hb, hphase⟩ hrun (.count ?_ ?_) <;> rw [hnext.rd_eq]
    · exact hnext
    · omega

/-- The same record at the same new handle. -/
theorem runAlike_addNode {g : Handle} {m : Fin 512} (hn : nextHandle e.nnode = some (g, m)) {x : EncNode}
    (hx : ∀ f l r, x = .internal f l r → l.val < e.nnode.val ∧ r.val < e.nnode.val) {q : List Handle} (hq : ∀ k ∈ q, k ∈ e.pq) :
    RunAlike msg (addNode e x g m q) (addNode e' x g m q) := by
  obtain ⟨hg, hm, -⟩ := nextHandle_eq_some hn
  have harena := h.arena.add hg hx
  rw [← hm] at harena
  refine { h with nnode := rfl, pq := rfl, arena := harena, inUse := fun k hk => ?_ }
  rcases mem_queueInsert.1 hk with rfl | hk
  · simp only [addNode]
    omega
  · have := h.inUse k (hq k hk)
    simp only [addNode]
    omega

theorem RunAlike.extractMin_eq (cfg : Config) : extractMin cfg e'.node e'.pq = extractMin cfg e.node e.pq := by
  rw [h.pq, h.arena.extractMin_eq cfg h.inUse]

theorem RunAlike.freqOf_eq (sym : Byte) : freqOf e' sym = freqOf e sym := by rw [freqOf, freqOf, h.freq]

theorem runAlike_addLeaf {sym : Byte} {x : Enc} (hadd : addLeaf sym e = some x) :
    ∃ x', addLeaf sym e' = some x' ∧ RunAlike msg x x' := by
  have hfreq := h.freqOf_eq sym
  rcases addLeaf_cases hadd with ⟨hz, rfl⟩ | ⟨hocc, g, m, hn, rfl⟩
  · exact ⟨e', addLeaf_of_zero (hfreq.trans hz), h⟩
  · refine ⟨_, addLeaf_of_pos (hfreq ▸ hocc) (h.nnode ▸ hn), ?_⟩
    rw [hfreq, h.pq]
    exact runAlike_addNode h hn (fun _ _ _ hx => by cases hx) fun _ hk => hk

end RunAlike

theorem runAlike_addLeaves {msg : List Byte} {syms : List Byte} {e e' x : Enc} (h : RunAlike msg e e') (hadd : addLeaves syms e = some x) :
    ∃ x', addLeaves syms e' = some x' ∧ RunAlike msg x x' := by
  induction syms generalizing e e' with
  | nil =>
    cases hadd
    exact ⟨e', rfl, h⟩
  | cons sym syms ih =>
    simp only [addLeaves] at hadd ⊢
    split at hadd
    · cases hadd
    · next e1 h1 =>
      obtain ⟨e1', h1', halike⟩ := runAlike_addLeaf h h1
      rw [h1']
      exact ih halike hadd

/-- A symbol of the list that occurs leaves a handle in the queue. -/
theorem pq_ne_nil_of_addLeaves {syms : List Byte} {e x : Enc} (hadd : addLeaves syms e = some x)
    (h : e.pq ≠ [] ∨ ∃ b ∈ syms, freqOf e b ≠ 0) : x.pq ≠ [] := by
  induction syms generalizing e with
  | nil =>
    cases hadd
    simpa using h
  | cons sym syms ih =>
    simp only [addLeaves] at hadd
    split at hadd
    · cases hadd
    · next e1 h1 =>
      refine ih hadd ?_
      rcases addLeaf_cases h1 with ⟨hz, rfl⟩ | ⟨-, g, m, -, rfl⟩
      · simpa [hz] using h
      · exact .inl (List.ne_nil_of_mem (mem_queueInsert.2 (.inl rfl)))

theorem mem_allSymbols (b : Byte) : b ∈ allSymbols :=
  List.mem_map.2 ⟨b.toNat, List.mem_range.2 b.isLt, by rw [BitVec.ofNat_toNat, BitVec.setWidth_eq]⟩

section RunAlike
variable {msg : List Byte} {e e' : Enc} (h : RunAlike msg e e')
include h

theorem alike_addLeaves {x : Enc} (hat : e.at phELeaves) (hocc : ∃ b, freqOf e b ≠ 0) (hadd : addLeaves allSymbols e = some x) :
    ∃ x', addLeaves allSymbols e' = some x' ∧
      Alike msg { x with ctl := gotoPhase phEMerge x.ctl } { x' with ctl := gotoPhase phEMerge x'.ctl } := by
  obtain ⟨x', hadd', halike⟩ := runAlike_addLeaves h hadd
  obtain ⟨b, hb⟩ := hocc
  have hbusy : x.ctl.state = .busy := addLeaves_ctl hadd ▸ hat.1
  have hqueue : x.pq ≠ [] := pq_ne_nil_of_addLeaves hadd (.inr ⟨b, mem_allSymbols b, hb⟩)
  exact ⟨x', hadd', .run ⟨hbusy, rfl⟩ (halike.goto _) (.merge hqueue)⟩

theorem alike_mergeStep {x : Enc} (cfg : Config) (hat : e.at phEMerge) (hne : e.pq ≠ []) (hstep : mergeStep cfg e = some x) :
    ∃ x', mergeStep cfg e' = some x' ∧ Alike msg x x' := by
  have hex := h.extractMin_eq cfg
  have hsub : ∀ {a q}, extractMin cfg e.node e.pq = some (a, q) → ∀ k ∈ q, k ∈ e.pq := fun h1 k hk =>
    (extractMin_sublist h1).2.1.subset hk
  have hex' : ∀ {a q}, extractMin cfg e.node e.pq = some (a, q) → extractMin cfg e'.node q = extractMin cfg e.node q := fun h1 =>
    h.arena.extractMin_eq cfg fun k hk => h.inUse k (hsub h1 k hk)
  rcases mergeStep_cases hstep with ⟨hfew, rfl⟩ | ⟨a, q, b, q', g, m, h1, h2, hn, rfl⟩
  · refine ⟨_, mergeStep_of_few (hfew.imp hex.trans ?_), .run ⟨hat.1, rfl⟩ (h.goto _) (.root hne)⟩
    rintro ⟨a, q, h1, h2⟩
    exact ⟨a, q, hex.trans h1, (hex' h1).trans h2⟩
  · have ha := h.inUse a (extractMin_sublist h1).1
    have hb := h.inUse b (hsub h1 b (extractMin_sublist h2).1)
    have hq : ∀ k ∈ q', k ∈ e.pq := fun k hk => hsub h1 k ((extractMin_sublist h2).2.1.subset hk)
    refine ⟨_, mergeStep_of_two (hex.trans h1) ((hex' h1).trans h2) (h.nnode ▸ hn), ?_⟩
    rw [joinNodes_eq, joinNodes_eq, h.arena.agree a ha, h.arena.agree b hb]
    refine .run hat (runAlike_addNode h hn (fun f l r hx => ?_) hq) (.merge (List.ne_nil_of_mem (mem_queueInsert.2 (.inl rfl))))
    obtain ⟨-, rfl, rfl⟩ := EncNode.internal.inj hx
    exact ⟨ha, hb⟩

theorem alike_takeRoot (cfg : Config) (hat : e.at phERoot) (hne : e.pq ≠ []) : Alike msg (takeRoot cfg e) (takeRoot cfg e') := by
  have hex := h.extractMin_eq cfg
  cases h1 : extractMin cfg e.node e.pq with
  | none => exact absurd (extractMin_eq_none.1 h1) hne
  | some rq =>
    obtain ⟨r, q⟩ := rq
    obtain ⟨hr, hsub, -⟩ := extractMin_sublist h1
    simp only [takeRoot, hex, h1]
    exact .run ⟨hat.1, rfl⟩
      { h with pq := rfl, ctl := congrArg (gotoPhase phECodegen) h.ctl, inUse := fun k hk => h.inUse k (hsub.subset hk) }
      (.codegen rfl (h.inUse r hr))

theorem RunAlike.codegen_eq (hroot : e'.root = e.root) (hr : e.root.val < e.nnode.val) : codegen e' = codegen e := by
  have hnode := h.arena.agree e.root hr
  cases hx : encNode e.node e.root with
  | leaf sym f => rw [codegen_of_leaf hx, codegen_of_leaf (hroot ▸ hnode.trans hx), h.code]
  | internal f l r =>
    rw [codegen_of_internal hx, codegen_of_internal (hroot ▸ hnode.trans hx), h.code, hroot, h.arena.assignCodes_eq 511 hr]

theorem alike_setCode (hat : e.at phECodegen) (hroot : e'.root = e.root) (hr : e.root.val < e.nnode.val) (code : Vector Bits 256) :
    Alike msg { e with code := code, ctl := gotoPhase phETree e.ctl } { e' with code := code, ctl := gotoPhase phETree e'.ctl } :=
  .run ⟨hat.1, rfl⟩ { h with code := rfl, ctl := congrArg (gotoPhase phETree) h.ctl } (.tree hroot hr)

/-- Packing changes nothing else of what the encoders agree on. -/
theorem RunAlike.packed {x x' : Enc} (hx : PackedFrom e e' x x') : RunAlike msg x x' := by
  have hpacker := hx.samePacker
  obtain ⟨_, _, _, _, _, _, -, rfl, rfl⟩ := hx
  exact { h with toSamePacker := hpacker }

theorem endAlike_emitTree (cfg : Config) (w : Bits) (hat : e.at phETree) : EndAlike (Alike msg) (emitTree cfg w e) (emitTree cfg w e') := by
  refine (endAlike_putBits h.toSamePacker h.ctl cfg w).bind fun x x' hx => .ok ?_
  have hrun := h.packed hx
  obtain ⟨_, _, _, _, _, _, -, rfl, rfl⟩ := hx
  exact .run ⟨hat.1, rfl⟩ { hrun with rd := rfl, ctl := congrArg (gotoPhase phEData) h.ctl } (.data rfl h.length_pos)

theorem endAlike_encodeByte (cfg : Config) (hat : e.at phEData) (htree : e'.treeBits = e.treeBits) (hrd : e.rd.toNat < msg.length) :
    EndAlike (Alike msg) (encodeByte cfg e) (encodeByte cfg e') := by
  have hcode : nextCode e' = nextCode e := by rw [nextCode, nextCode, h.cell_eq hrd, codeOf, codeOf, h.code]
  have hlt : e.rd.toNat < e.ctl.inLen.toNat := h.len ▸ hrd
  rw [encodeByte_eq, encodeByte_eq, hcode]
  refine (endAlike_putBits h.toSamePacker h.ctl cfg (nextCode e)).bind fun x x' hx => .ok ?_
  have hrun := h.packed hx
  obtain ⟨_, _, _, _, _, _, -, rfl, rfl⟩ := hx
  simp only [h.rd, h.ctl]
  split
  · exact .run ⟨hat.1, rfl⟩ { hrun with rd := rfl, ctl := rfl } (.flush htree)
  · next hne => exact .run hat { hrun with rd := rfl, ctl := rfl } (.data htree (h.len ▸ succ_lt_of_ne hlt hne))

theorem endAlike_flush (cfg : Config) (hat : e.at phEFlush) (htree : e'.treeBits = e.treeBits) :
    EndAlike (Alike msg) (flush cfg e) (flush cfg e') := by
  have hctl : gotoPhase phEHeader e'.ctl = gotoPhase phEHeader e.ctl := congrArg _ h.ctl
  by_cases haligned : e.nb = 0
  · rw [flush_of_aligned cfg haligned, flush_of_aligned cfg (h.nb ▸ haligned)]
    exact .ok (.run ⟨hat.1, rfl⟩ { h with ctl := hctl } (.header htree rfl))
  · rcases Nat.lt_or_ge e.wr.toNat cfg.encOutCap with hroom | hcap
    · rw [flush_of_room haligned hroom, flush_of_room (h.nb ▸ haligned) (h.wr ▸ hroom), h.nb, h.wr, h.acc]
      exact .ok (.run ⟨hat.1, rfl⟩ { h with ctl := hctl, acc := rfl, nb := rfl, wr := rfl, payload := h.payload.store _ }
        (.header htree rfl))
    · rw [flush_of_full haligned hcap, flush_of_full (h.nb ▸ haligned) (h.wr ▸ hcap)]
      exact .raise _ h.ctl

theorem alike_storeHeader (htree : e'.treeBits = e.treeBits) (hpad : e'.padBits = e.padBits) :
    Alike msg (storeHeader e) (storeHeader e') := by
  have hheader : headerBytes e'.origSize e'.treeBits e'.padBits = headerBytes e.origSize e.treeBits e.padBits := by
    rw [h.origSize, htree, hpad]
  refine .ended nofun ?_ fun _ a ha => ?_
  · simp only [storeHeader, h.wr, h.ctl]
  · simp only [storeHeader, hheader, Memory.read_writeBytes, headerBytes_length]
    split
    · rfl
    · exact h.payload a (by omega) ha

end RunAlike

theorem alike_storeEmpty (msg : List Byte) {e e' : Enc} (hctl : e'.ctl = e.ctl) : Alike msg (storeEmpty e) (storeEmpty e') := by
  refine .ended nofun (congrArg (endRun 13) hctl) fun _ a ha => ?_
  have h13 : a < 13 := ha
  rw [read_storeEmpty, read_storeEmpty, if_pos h13, if_pos h13]

/-! ### The start of the run -/

/-- Two encoders at E_INIT with the same message, whatever else they hold. -/
structure StartAlike (msg : List Byte) (e e' : Enc) : Prop where
  at_init : e.at phInit
  at_init' : e'.at phInit
  len : e.ctl.inLen.toNat = msg.length
  len' : e'.ctl.inLen.toNat = msg.length
  holds : Holds e.ibuf msg
  holds' : Holds e'.ibuf msg

/-- E_INIT clears every control register but STATE and IN_LEN. -/
theorem initOutcome_of_at {e : Enc} (hat : e.at phInit) :
    initOutcome e.ctl = { state := .busy, inLen := e.ctl.inLen, outLen := 0, errCode := .none, phase := phInit } := by
  rw [initOutcome, hat.1, hat.2]

theorem endAlike_encInit {msg : List Byte} {e e' : Enc} (h : StartAlike msg e e') (cfg : Config) :
    EndAlike (Alike msg) (encInit cfg e) (encInit cfg e') := by
  obtain ⟨hat, hat', hlen, hlen', hholds, hholds'⟩ := h
  have hinLen : e'.ctl.inLen = e.ctl.inLen := BitVec.eq_of_toNat_eq (hlen'.trans hlen.symm)
  have hctl : initOutcome e'.ctl = initOutcome e.ctl := by rw [initOutcome_of_at hat, initOutcome_of_at hat', hinLen]
  rcases Nat.lt_or_ge cfg.encInCap e.ctl.inLen.toNat with hlong | hfits
  · rw [encInit_of_long hlong, encInit_of_long (hinLen ▸ hlong)]
    exact .raise _ hctl
  · rw [encInit_of_fits hfits, encInit_of_fits (hinLen ▸ hfits), hinLen, hctl]
    by_cases hzero : e.ctl.inLen = 0
    · exact .ok (.empty ⟨hat.1, if_pos hzero⟩ rfl)
    · have hpos : 0 < msg.length := hlen ▸ Nat.pos_of_ne_zero fun h0 => hzero (BitVec.eq_of_toNat_eq h0)
      refine .ok (.run (p := phECount) ⟨hat.1, if_neg hzero⟩ ?_ (.count ?_ hpos))
      · exact {
          acc := rfl, nb := rfl, nbits := rfl, wr := rfl, ctl := rfl, rd := rfl, freq := rfl, nnode := rfl, pq := rfl, code := rfl
          origSize := rfl
          payload := fun a hge hlt => absurd hlt (Nat.not_lt.2 hge)
          nonempty := List.length_pos_iff.1 hpos
          len := hlen
          holds := hholds
          holds' := hholds'
          arena := ⟨nofun, nofun⟩
          inUse := nofun }
      · exact {
          inLen_eq := hlen
          holds := hholds
          rd_eq := rfl
          phase_eq := (if_neg hzero).trans (if_neg hpos.ne).symm
          freq_eq := fun b => by simp [freqOf] }

/-! ### A step, and a run -/

/-- If `o` goes on, from `s` with another ENC, then so does `o'`, from `s'`, and the two are related by `R`. -/
def SetsAlike (R : Enc → Enc → Prop) (s s' : State) (o o' : Host.Outcome State Fault Refusal) : Prop :=
  ∀ t, o = .next t → ∃ e e', t = s.setEnc e ∧ o' = .next (s'.setEnc e') ∧ R e e'

theorem SetsAlike.next {R : Enc → Enc → Prop} {s s' : State} {e e' : Enc} (h : R e e') :
    SetsAlike R s s' (.next (s.setEnc e)) (.next (s'.setEnc e')) :=
  fun _ ht => ⟨e, e', (Host.Outcome.next.inj ht).symm, rfl, h⟩

theorem SetsAlike.fault {R : Enc → Enc → Prop} {s s' : State} {f : Fault} {o : Host.Outcome State Fault Refusal} :
    SetsAlike R s s' (.fault f) o := fun _ h => by cases h

/-- Both do the same micro-operation when the same cell or room is there. -/
theorem SetsAlike.ite {R : Enc → Enc → Prop} {s s' : State} {c c' : Prop} [Decidable c] [Decidable c'] {e e' : Enc} {f f' : Fault}
    (hc : c → c') (h : R e e') :
    SetsAlike R s s' (if c then .next (s.setEnc e) else .fault f) (if c' then .next (s'.setEnc e') else .fault f') := by
  split
  · next hyes =>
    rw [if_pos (hc hyes)]
    exact .next h
  · exact .fault

/-- Every micro-operation of the run leaves the encoders alike. -/
theorem exec_alike {msg : List Byte} {s s' : State} {p : BitVec 4} (hcfg : s'.cfg = s.cfg) (hat : s.enc.at p)
    (h : RunAlike msg s.enc s'.enc) (hp : PhaseAlike msg s.enc s'.enc p) :
    ∃ i, decode (.phase .enc) (natBits 4 p.toNat) = .ok (i, []) ∧ SetsAlike (Alike msg) s s' (exec i s) (exec i s') := by
  have hcell : s.enc.rd.toNat < s.cfg.encInCap → s'.enc.rd.toNat < s'.cfg.encInCap := by rw [hcfg, h.rd]; exact id
  cases hp with
  | count hcount hrd => exact ⟨.eCount, rfl, .ite hcell (alike_countByte h hat hcount hrd)⟩
  | leaves hocc =>
    refine ⟨.eLeaves, rfl, ?_⟩
    cases hadd : addLeaves allSymbols s.enc with
    | none =>
      simp only [exec, execELeaves, hadd]
      exact .fault
    | some x =>
      obtain ⟨x', hadd', halike⟩ := alike_addLeaves h hat hocc hadd
      rw [exec_eLeaves hadd, exec_eLeaves hadd']
      exact .next halike
  | merge hne =>
    refine ⟨.eMerge, rfl, ?_⟩
    cases hstep : mergeStep s.cfg s.enc with
    | none =>
      simp only [exec, execEMerge, hstep]
      exact .fault
    | some x =>
      obtain ⟨x', hstep', halike⟩ := alike_mergeStep h s.cfg hat hne hstep
      rw [exec_eMerge hstep, exec_eMerge (hcfg ▸ hstep')]
      exact .next halike
  | root hne => exact ⟨.eRoot, rfl, .next (hcfg ▸ alike_takeRoot h s.cfg hat hne)⟩
  | codegen hroot hr =>
    refine ⟨.eCodegen, rfl, ?_⟩
    cases hcode : codegen s.enc with
    | none =>
      simp only [exec, execECodegen, hcode]
      exact .fault
    | some code =>
      rw [exec_eCodegen hcode, exec_eCodegen ((h.codegen_eq hroot hr).trans hcode)]
      exact .next (alike_setCode h hat hroot hr code)
  | tree hroot hr =>
    refine ⟨.eTree, rfl, ?_⟩
    simp only [exec, execETree, hroot, h.arena.ser_eq 511 hr]
    split
    · exact .next (hcfg ▸ (endAlike_emitTree h s.cfg _ hat).alike)
    · exact .fault
  | data htree hrd => exact ⟨.eData, rfl, .ite hcell (hcfg ▸ (endAlike_encodeByte h s.cfg hat htree hrd).alike)⟩
  | flush htree => exact ⟨.eFlush, rfl, .next (hcfg ▸ (endAlike_flush h s.cfg hat htree).alike)⟩
  | header htree hpad => exact ⟨.eHeader, rfl, .ite (hcfg ▸ id) (alike_storeHeader h htree hpad)⟩

/-- ENC's job, BUSY in phase `p`. -/
theorem encJob_of_at {s : State} {p : BitVec 4} {i : Instr} {rest : Bits} (hat : s.enc.at p)
    (hdec : decode (.phase .enc) (natBits 4 p.toNat) = .ok (i, rest)) : encJob s = .run i := by
  rw [encJob_of_busy hat.1, hat.2, hdec]
  rfl

/-- ENC's job leaves encoders alike that were started or are in the run. -/
theorem encJob_alike {msg : List Byte} {s s' : State} (hcfg : s'.cfg = s.cfg) (h : StartAlike msg s.enc s'.enc ∨ Alike msg s.enc s'.enc) :
    SetsAlike (Alike msg) s s' (perform (encJob s) s) (perform (encJob s') s') := by
  rcases h with h | hat | ⟨hat, hctl⟩ | ⟨hn, hctl, hresult⟩
  · rw [encJob_of_at h.at_init rfl, encJob_of_at h.at_init' rfl]
    exact .next (hcfg ▸ (endAlike_encInit h s.cfg).alike)
  · next p h hp =>
    obtain ⟨i, hdec, hexec⟩ := exec_alike hcfg hat h hp
    have hat' : s'.enc.at p := by rw [Enc.at, h.ctl]; exact hat
    rwa [encJob_of_at hat hdec, encJob_of_at hat' hdec]
  · have hat' : s'.enc.at phEEmpty := by rw [Enc.at, hctl]; exact hat
    rw [encJob_of_at hat rfl, encJob_of_at hat' rfl]
    exact .ite (hcfg ▸ id) (alike_storeEmpty msg hctl)
  · rw [encJob_of_not_busy hn, encJob_of_not_busy (hctl ▸ hn)]
    exact SetsAlike.next (e := s.enc) (e' := s'.enc) (.ended hn hctl hresult)

theorem pickAgent_of_sched {s : State} {a : Agent} {l : List Agent} (h : s.sched = a :: l) : pickAgent s = (a, s.setSched l) := by
  rw [pickAgent, h]

/-- Two machines with the same parameters whose next `n` steps are ENC's, and whose encoders are related by `R`. -/
structure Paired (R : Enc → Enc → Prop) (n : Nat) (s s' : State) : Prop where
  cfg : s'.cfg = s.cfg
  sched : s.sched = List.replicate n (.unit .enc)
  sched' : s'.sched = List.replicate n (.unit .enc)
  enc : R s.enc s'.enc

/-- One step of ENC on either side. -/
theorem paired_step {msg : List Byte} {n : Nat} {s s' t : State}
    (h : Paired (fun e e' => StartAlike msg e e' ∨ Alike msg e e') (n + 1) s s') (hstep : step s = .next t) : ∃ t', step s' = .next t' ∧ Paired (Alike msg) n t t' := by
  obtain ⟨hcfg, hsched, hsched', henc⟩ := h
  have hpick := pickAgent_of_sched hsched
  have hpick' := pickAgent_of_sched hsched'
  rw [step_enc (by rw [hpick]), hpick] at hstep
  rw [step_enc (by rw [hpick']), hpick']
  obtain ⟨e, e', rfl, ht', halike⟩ :=
    encJob_alike (s := s.setSched (.replicate n _)) (s' := s'.setSched (.replicate n _)) hcfg henc t hstep
  exact ⟨_, ht', hcfg, rfl, rfl, halike⟩

theorem run_succ {s s' : State} (h : step s = .next s') (n : Nat) : Host.Core.run core (n + 1) s = Host.Core.run core n s' := by
  simp only [Host.Core.run, core, h]

theorem step_of_run_succ {s t : State} {n : Nat} (h : Host.Core.run core (n + 1) s = .next t) :
    ∃ s', step s = .next s' ∧ Host.Core.run core n s' = .next t := by
  cases hstep : step s with
  | next s' => exact ⟨s', rfl, (run_succ hstep n).symm.trans h⟩
  | fault f => simp [Host.Core.run, core, hstep] at h
  | refused r => simp [Host.Core.run, core, hstep] at h

/-- A run of ENC on either side. -/
theorem paired_run {msg : List Byte} {n : Nat} {s s' t : State} (h : Paired (Alike msg) n s s') (hrun : Host.Core.run core n s = .next t) :
    ∃ t', Host.Core.run core n s' = .next t' ∧ Alike msg t.enc t'.enc := by
  induction n generalizing s s' with
  | zero =>
    cases hrun
    exact ⟨s', rfl, h.enc⟩
  | succ n ih =>
    obtain ⟨s1, hstep, hrest⟩ := step_of_run_succ hrun
    obtain ⟨s1', hstep', h1⟩ := paired_step { h with enc := .inr h.enc } hstep
    rw [run_succ hstep']
    exact ih h1 hrest

/-- Settles O59: E_INIT makes the two encoders alike, every later step keeps them so, and alike encoders have the same control registers and
the same result. -/
theorem encodingDependsOnTheMessageAlone : Obligations.EncodingDependsOnTheMessageAlone := by
  intro s1 s2 t1 n msg hn hcfg _ _ hat1 hat2 hlen1 hlen2 hholds1 hholds2 hsched1 hsched2 hrun
  obtain ⟨n, rfl⟩ : ∃ k, n = k + 1 := ⟨n - 1, by omega⟩
  obtain ⟨s1', hstep1, hrest⟩ := step_of_run_succ hrun
  obtain ⟨s2', hstep2, hpaired⟩ :=
    paired_step ⟨hcfg.symm, hsched1, hsched2, .inl ⟨hat1, hat2, hlen1, hlen2, hholds1, hholds2⟩⟩ hstep1
  obtain ⟨t2, hrun2, halike⟩ := paired_run hpaired hrest
  exact ⟨t2, (run_succ hstep2 n).trans hrun2, halike.ctl_eq, halike.result_eq⟩

end Sys2Proof.Machine

namespace Sys2Proof.Machine

/-! ## D_INIT, D_CHECK and D_FINISH (rules R221, R224, R229) -/

/-- A file that does not fit IBUF (rule R288). -/
theorem decInit_of_long {cfg : Config} {d : Dec} (h : cfg.decInCap < d.ctl.inLen.toNat) :
    decInit cfg d = .raise .inCap { d with ctl := initOutcome d.ctl } := if_pos h

/-- A file without a whole header (rule R282). -/
theorem decInit_of_short {cfg : Config} {d : Dec} (hcap : d.ctl.inLen.toNat ≤ cfg.decInCap) (h : d.ctl.inLen.toNat < 13) :
    decInit cfg d = .raise .hdrShort { d with ctl := initOutcome d.ctl } := (if_neg (Nat.not_lt.2 hcap)).trans (if_pos h)

/-- DEC with its cursors cleared for a file, D_HEADER next. -/
def initDec (d : Dec) : Dec :=
  { d with ctl := gotoPhase phDHeader (initOutcome d.ctl), nnode := 0, bitpos := 0, wr := 0, stack := [], inSym := false }

theorem decInit_of_fits {cfg : Config} {d : Dec} (hcap : d.ctl.inLen.toNat ≤ cfg.decInCap) (h : 13 ≤ d.ctl.inLen.toNat) :
    decInit cfg d = .ok () (initDec d) :=
  (if_neg (Nat.not_lt.2 hcap)).trans (if_neg (Nat.not_lt.2 h))

theorem exec_dInit (s : State) : exec .dInit s = .next (s.setDec (settleDec (decInit s.cfg s.dec))) := rfl

/-- Settles O37: the two faults in their order, and the file that passes. -/
theorem dInitChecksTheLength : Obligations.DInitChecksTheLength := by
  intro s
  rw [exec_dInit]
  refine ⟨fun hlong => ?_, fun hcap hshort => ?_, fun hcap hfits => ?_⟩
  · rw [decInit_of_long hlong]
    rfl
  · rw [decInit_of_short hcap hshort]
    rfl
  · rw [decInit_of_fits hcap hfits]
    rfl

section Check
variable {cfg : Config} {d : Dec}

/-- DEC with AVAIL taken from IN_LEN and PAD_BITS. -/
def setAvail (d : Dec) : Dec := { d with avail := 8 * (d.ctl.inLen.toNat - 13) - d.padBits.toNat }

/-- More padding than a byte or the payload holds (rule R283). -/
theorem checkHeader_of_pad (h : 7 < d.padBits.toNat ∨ 8 * (d.ctl.inLen.toNat - 13) < d.padBits.toNat) :
    checkHeader cfg d = .raise .padRange d := if_pos h

variable (h7 : d.padBits.toNat ≤ 7) (hpay : d.padBits.toNat ≤ 8 * (d.ctl.inLen.toNat - 13))
include h7 hpay

/-- Padding in range: AVAIL is set, and the two other checks are made. -/
theorem checkHeader_of_padOk : checkHeader cfg d =
    if (setAvail d).avail < d.treeBits.toNat then .raise .treeLen (setAvail d)
    else if cfg.decOutCap < d.origSize.toNat then .raise .outCap (setAvail d)
    else .ok () { setAvail d with ctl := gotoPhase phDTree d.ctl } := if_neg (by omega)

/-- A tree window longer than the readable bits (rule R284). -/
theorem checkHeader_of_treeLen (h : (setAvail d).avail < d.treeBits.toNat) : checkHeader cfg d = .raise .treeLen (setAvail d) :=
  (checkHeader_of_padOk h7 hpay).trans (if_pos h)

variable (htree : d.treeBits.toNat ≤ (setAvail d).avail)
include htree

/-- A message that does not fit OBUF (rule R289). -/
theorem checkHeader_of_outCap (h : cfg.decOutCap < d.origSize.toNat) : checkHeader cfg d = .raise .outCap (setAvail d) :=
  (checkHeader_of_padOk h7 hpay).trans ((if_neg (Nat.not_lt.2 htree)).trans (if_pos h))

theorem checkHeader_of_fits (h : d.origSize.toNat ≤ cfg.decOutCap) :
    checkHeader cfg d = .ok () { setAvail d with ctl := gotoPhase phDTree d.ctl } :=
  (checkHeader_of_padOk h7 hpay).trans ((if_neg (Nat.not_lt.2 htree)).trans (if_neg (Nat.not_lt.2 h)))

end Check

theorem exec_dCheck (s : State) : exec .dCheck s = .next (s.setDec (settleDec (checkHeader s.cfg s.dec))) := rfl

/-- Settles O39: the three checks one by one; the conditions of the other clauses then fail. -/
theorem dCheckReportsTheFirstFailure : Obligations.DCheckReportsTheFirstFailure := by
  intro s _ n p bad
  refine ⟨_, exec_dCheck s, ?_⟩
  by_cases hpad : 7 < p ∨ 8 * n < p
  · rw [checkHeader_of_pad hpad]
    exact ⟨rfl, fun _ => rfl, by omega, by omega, by omega, by omega⟩
  obtain ⟨h7, hpay⟩ : p ≤ 7 ∧ p ≤ 8 * n := by omega
  rcases Nat.lt_or_ge (8 * n - p) s.dec.treeBits.toNat with hshort | htree
  · rw [checkHeader_of_treeLen h7 hpay hshort]
    exact ⟨rfl, fun h => absurd h hpad, fun _ _ => rfl, fun _ _ _ => rfl, by omega, by omega⟩
  rcases Nat.lt_or_ge s.cfg.decOutCap s.dec.origSize.toNat with hlong | hfits
  · rw [checkHeader_of_outCap h7 hpay htree hlong]
    exact ⟨rfl, fun h => absurd h hpad, fun _ _ => rfl, by omega, fun _ _ _ _ => rfl, by omega⟩
  · rw [checkHeader_of_fits h7 hpay htree hfits]
    exact ⟨rfl, fun h => absurd h hpad, fun _ _ => rfl, by omega, by omega, fun _ _ _ _ => ⟨rfl, rfl, rfl⟩⟩

theorem exec_dFinish (s : State) : exec .dFinish s = .next (s.setDec (finish s.dec)) := rfl

/-- Settles O49: the step is `finish`, which ends the run with ORIG_SIZE as its result length. -/
theorem dFinishEndsTheRun : Obligations.DFinishEndsTheRun := exec_dFinish

end Sys2Proof.Machine

namespace Sys2Proof.Machine

/-! ## A data bit missing (rules R286, R290)

Wherever the walk meets AVAIL it raises DATA_TRUNC with nothing but CUR and BITPOS moved. -/

theorem passBit_of_le {limit : Nat} (cause : ErrCode) {d : Dec} (h : limit ≤ d.bitpos) : passBit limit cause d = .raise cause d := if_pos h

/-- D_WALK at AVAIL, whatever the tree: a Leaf at the root wants a bit too (rule R226). -/
theorem walkSymbol_of_le {d : Dec} (h : d.avail ≤ d.bitpos) : walkSymbol d = .raise .dataTrunc { d with cur := 0 } := by
  cases hroot : decNode d.node 0 with
  | leaf sym => simp only [walkSymbol, hroot, getBit_of_le (d := { d with cur := 0 }) .dataTrunc h, Micro.bind_raise]
  | internal l r => simp only [walkSymbol, hroot, Nat.sub_eq_zero_of_le h, walkFrom]

theorem anyBit_of_le {d : Dec} (h : d.avail ≤ d.bitpos) (sym : Byte) : anyBit sym d = .raise .dataTrunc { d with cur := 0 } := by
  rw [anyBit, passBit_of_le (d := { d with cur := 0 }) _ h, Micro.bind_raise]

theorem walkEdge_of_le {d : Dec} (h : d.avail ≤ d.bitpos) (right : Bool) (l r : Handle) :
    walkEdge right l r d = .raise .dataTrunc { d with cur := standAt d } := by
  rw [walkEdge, passBit_of_le (d := { d with cur := standAt d }) _ h, Micro.bind_raise]

/-- The walk over bits that reach no Leaf takes them all and raises at AVAIL. -/
theorem walkFrom_of_no_leaf {tree : CodeTree} {w : Bits} {d : Dec} (hreps : DecReps d.node d.cur tree)
    (hnone : ∀ v, v <+: w → tree.walk v = none) (hbits : Spells d d.bitpos w) (havail : d.bitpos + w.length = d.avail) :
    ∃ c, walkFrom w.length d = .raise .dataTrunc { d with cur := c, bitpos := d.bitpos + w.length } := by
  induction w generalizing tree d with
  | nil =>
    match tree with
    | .leaf sym => cases hnone [] List.nil_prefix
    | .node l r =>
      obtain ⟨x, y, hnode, -, -⟩ := hreps
      exact ⟨d.cur, by simp only [List.length_nil, walkFrom, hnode, Nat.add_zero]⟩
  | cons b w ih =>
    match tree with
    | .leaf sym => cases hnone [] List.nil_prefix
    | .node l r =>
      obtain ⟨x, y, hnode, hl, hr⟩ := hreps
      rw [List.length_cons] at havail
      have hchild : DecReps d.node (if b then y else x) (if b then r else l) := by cases b <;> assumption
      obtain ⟨c, hrun⟩ := ih (tree := if b then r else l) (d := { d with bitpos := d.bitpos + 1, cur := if b then y else x }) hchild
        (fun v hv => by have := hnone (b :: v) (List.cons_prefix_cons.2 ⟨rfl, hv⟩); cases b <;> exact this) hbits.tail
        (by simp only; omega)
      refine ⟨c, ?_⟩
      rw [List.length_cons, walkFrom, hnode]
      simp only [getBit_of_lt .dataTrunc (show d.bitpos < d.avail by omega), Micro.bind_ok, hbits.head, hrun, Nat.add_assoc,
        Nat.add_comm 1]

/-- D_WALK over bits up to AVAIL that reach no Leaf: so the root is none. -/
theorem walkSymbol_of_no_leaf {tree : CodeTree} {w : Bits} {d : Dec} (hreps : DecReps d.node 0 tree)
    (hnone : ∀ v, v <+: w → tree.walk v = none) (hbits : Spells d d.bitpos w) (havail : d.bitpos + w.length = d.avail) :
    ∃ c, walkSymbol d = .raise .dataTrunc { d with cur := c, bitpos := d.bitpos + w.length } := by
  match tree with
  | .leaf sym => cases hnone [] List.nil_prefix
  | .node l r =>
    obtain ⟨x, y, hroot, -, -⟩ := id hreps
    have hleft : d.avail - d.bitpos = w.length := by omega
    simp only [walkSymbol, hroot, hleft]
    exact walkFrom_of_no_leaf (d := { d with cur := 0 }) hreps hnone hbits havail

/-- Settles O48: D_WALK and each walk bit raise at AVAIL, and D_WALK at the end of bits that lead to no Leaf. -/
theorem missingDataBitIsDataTrunc : Obligations.MissingDataBitIsDataTrunc := by
  intro s hfits hroom bad
  refine ⟨fun i hend hi => ?_, fun tree w hreps hbits havail hnone => ?_⟩
  · obtain ⟨c, hexec⟩ : ∃ c, exec i s = .next (s.setDec (settleDec (.raise .dataTrunc { s.dec with cur := c }))) := by
      rcases hi with rfl | ⟨x, rfl, sym, hroot⟩ | ⟨rfl | rfl, l, r, hstand⟩
      · exact ⟨_, by rw [exec_dWalk hroom hfits, walkSymbol_of_le hend]⟩
      · exact ⟨_, by rw [exec_sAny hroom hroot, anyBit_of_le hend]⟩
      · exact ⟨_, (walkBitAt_of_internal hroom hstand false).trans (by rw [walkEdge_of_le hend])⟩
      · exact ⟨_, (walkBitAt_of_internal hroom hstand true).trans (by rw [walkEdge_of_le hend])⟩
    exact ⟨_, hexec, rfl, rfl, rfl, rfl⟩
  · obtain ⟨c, hrun⟩ := walkSymbol_of_no_leaf hreps hnone hbits havail
    exact ⟨_, exec_dWalk hroom hfits, by rw [hrun]; exact ⟨rfl, havail, rfl, rfl⟩⟩

end Sys2Proof.Machine

namespace Sys2Proof.Machine

/-! ## The packed file of a message (rules R70, R73, R152, R226) -/

/-- `w` is a code for `b`: the path to its Leaf or, where the tree is that Leaf alone, any one bit. -/
inductive CodeFor : CodeTree → Byte → Bits → Prop
  | leaf (sym : Byte) (x : Bool) : CodeFor (.leaf sym) sym [x]
  | node {l r : CodeTree} {b : Byte} {w : Bits} (h : (CodeTree.node l r).walk w = some b) : CodeFor (.node l r) b w

/-- A tree the arena has room for, and a code for each byte of the message. -/
structure CodeBook (msg : List Byte) (tree : CodeTree) (code : Byte → Bits) : Prop where
  size_le : tree.size ≤ 511
  codeFor : ∀ b ∈ msg, CodeFor tree b (code b)

/-- The tree stream and the codes of the message's bytes. -/
def payload (tree : CodeTree) (code : Byte → Bits) (msg : List Byte) : Bits := tree.ser ++ msg.flatMap code

/-- A buffer spells `w` from address 13 on, most significant bit first (rule R73). -/
def SpelledIn (m : Memory) (w : Bits) : Prop :=
  ∀ k (h : k < w.length), ∃ b, Memory.read m (13 + k / 8) = some b ∧ b.getLsbD (7 - k % 8) = w[k]

/-- The parts of a file of `n` bytes beside its header `o t p`: what the header says of the payload, and the payload. -/
structure FileBody (msg : List Byte) (tree : CodeTree) (code : Byte → Bits) (o : BitVec 64) (t : BitVec 32) (p : Byte) (m : Memory)
    (n : Nat) : Prop where
  book : CodeBook msg tree code
  origSize_eq : o.toNat = msg.length
  treeBits_eq : t.toNat = tree.ser.length
  padBits_le : p.toNat ≤ 7
  length_eq : 8 * (n - 13) = (payload tree code msg).length + p.toNat
  spelled : SpelledIn m (payload tree code msg)

/-- The first `n` bytes of a buffer are a packed file of `msg`. -/
inductive PackedFile (msg : List Byte) (m : Memory) (n : Nat) : Prop
  | empty (hmsg : msg = []) (hn : n = 13) (hhead : Holds m (headerBytes 0 0 0))
  | message {tree : CodeTree} {code : Byte → Bits} {o : BitVec 64} {t : BitVec 32} {p : Byte} (hne : msg ≠ [])
      (hbody : FileBody msg tree code o t p m n) (hhead : Holds m (headerBytes o t p))

theorem CodeTree.ser_pos (tree : CodeTree) : 0 < tree.ser.length := by
  have := tree.ser_length
  have := tree.leaves_pos
  omega

theorem payload_length (tree : CodeTree) (code : Byte → Bits) (msg : List Byte) :
    (payload tree code msg).length = tree.ser.length + (msg.flatMap code).length := List.length_append

theorem payload_nil (tree : CodeTree) (code : Byte → Bits) : payload tree code [] = tree.ser := List.append_nil _

theorem payload_append (tree : CodeTree) (code : Byte → Bits) (msg : List Byte) (b : Byte) :
    payload tree code (msg ++ [b]) = payload tree code msg ++ code b := by
  rw [payload, payload, List.flatMap_append, List.flatMap_singleton, List.append_assoc]

/-- The tree stream makes the payload at least a byte long. -/
theorem FileBody.length_gt {msg : List Byte} {tree : CodeTree} {code : Byte → Bits} {o : BitVec 64} {t : BitVec 32} {p : Byte}
    {m : Memory} {n : Nat} (h : FileBody msg tree code o t p m n) : 13 < n := by
  have hlen := h.length_eq
  have hpos := tree.ser_pos
  rw [payload_length] at hlen
  omega

theorem PackedFile.length_ge {msg : List Byte} {m : Memory} {n : Nat} (h : PackedFile msg m n) : 13 ≤ n := by
  cases h with
  | empty _ hn _ => exact hn.ge
  | message _ hbody _ => exact hbody.length_gt.le

theorem SpelledIn.congr {m m' : Memory} {w : Bits} {n : Nat} (h : SpelledIn m w) (hn : w.length ≤ 8 * (n - 13))
    (hmoved : ∀ a, 13 ≤ a → a < n → Memory.read m' a = Memory.read m a) : SpelledIn m' w := fun k hk => by
  rw [hmoved _ (Nat.le_add_right ..) (by omega)]
  exact h k hk

/-- A file is a file wherever its bytes are moved. -/
theorem PackedFile.congr {msg : List Byte} {m m' : Memory} {n : Nat} (h : PackedFile msg m n)
    (hmoved : ∀ a, a < n → Memory.read m' a = Memory.read m a) : PackedFile msg m' n := by
  have hheader : ∀ {o t p}, Holds m (headerBytes o t p) → Holds m' (headerBytes o t p) := fun hhead k hk => by
    have := h.length_ge
    rw [hmoved k (by rw [headerBytes_length] at hk; omega)]
    exact hhead k hk
  cases h with
  | empty hmsg hn hhead => exact .empty hmsg hn (hheader hhead)
  | message hne hbody hhead =>
    have hlen := hbody.length_eq
    exact .message hne { hbody with spelled := hbody.spelled.congr (n := n) (by omega) fun a _ => hmoved a } (hheader hhead)

theorem CodeTree.syms_length (tree : CodeTree) : tree.syms.length = tree.leaves := by
  induction tree with
  | leaf sym => rfl
  | node l r ihl ihr => rw [CodeTree.syms, List.length_append, ihl, ihr, CodeTree.leaves]

theorem CodeBook.toNat_treeBits {msg : List Byte} {tree : CodeTree} {code : Byte → Bits} (h : CodeBook msg tree code) :
    (BitVec.ofNat 32 tree.ser.length).toNat = tree.ser.length := by
  have := h.size_le
  have := tree.size_eq
  have := tree.ser_length
  rw [BitVec.toNat_ofNat]
  omega

end Sys2Proof.Machine

namespace Sys2Proof.Machine

/-! ## ENC's run makes the packed file (rules R200, R201 to R209)

`Encoding msg` holds of ENC from E_INIT on and every micro-operation keeps it. In each phase it says what the run has made so far. -/

/-! ### The packer -/

/-- The packer has appended the bits `w` and no others (rule R183). -/
structure Packed (w : Bits) (e : Enc) : Prop where
  ok : PackerOk e
  nbits_eq : e.nbits = w.length
  bit_eq : ∀ k (h : k < w.length), packedBit e k = w[k]
  stored : PayloadStored e

theorem packed_nil {e : Enc} (hacc : e.acc = 0) (hnb : e.nb = 0) (hnbits : e.nbits = 0) (hwr : e.wr = 13) : Packed [] e where
  ok := by simp [PackerOk, hacc, hnb, hnbits, hwr]
  nbits_eq := hnbits
  bit_eq := nofun
  stored := fun a hge hlt => absurd hlt (Nat.not_lt.2 ((congrArg BitVec.toNat hwr).trans_le hge))

theorem Packed.append {cfg : Config} (hwide : cfg.encOutCap < 2 ^ 64) {v w : Bits} {e e' : Enc} (h : Packed v e)
    (hrun : putBits cfg w e = .ok () e') : Packed (v ++ w) e' := by
  have hpacks := packs_of_putBits hwide h.ok hrun
  have hstored := putBits_payloadStored cfg w h.stored
  rw [hrun] at hstored
  have hn := h.nbits_eq
  refine ⟨hpacks.ok, by rw [hpacks.nbits_eq, hn, List.length_append], fun k hk => ?_, hstored⟩
  rcases Nat.lt_or_ge k v.length with hlt | hge
  · rw [List.getElem_append_left hlt, hpacks.old k (hn ▸ hlt), h.bit_eq k hlt]
  · rw [List.length_append] at hk
    rw [List.getElem_append_right hge, ← hpacks.new (k - v.length) (by omega), hn, Nat.add_sub_cancel' hge]

/-- What E_FLUSH leaves: the bits in OBUF, padded to whole bytes (rule R184). -/
structure Flushed (w : Bits) (e : Enc) : Prop where
  spelled : SpelledIn e.obuf w
  padBits_le : e.padBits.toNat ≤ 7
  length_eq : 8 * (e.wr.toNat - 13) = w.length + e.padBits.toNat

theorem Packed.flush {cfg : Config} (hwide : cfg.encOutCap < 2 ^ 64) {w : Bits} {e e' : Enc} (h : Packed w e)
    (hrun : flush cfg e = .ok () e') : Flushed w e' := by
  obtain ⟨hread, hpad, hlen⟩ := flushes_of_flush hwide h.ok h.stored hrun
  rw [h.nbits_eq] at hpad hlen
  refine ⟨fun k hk => ⟨_, hread _ (Nat.le_add_right ..) (by omega), ?_⟩, by omega, hlen⟩
  rw [← packedBit_eq, h.bit_eq k hk]

/-- A flush that ends well changes the packer's registers, PAD_BITS and OBUF, and goes on to E_HEADER. -/
theorem flush_keeps {cfg : Config} {e e' : Enc} (hrun : flush cfg e = .ok () e') :
    e' = { e with
      padBits := e'.padBits, obuf := e'.obuf, wr := e'.wr, acc := e'.acc, nb := e'.nb, ctl := gotoPhase phEHeader e.ctl } := by
  by_cases haligned : e.nb = 0
  · rw [flush_of_aligned cfg haligned] at hrun
    cases hrun
    rfl
  by_cases hroom : e.wr.toNat < cfg.encOutCap
  · rw [flush_of_room haligned hroom] at hrun
    cases hrun
    rfl
  · rw [flush_of_full haligned (Nat.le_of_not_lt hroom)] at hrun
    cases hrun

/-! ### The Leaves as a forest -/

theorem addLeaves_sorted {syms : List Byte} {e e' : Enc} (hadd : addLeaves syms e = some e') (h : e.pq.Pairwise (· < ·)) :
    e'.pq.Pairwise (· < ·) := by
  induction syms generalizing e with
  | nil => exact Option.some.inj hadd ▸ h
  | cons sym syms ih =>
    simp only [addLeaves] at hadd
    split at hadd
    · cases hadd
    · next e1 h1 =>
      refine ih hadd ?_
      rcases addLeaf_cases h1 with ⟨-, rfl⟩ | ⟨-, g, m, -, rfl⟩
      · exact h
      · exact queueInsert_sorted h

/-- A rising queue of the handles below NNODE lists them in order, so its handles are the Leaves of the symbols, one by one. -/
theorem LeavesOf.forall₂ {e0 e : Enc} {occ : List Byte} (h : LeavesOf e0 occ e) (hsorted : e.pq.Pairwise (· < ·)) :
    List.Forall₂ (fun g b => ∃ f, encNode e.node g = .leaf b f) e.pq occ := by
  have hvals : e.pq.map Fin.val = List.range e.nnode.val := by
    have hrising : (e.pq.map Fin.val).Pairwise (· < ·) := List.pairwise_map.2 hsorted
    refine List.Perm.eq_of_pairwise (fun a b _ _ hab hba => absurd hab (Nat.lt_asymm hba)) hrising List.pairwise_lt_range
      ((List.perm_ext_iff_of_nodup (hrising.imp Nat.ne_of_lt) List.nodup_range).2 fun a => ?_)
    rw [List.mem_map, List.mem_range]
    refine ⟨fun ⟨g, hg, ha⟩ => ha ▸ (h.mem_pq g).1 hg, fun ha => ?_⟩
    have hn := e.nnode.isLt
    exact ⟨⟨a, by omega⟩, (h.mem_pq _).2 ha, rfl⟩
  refine List.forall₂_iff_get.2 ⟨h.pq_length.trans h.nnode_eq, fun i hi hi' => ⟨_, h.leaf _ _ ?_⟩⟩
  have hval : (e.pq.get ⟨i, hi⟩).val = i := by
    have := List.getElem_of_eq hvals (i := i) (by simpa using hi)
    simpa using this
  rw [hval, List.getElem?_eq_getElem hi', List.get_eq_getElem]

/-! ### The phases of the run -/

/-- What every phase from E_COUNT to E_HEADER keeps. -/
structure InRun (msg : List Byte) (e : Enc) : Prop where
  nonempty : msg ≠ []
  inLen_eq : e.ctl.inLen.toNat = msg.length
  origSize_eq : e.origSize.toNat = msg.length
  holds : Holds e.ibuf msg

/-- The queued handles are the roots of a forest in which every byte of the message stands. -/
structure InForest (msg : List Byte) (e : Enc) : Prop where
  queue : QueueOk e
  forest : ∃ syms : List Byte, syms.length ≤ 256 ∧ (∀ b ∈ msg, b ∈ syms) ∧ Forest syms e

/-- What the run has made when a phase begins, or goes on. -/
inductive EncPhase (msg : List Byte) (e : Enc) : BitVec 4 → Prop
  | count (hcount : Counted msg e.rd.toNat e) (hrd : e.rd.toNat < msg.length) (hnnode : e.nnode.val = 0) (hpq : e.pq = [])
      (hpacked : Packed [] e) : EncPhase msg e phECount
  | leaves (hfreq : ∀ b, (freqOf e b).toNat = msg.count b) (hnnode : e.nnode.val = 0) (hpq : e.pq = []) (hpacked : Packed [] e) :
      EncPhase msg e phELeaves
  | merge (hforest : InForest msg e) (hne : e.pq ≠ []) (hpacked : Packed [] e) : EncPhase msg e phEMerge
  | root (hforest : InForest msg e) (hlen : e.pq.length = 1) (hpacked : Packed [] e) : EncPhase msg e phERoot
  | codegen {tree : CodeTree} (hreps : EncReps e.node e.root tree) (hsize : tree.size ≤ 511) (hsyms : ∀ b ∈ msg, b ∈ tree.syms)
      (hpacked : Packed [] e) : EncPhase msg e phECodegen
  | tree {tree : CodeTree} (hreps : EncReps e.node e.root tree) (hbook : CodeBook msg tree (codeOf e)) (hpacked : Packed [] e) :
      EncPhase msg e phETree
  | data {tree : CodeTree} (hbook : CodeBook msg tree (codeOf e)) (htree : e.treeBits.toNat = tree.ser.length)
      (hrd : e.rd.toNat < msg.length) (hpacked : Packed (payload tree (codeOf e) (msg.take e.rd.toNat)) e) : EncPhase msg e phEData
  | flush {tree : CodeTree} (hbook : CodeBook msg tree (codeOf e)) (htree : e.treeBits.toNat = tree.ser.length)
      (hpacked : Packed (payload tree (codeOf e) msg) e) : EncPhase msg e phEFlush
  | header {tree : CodeTree} (hbook : CodeBook msg tree (codeOf e)) (htree : e.treeBits.toNat = tree.ser.length)
      (hflushed : Flushed (payload tree (codeOf e) msg) e) : EncPhase msg e phEHeader

/-- ENC at E_INIT with the message, in the run, or after its end: in DONE the result is the packed file. -/
inductive Encoding (msg : List Byte) (e : Enc) : Prop
  | start (hat : e.at phInit) (hlen : e.ctl.inLen.toNat = msg.length) (hholds : Holds e.ibuf msg)
  | run {p : BitVec 4} (hat : e.at p) (h : InRun msg e) (hp : EncPhase msg e p)
  | empty (hat : e.at phEEmpty) (hmsg : msg = [])
  | done (hstate : e.ctl.state = .done) (hfile : PackedFile msg e.obuf e.ctl.outLen.toNat)
  | failed (hstate : e.ctl.state = .error)

theorem Encoding.settle {msg : List Byte} {m : Micro Enc Unit} (h : ∀ e, m = .ok () e → Encoding msg e) : Encoding msg (settleEnc m) := by
  cases m with
  | ok a e => exact h e rfl
  | raise c e => exact .failed rfl

section Phases
variable {msg : List Byte} {e : Enc}

theorem encoding_encInit (cfg : Config) (hat : e.at phInit) (hlen : e.ctl.inLen.toNat = msg.length) (hholds : Holds e.ibuf msg) :
    Encoding msg (settleEnc (encInit cfg e)) := by
  refine .settle fun e' hrun => ?_
  rcases Nat.lt_or_ge cfg.encInCap e.ctl.inLen.toNat with hlong | hfits
  · rw [encInit_of_long hlong] at hrun
    cases hrun
  rw [encInit_of_fits hfits] at hrun
  cases hrun
  by_cases hzero : e.ctl.inLen = 0
  · refine .empty ⟨hat.1, if_pos hzero⟩ (List.eq_nil_of_length_eq_zero ?_)
    rw [← hlen, hzero]
    rfl
  · have hpos : 0 < msg.length := hlen ▸ Nat.pos_of_ne_zero fun h0 => hzero (BitVec.eq_of_toNat_eq h0)
    refine .run (p := phECount) ⟨hat.1, if_neg hzero⟩ ⟨List.length_pos_iff.1 hpos, hlen, hlen, hholds⟩
      (.count ?_ hpos rfl rfl (packed_nil rfl rfl rfl rfl))
    exact {
      inLen_eq := hlen
      holds := hholds
      rd_eq := rfl
      phase_eq := (if_neg hzero).trans (if_neg hpos.ne).symm
      freq_eq := fun b => by simp [freqOf] }

theorem InRun.goto (h : InRun msg e) (p : BitVec 4) : InRun msg { e with ctl := gotoPhase p e.ctl } := { h with }

theorem encoding_countByte (h : InRun msg e) (hat : e.at phECount) (hcount : Counted msg e.rd.toNat e) (hrd : e.rd.toNat < msg.length)
    (hnnode : e.nnode.val = 0) (hpq : e.pq = []) (hpacked : Packed [] e) : Encoding msg (countByte e) := by
  have hnext := hcount.next hrd
  have hrun : InRun msg (countByte e) := { h with inLen_eq := hnext.inLen_eq }
  have hpacked' : Packed [] (countByte e) := { hpacked with }
  have hphase := hnext.phase_eq
  have hb : (countByte e).ctl.state = .busy := by
    rw [countByte_ctl (h.inLen_eq ▸ hrd)]
    exact hat.1
  by_cases hlast : e.rd.toNat + 1 = msg.length
  · rw [if_pos hlast] at hphase
    refine .run ⟨hb, hphase⟩ hrun (.leaves (fun b => ?_) hnnode hpq hpacked')
    rw [hnext.freq_eq, hlast, List.take_length]
  · rw [if_neg hlast] at hphase
    refine .run ⟨hb, hphase⟩ hrun (.count ?_ ?_ hnnode hpq hpacked') <;> rw [hnext.rd_eq]
    · exact hnext
    · omega

theorem leavesOf_nil (hnnode : e.nnode.val = 0) (hpq : e.pq = []) : LeavesOf e [] e where
  frame := rfl
  nnode_eq := hnnode
  mem_pq := by simp [hpq, hnnode]
  pq_length := by simp [hpq, hnnode]
  leaf := nofun
  other := fun _ _ => rfl

/-- E_LEAVES queues the Leaves of the symbols that occur, which are those of the message (rules R132, R141). -/
theorem encoding_addLeaves {x : Enc} (h : InRun msg e) (hat : e.at phELeaves) (hfreq : ∀ b, (freqOf e b).toNat = msg.count b)
    (hnnode : e.nnode.val = 0) (hpq : e.pq = []) (hpacked : Packed [] e) (hadd : addLeaves allSymbols e = some x) :
    Encoding msg { x with ctl := gotoPhase phEMerge x.ctl } := by
  have hocc : ∀ b ∈ msg, freqOf e b ≠ 0 := fun b hb hz => List.count_eq_zero.1 (by rw [← hfreq b, hz]; rfl) hb
  have hne : x.pq ≠ [] := pq_ne_nil_of_addLeaves hadd
    (.inr ⟨_, mem_allSymbols _, hocc _ (List.head_mem h.nonempty)⟩)
  have hsorted := addLeaves_sorted hadd (by simp [hpq])
  obtain ⟨x', hadd', hleaves⟩ := (leavesOf_nil hnnode hpq).loop allSymbols (by rw [allSymbols_length]; decide)
  obtain rfl : x' = x := Option.some.inj (hadd'.symm.trans hadd)
  have hfew : (allSymbols.filter fun b => freqOf e b ≠ 0).length ≤ 256 := (List.length_filter_le ..).trans allSymbols_length.le
  have hn := hleaves.nnode_eq
  have hlen := hleaves.pq_length
  have hinUse : ∀ g ∈ x'.pq, g.val < x'.nnode.val := fun g => (hleaves.mem_pq g).1
  rw [List.nil_append] at hn
  have hforest : InForest msg x' :=
    ⟨⟨hsorted, hinUse, by omega⟩, _, hfew, fun b hb => List.mem_filter.2 ⟨mem_allSymbols b, decide_eq_true (hocc b hb)⟩,
      forest_of_leaves hinUse (hleaves.forall₂ hsorted)⟩
  have hframe := hleaves.frame
  have hrun : InRun msg x' := by
    rw [hframe]
    exact { h with }
  have hpacked' : Packed [] x' := by
    rw [hframe]
    exact { hpacked with }
  exact .run ⟨addLeaves_ctl hadd ▸ hat.1, rfl⟩ (hrun.goto _)
    (.merge { hforest with queue := { hforest.queue with } } hne { hpacked' with })

/-- E_MERGE joins two trees of the forest, or leaves the one that remains to E_ROOT (rules R143, R144). -/
theorem encoding_mergeStep {cfg : Config} {x : Enc} (h : InRun msg e) (hat : e.at phEMerge) (hforest : InForest msg e) (hne : e.pq ≠ [])
    (hpacked : Packed [] e) (hstep : mergeStep cfg e = some x) : Encoding msg x := by
  obtain ⟨n, hlen⟩ : ∃ n, e.pq.length = n + 1 := Nat.exists_eq_add_one.2 (List.length_pos_iff.2 hne)
  obtain ⟨hqueue, syms, hfew, hsyms, hsymForest⟩ := id hforest
  cases n with
  | zero =>
    obtain ⟨root, hpq⟩ := List.length_eq_one_iff.1 hlen
    rw [mergeStep_of_one cfg hpq] at hstep
    cases hstep
    exact .run ⟨hat.1, rfl⟩ (h.goto _) (.root { hforest with queue := { hqueue with } } hlen { hpacked with })
  | succ n =>
    obtain ⟨a, b, g, m, q, hjoin, hn, hperm, hsub⟩ := mergeStep_of_length cfg hqueue hlen
    obtain rfl : joinNodes e a b g m q = x := Option.some.inj (hjoin.symm.trans hstep)
    obtain ⟨hqueue', -⟩ := hqueue.join hperm hn hsub
    exact .run hat { h with } (.merge ⟨hqueue', syms, hfew, hsyms, hsymForest.join hqueue hperm hn⟩
      (List.ne_nil_of_mem (mem_queueInsert.2 (.inl rfl))) { hpacked with })

/-- E_ROOT takes the tree of the whole message (rule R145). A tree of at most 256 Leaves has at most 511 nodes. -/
theorem encoding_takeRoot (cfg : Config) (h : InRun msg e) (hat : e.at phERoot) (hforest : InForest msg e) (hlen : e.pq.length = 1)
    (hpacked : Packed [] e) : Encoding msg (takeRoot cfg e) := by
  obtain ⟨root, hpq⟩ := List.length_eq_one_iff.1 hlen
  obtain ⟨-, syms, hfew, hsyms, hsymForest⟩ := hforest
  obtain ⟨tree, hreps, hperm⟩ := hsymForest.tree hpq
  have hsize : tree.size ≤ 511 := by
    have := tree.size_eq
    have := tree.syms_length
    have := hperm.length_eq
    omega
  rw [takeRoot, hpq, extractMin_singleton]
  exact .run ⟨hat.1, rfl⟩ { h with } (.codegen hreps hsize (fun b hb => hperm.mem_iff.2 (hsyms b hb)) { hpacked with })

/-- E_CODEGEN makes the code book: the paths to the Leaves, or `0` for a Leaf alone (rules R151 to R153). -/
theorem codeFor_of_codegen {tree : CodeTree} {code : Vector Bits 256} (hreps : EncReps e.node e.root tree) (hcode : codegen e = some code)
    {b : Byte} (hb : b ∈ tree.syms) : CodeFor tree b (code[b.toNat]'b.isLt) := by
  cases tree with
  | leaf sym =>
    obtain ⟨f, hroot⟩ := hreps
    obtain rfl : b = sym := List.mem_singleton.1 hb
    obtain rfl := Option.some.inj ((codegen_of_leaf hroot).symm.trans hcode)
    rw [getElem_setCode, if_pos rfl]
    exact .leaf b false
  | node l r =>
    obtain ⟨f, x, y, hroot, -, -⟩ := id hreps
    rw [codegen_of_internal hroot] at hcode
    obtain ⟨w, hw, hwalk⟩ := (addsPaths_of_assignCodes hreps hcode).path b hb
    rw [hw]
    exact .node hwalk

theorem encoding_setCode {tree : CodeTree} {code : Vector Bits 256} (h : InRun msg e) (hat : e.at phECodegen)
    (hreps : EncReps e.node e.root tree) (hsize : tree.size ≤ 511) (hsyms : ∀ b ∈ msg, b ∈ tree.syms) (hpacked : Packed [] e)
    (hcode : codegen e = some code) : Encoding msg { e with code := code, ctl := gotoPhase phETree e.ctl } :=
  .run ⟨hat.1, rfl⟩ { h with } (.tree hreps ⟨hsize, fun b hb => codeFor_of_codegen hreps hcode (hsyms b hb)⟩ { hpacked with })

section Pack
variable {cfg : Config} (hwide : cfg.encOutCap < 2 ^ 64) {tree : CodeTree}
include hwide

/-- Bits appended leave ENC as it was but for the packer's registers and OBUF. -/
theorem Packed.append_keeps {v w : Bits} {e' : Enc} (h : Packed v e) (hput : putBits cfg w e = .ok () e') :
    Packed (v ++ w) e' ∧
      ∃ acc nb nbits obuf wr, e' = { e with acc := acc, nb := nb, nbits := nbits, obuf := obuf, wr := wr } := by
  have hkeeps := putBits_keeps cfg w e
  rw [hput] at hkeeps
  exact ⟨h.append hwide hput, _, _, _, _, _, hkeeps⟩

/-- E_TREE appends the tree stream (rule R163). -/
theorem encoding_emitTree (h : InRun msg e) (hat : e.at phETree) (hbook : CodeBook msg tree (codeOf e)) (hpacked : Packed [] e) :
    Encoding msg (settleEnc (emitTree cfg tree.ser e)) := by
  refine .settle fun x hrun => ?_
  obtain ⟨_, e', hput, hx⟩ := Micro.bind_eq_ok hrun
  cases hx
  obtain ⟨hpacked', _, _, _, _, _, rfl⟩ := hpacked.append_keeps hwide hput
  have htree := hbook.toNat_treeBits
  rw [List.nil_append, ← payload_nil tree (codeOf e)] at hpacked'
  rw [← payload_nil tree (codeOf e), ← hpacked'.nbits_eq] at htree
  exact .run ⟨hat.1, rfl⟩ { h with }
    (.data hbook (htree.trans (hpacked'.nbits_eq.trans (by rw [payload_nil]))) (List.length_pos_iff.2 h.nonempty) { hpacked' with })

/-- E_DATA appends the code of one byte more (rule R207). -/
theorem encoding_encodeByte (h : InRun msg e) (hat : e.at phEData) (hbook : CodeBook msg tree (codeOf e))
    (htree : e.treeBits.toNat = tree.ser.length) (hrd : e.rd.toNat < msg.length)
    (hpacked : Packed (payload tree (codeOf e) (msg.take e.rd.toNat)) e) : Encoding msg (settleEnc (encodeByte cfg e)) := by
  have hcode : nextCode e = codeOf e msg[e.rd.toNat] := by rw [nextCode, cellByte, h.holds _ hrd, Option.getD_some]
  have hlt : e.rd.toNat < e.ctl.inLen.toNat := h.inLen_eq ▸ hrd
  have hrd' : (e.rd + 1).toNat = e.rd.toNat + 1 := toNat_succ_of_lt hlt
  refine .settle fun x hrun => ?_
  rw [encodeByte_eq] at hrun
  obtain ⟨_, e', hput, hx⟩ := Micro.bind_eq_ok hrun
  cases hx
  obtain ⟨hpacked', _, _, _, _, _, rfl⟩ := hpacked.append_keeps hwide hput
  rw [hcode, ← payload_append, ← List.take_succ_eq_append_getElem hrd, ← hrd'] at hpacked'
  by_cases hlast : e.rd + 1 = e.ctl.inLen
  · rw [hlast, h.inLen_eq, List.take_length] at hpacked'
    simp only [if_pos hlast]
    exact .run ⟨hat.1, rfl⟩ { h with } (.flush hbook htree { hpacked' with })
  · simp only [if_neg hlast]
    exact .run hat { h with } (.data hbook htree (h.inLen_eq ▸ succ_lt_of_ne hlt hlast) { hpacked' with })

theorem encoding_flush (h : InRun msg e) (hat : e.at phEFlush) (hbook : CodeBook msg tree (codeOf e))
    (htree : e.treeBits.toNat = tree.ser.length) (hpacked : Packed (payload tree (codeOf e) msg) e) :
    Encoding msg (settleEnc (flush cfg e)) := by
  refine .settle fun x hrun => ?_
  have hflushed := hpacked.flush hwide hrun
  obtain ⟨_, _, _, _, _, rfl⟩ : ∃ pad obuf wr acc nb,
      x = { e with padBits := pad, obuf := obuf, wr := wr, acc := acc, nb := nb, ctl := gotoPhase phEHeader e.ctl } :=
    ⟨_, _, _, _, _, flush_keeps hrun⟩
  exact .run ⟨hat.1, rfl⟩ { h with } (.header hbook htree hflushed)

end Pack

/-- The bytes stored from address 0 on. -/
theorem holds_writeBytes (m : Memory) (bs : List Byte) : Holds (Memory.writeBytes m 0 bs) bs := fun k hk => by
  rw [Memory.read_writeBytes, if_pos ⟨Nat.zero_le k, by omega⟩, Nat.sub_zero, List.getElem?_eq_getElem hk]

/-- E_HEADER completes the file (rule R209): the payload stands above the header. -/
theorem encoding_storeHeader {tree : CodeTree} (h : InRun msg e) (hbook : CodeBook msg tree (codeOf e))
    (htree : e.treeBits.toNat = tree.ser.length) (hflushed : Flushed (payload tree (codeOf e) msg) e) : Encoding msg (storeHeader e) := by
  obtain ⟨hspelled, hpad, hlen⟩ := hflushed
  refine .done rfl (.message h.nonempty ⟨hbook, h.origSize_eq, htree, hpad, hlen, ?_⟩ (holds_writeBytes _ _))
  refine hspelled.congr (n := e.wr.toNat) (by omega) fun a ha _ => ?_
  exact (Memory.read_writeBytes _ 0 _ a).trans (if_neg (by rw [headerBytes_length]; omega))

theorem encoding_storeEmpty (hmsg : msg = []) : Encoding msg (storeEmpty e) := .done rfl (.empty hmsg rfl (holds_writeBytes _ _))

end Phases

/-! ### A step, and a run -/

/-- Every micro-operation of the run leads on to the file, ends in ERROR or meets a fault of the model. -/
theorem exec_encoding {msg : List Byte} {s : State} {p : BitVec 4} (hwide : s.cfg.encOutCap < 2 ^ 64) (hat : s.enc.at p)
    (h : InRun msg s.enc) (hp : EncPhase msg s.enc p) :
    ∃ i, decode (.phase .enc) (natBits 4 p.toNat) = .ok (i, []) ∧ SetsEnc (Encoding msg) s (exec i s) := by
  cases hp with
  | count hcount hrd hnnode hpq hpacked => exact ⟨.eCount, rfl, .ite (encoding_countByte h hat hcount hrd hnnode hpq hpacked)⟩
  | leaves hfreq hnnode hpq hpacked =>
    refine ⟨.eLeaves, rfl, ?_⟩
    cases hadd : addLeaves allSymbols s.enc with
    | none =>
      simp only [exec, execELeaves, hadd]
      exact .fault
    | some x =>
      rw [exec_eLeaves hadd]
      exact .next (encoding_addLeaves h hat hfreq hnnode hpq hpacked hadd)
  | merge hforest hne hpacked =>
    refine ⟨.eMerge, rfl, ?_⟩
    cases hstep : mergeStep s.cfg s.enc with
    | none =>
      simp only [exec, execEMerge, hstep]
      exact .fault
    | some x =>
      rw [exec_eMerge hstep]
      exact .next (encoding_mergeStep h hat hforest hne hpacked hstep)
  | root hforest hlen hpacked => exact ⟨.eRoot, rfl, .next (encoding_takeRoot s.cfg h hat hforest hlen hpacked)⟩
  | codegen hreps hsize hsyms hpacked =>
    refine ⟨.eCodegen, rfl, ?_⟩
    cases hcode : codegen s.enc with
    | none =>
      simp only [exec, execECodegen, hcode]
      exact .fault
    | some code =>
      rw [exec_eCodegen hcode]
      exact .next (encoding_setCode h hat hreps hsize hsyms hpacked hcode)
  | tree hreps hbook hpacked =>
    refine ⟨.eTree, rfl, ?_⟩
    simp only [exec, execETree]
    split
    · next w hser =>
      rw [eq_ser_of_reps hreps hser]
      exact .next (encoding_emitTree hwide h hat hbook hpacked)
    · exact .fault
  | data hbook htree hrd hpacked => exact ⟨.eData, rfl, .ite (encoding_encodeByte hwide h hat hbook htree hrd hpacked)⟩
  | flush hbook htree hpacked => exact ⟨.eFlush, rfl, .next (encoding_flush hwide h hat hbook htree hpacked)⟩
  | header hbook htree hflushed => exact ⟨.eHeader, rfl, .ite (encoding_storeHeader h hbook htree hflushed)⟩

/-- ENC's job keeps `Encoding`. -/
theorem encJob_encoding {msg : List Byte} {s : State} (hwide : s.cfg.encOutCap < 2 ^ 64) (h : Encoding msg s.enc) :
    SetsEnc (Encoding msg) s (perform (encJob s) s) := by
  have hidle : s.enc.ctl.state ≠ .busy → SetsEnc (Encoding msg) s (perform (encJob s) s) := fun hn => by
    rw [encJob_of_not_busy hn]
    exact SetsEnc.next (e := s.enc) h
  cases id h with
  | start hat hlen hholds =>
    rw [encJob_of_at hat rfl]
    exact .next (encoding_encInit s.cfg hat hlen hholds)
  | run hat hrun hp =>
    obtain ⟨i, hdec, hexec⟩ := exec_encoding hwide hat hrun hp
    rwa [encJob_of_at hat hdec]
  | empty hat hmsg =>
    rw [encJob_of_at hat rfl]
    exact .ite (encoding_storeEmpty hmsg)
  | done hstate _ => exact hidle (by rw [hstate]; decide)
  | failed hstate => exact hidle (by rw [hstate]; decide)

theorem encoding_run {msg : List Byte} {n : Nat} {s t : State} (hwide : s.cfg.encOutCap < 2 ^ 64)
    (hsched : s.sched = List.replicate n (.unit .enc)) (h : Encoding msg s.enc) (hrun : Host.Core.run core n s = .next t) :
    Encoding msg t.enc := by
  induction n generalizing s with
  | zero =>
    cases hrun
    exact h
  | succ n ih =>
    obtain ⟨s1, hstep, hrest⟩ := step_of_run_succ hrun
    have hpick := pickAgent_of_sched hsched
    rw [step_enc (by rw [hpick]), hpick] at hstep
    obtain ⟨e, rfl, he⟩ := encJob_encoding (s := s.setSched (.replicate n _)) hwide h s1 hstep
    exact ih (s := (s.setSched (.replicate n _)).setEnc e) hwide rfl he hrest

/-- A run of ENC that ends in DONE has made the packed file of its message. -/
theorem packedFile_of_run {msg : List Byte} {n : Nat} {s t : State} (hwide : s.cfg.encOutCap < 2 ^ 64) (hat : s.enc.at phInit)
    (hlen : s.enc.ctl.inLen.toNat = msg.length) (hholds : Holds s.enc.ibuf msg) (hsched : s.sched = List.replicate n (.unit .enc))
    (hrun : Host.Core.run core n s = .next t) (hdone : t.enc.ctl.state = .done) :
    PackedFile msg t.enc.obuf t.enc.ctl.outLen.toNat := by
  cases encoding_run hwide hsched (.start hat hlen hholds) hrun with
  | start hat => cases hdone.symm.trans hat.1
  | run hat => cases hdone.symm.trans hat.1
  | empty hat => cases hdone.symm.trans hat.1
  | done _ hfile => exact hfile
  | failed hstate => cases hdone.symm.trans hstate

end Sys2Proof.Machine

namespace Sys2Proof.Machine

/-! ## DEC's run on the packed file (rules R220 to R231) -/

/-! ### Steps of DEC alone -/

/-- `s` with the DEC `d`, whose steps are the next `k`. -/
def decAt (s : State) (k : Nat) (d : Dec) : State := (s.setSched (List.replicate k (.unit .dec))).setDec d

/-- A step of DEC, BUSY in phase `p`, that completes. -/
theorem run_decAt_succ {s : State} {k : Nat} {d x d' : Dec} {p : BitVec 4} {i : Instr} {rest : Bits} (hgrain : s.grain = .microOp)
    (hat : d.at p) (hdec : decode (.phase .dec) (natBits 4 p.toNat) = .ok (i, rest))
    (hexec : exec i (decAt s k d) = .next ((decAt s k d).setDec x)) (hx : x = d') :
    Host.Core.run core (k + 1) (decAt s (k + 1) d) = Host.Core.run core k (decAt s k d') := by
  have hpick : pickAgent (decAt s (k + 1) d) = (.unit .dec, decAt s k d) := pickAgent_of_sched rfl
  have hjob : decJob (decAt s (k + 1) d) = .run i := by
    rw [decJob_phase (s := decAt s (k + 1) d) hat.1 fun hg => by cases hgrain.symm.trans hg]
    show jobOf .dec (decode (.phase .dec) (natBits 4 d.ctl.phase.toNat)) = _
    rw [hat.2, hdec]
    rfl
  refine run_succ ?_ k
  rw [step_dec (by rw [hpick]), hpick, hjob, ← hx]
  exact hexec

/-- A DEC that is not BUSY stays as it is. -/
theorem run_decAt_idle {s : State} {d : Dec} (hn : d.ctl.state ≠ .busy) (k : Nat) :
    Host.Core.run core k (decAt s k d) = .next (decAt s 0 d) := by
  induction k with
  | zero => rfl
  | succ k ih =>
    have hpick : pickAgent (decAt s (k + 1) d) = (.unit .dec, decAt s k d) := pickAgent_of_sched rfl
    refine (run_succ ?_ k).trans ih
    rw [step_dec (by rw [hpick]), hpick, decJob_of_not_busy (s := decAt s (k + 1) d) hn]
    rfl

/-- DEC has ended in DONE with the message. -/
structure Decoded (msg : List Byte) (d : Dec) : Prop where
  done : d.ctl.state = .done
  noFault : d.ctl.errCode = .none
  outLen_eq : d.ctl.outLen.toNat = msg.length
  holds : Holds d.obuf msg

/-! ### The header -/

theorem cellBytes_of_read {u : UnitId} {ep : Nat} {m : Memory} {pos : Nat} {bs : List Byte}
    (h : ∀ k (hk : k < bs.length), Memory.read m (pos + k) = some bs[k]) : cellBytes u ep m pos bs.length = bs := by
  induction bs generalizing pos with
  | nil => rfl
  | cons b bs ih =>
    have hfirst : Memory.read m pos = some b := h 0 (Nat.zero_lt_succ _)
    rw [List.length_cons, cellBytes, cellByte, hfirst, Option.getD_some, ih fun k hk => ?_]
    rw [Nat.add_assoc, Nat.add_comm 1]
    exact h (k + 1) (Nat.succ_lt_succ hk)

theorem headerBits_of_holds {d : Dec} {o : BitVec 64} {t : BitVec 32} {p : Byte} (h : Holds d.ibuf (headerBytes o t p)) :
    headerBits d = encode (.hdr o t p) := by
  have hcells := cellBytes_of_read (u := .dec) (ep := d.epoch) (pos := 0) fun k hk => by rw [Nat.zero_add]; exact h k hk
  rw [headerBytes_length] at hcells
  rw [headerBits, hcells, bytesBits_headerBytes]

theorem spells_of_spelledIn {d : Dec} {w : Bits} (h : SpelledIn d.ibuf w) : Spells d 0 w := fun k hk => by
  obtain ⟨b, hread, hbit⟩ := h k hk
  rw [Nat.zero_add, payloadBit_of_read hread, hbit]

section Run
variable {s : State} (hgrain : s.grain = .microOp)
include hgrain

/-- D_INIT and D_HEADER: the header registers are loaded (rules R221, R222). -/
theorem run_header {d : Dec} {o : BitVec 64} {t : BitVec 32} {p : Byte} (hat : d.at phInit) (hcap : d.ctl.inLen.toNat ≤ s.cfg.decInCap)
    (hlen : 13 ≤ d.ctl.inLen.toNat) (hhead : Holds d.ibuf (headerBytes o t p)) (k : Nat) :
    Host.Core.run core (k + 2) (decAt s (k + 2) d) = Host.Core.run core k (decAt s k (loadHeader o t p (initDec d))) := by
  refine (run_decAt_succ hgrain hat rfl (exec_dInit _) (congrArg settleDec (decInit_of_fits hcap hlen))).trans ?_
  exact run_decAt_succ (d := initDec d) (p := phDHeader) hgrain ⟨hat.1, rfl⟩ rfl (exec_dHeader (hlen.trans hcap))
    (readHeader_of_headerBits (headerBits_of_holds hhead))

/-- D_FINISH ends the run (rule R229). -/
theorem run_finish {d : Dec} {msg : List Byte} (hat : d.at phDFinish) (hfault : d.ctl.errCode = .none) (horig : d.origSize.toNat = msg.length)
    (hholds : Holds d.obuf msg) (k : Nat) :
    ∃ d', Host.Core.run core (k + 1) (decAt s (k + 1) d) = .next (decAt s 0 d') ∧ Decoded msg d' :=
  ⟨finish d, (run_decAt_succ hgrain hat rfl (exec_dFinish _) rfl).trans (run_decAt_idle (fun h => by cases h) k),
    ⟨rfl, hfault, horig, hholds⟩⟩

end Run

/-! ### The walk -/

/-- DEC in D_WALK with the bytes `out` emitted and the codes of the bytes `rest` still to come; or in D_FINISH with none to come. -/
structure Walking (cfg : Config) (tree : CodeTree) (code : Byte → Bits) (out rest : List Byte) (d : Dec) : Prop where
  at_phase : d.at (if rest = [] then phDFinish else phDWalk)
  noFault : d.ctl.errCode = .none
  reps : DecReps d.node 0 tree
  codeFor : ∀ b ∈ rest, CodeFor tree b (code b)
  wr_eq : d.wr.toNat = out.length
  origSize_eq : d.origSize.toNat = (out ++ rest).length
  room : d.origSize.toNat ≤ cfg.decOutCap
  fits : windowFits cfg d.avail = true
  spelled : Spells d d.bitpos (rest.flatMap code)
  avail_ge : d.bitpos + (rest.flatMap code).length ≤ d.avail
  holds : Holds d.obuf out

theorem Holds.snoc {m m' : Memory} {bs : List Byte} {b : Byte} (h : Holds m bs) (hnew : Memory.read m' bs.length = some b)
    (hold : ∀ a, a ≠ bs.length → Memory.read m' a = Memory.read m a) : Holds m' (bs ++ [b]) := fun k hk => by
  rw [List.length_append, List.length_singleton] at hk
  rcases (Nat.lt_succ_iff.1 hk).lt_or_eq with hlt | rfl
  · rw [hold k hlt.ne, List.getElem_append_left hlt]
    exact h k hlt
  · rw [hnew, List.getElem_concat_length rfl]

/-- D_WALK over a code, whether the tree is a Leaf alone or not (rules R226, R227). -/
theorem walkSymbol_of_code {tree : CodeTree} {b : Byte} {w : Bits} {d : Dec} (hreps : DecReps d.node 0 tree) (hcode : CodeFor tree b w)
    (hbits : Spells d d.bitpos w) (havail : d.bitpos + w.length ≤ d.avail) :
    ∃ c, walkSymbol d = .ok () (emitSym b { d with cur := c, bitpos := d.bitpos + w.length }) := by
  cases hcode with
  | leaf sym x => exact ⟨0, walkSymbol_of_leaf hreps havail⟩
  | node hwalk =>
    obtain ⟨c, -, hrun⟩ := walkSymbol_of_walk hreps hwalk hbits havail
    exact ⟨c, hrun⟩

/-- One byte more. -/
theorem Walking.next {cfg : Config} {tree : CodeTree} {code : Byte → Bits} {out rest : List Byte} {b : Byte} {d : Dec}
    (h : Walking cfg tree code out (b :: rest) d) : ∃ d', walkSymbol d = .ok () d' ∧ Walking cfg tree code (out ++ [b]) rest d' := by
  obtain ⟨⟨hbusy, hphase⟩, hfault, hreps, hcode, hwr, horig, hroom, hfits, hspelled, havail, hholds⟩ := h
  rw [List.flatMap_cons] at hspelled havail
  rw [List.length_append, List.length_cons] at horig
  rw [List.length_append] at havail
  obtain ⟨hfirst, hrest⟩ := hspelled.append
  obtain ⟨hb, hcode⟩ := List.forall_mem_cons.1 hcode
  obtain ⟨c, hrun⟩ := walkSymbol_of_code hreps hb hfirst (by omega)
  have hlt : d.wr.toNat < d.origSize.toNat := by omega
  have hwr' : (d.wr + 1).toNat = out.length + 1 := by rw [toNat_succ_of_lt hlt, hwr]
  rw [emitSym_eq hlt] at hrun
  have hlast : d.wr.toNat + 1 = d.origSize.toNat ↔ rest = [] := by
    rw [← List.length_eq_zero_iff]
    omega
  refine ⟨_, hrun, ⟨hbusy, ?_⟩, hfault, hreps, hcode, by rw [List.length_append]; exact hwr', ?_, hroom, hfits, hrest, ?_, ?_⟩
  · simp only [hlast]
    split
    · rfl
    · exact hphase
  · rw [horig, List.length_append, List.length_append, List.length_singleton]
    omega
  · simp only
    omega
  · exact hholds.snoc (hwr ▸ Memory.read_write_same ..) fun a ha => Memory.read_write_other _ _ _ _ (hwr ▸ ha)

/-- D_WALK byte by byte, then D_FINISH. -/
theorem run_walk {s : State} (hgrain : s.grain = .microOp) {tree : CodeTree} {code : Byte → Bits} {out rest : List Byte} {d : Dec}
    (h : Walking s.cfg tree code out rest d) :
    ∃ d', Host.Core.run core (rest.length + 1) (decAt s (rest.length + 1) d) = .next (decAt s 0 d') ∧ Decoded (out ++ rest) d' := by
  induction rest generalizing out d with
  | nil =>
    have horig := h.origSize_eq
    rw [List.append_nil] at horig ⊢
    exact run_finish hgrain h.at_phase h.noFault horig h.holds 0
  | cons b rest ih =>
    obtain ⟨d', hrun, hnext⟩ := h.next
    have hroom : d.wr.toNat < s.cfg.decOutCap := by
      have horig := h.origSize_eq
      rw [List.length_append, ← h.wr_eq, List.length_cons] at horig
      exact (by omega : d.wr.toNat < d.origSize.toNat).trans_le h.room
    have hstep := run_decAt_succ (k := rest.length + 1) (p := phDWalk) hgrain h.at_phase rfl (exec_dWalk hroom h.fits)
      (congrArg settleDec hrun)
    obtain ⟨d'', hrest, hend⟩ := ih hnext
    rw [List.append_cons]
    exact ⟨d'', hstep.trans hrest, hend⟩

/-! ### The whole run -/

/-- DEC after D_CHECK on the file of a message. -/
structure Checked (cfg : Config) (msg : List Byte) (tree : CodeTree) (code : Byte → Bits) (d : Dec) : Prop where
  at_tree : d.at phDTree
  noFault : d.ctl.errCode = .none
  nnode_eq : d.nnode.val = 0
  bitpos_eq : d.bitpos = 0
  wr_eq : d.wr = 0
  treeBits_eq : d.treeBits.toNat = tree.ser.length
  origSize_eq : d.origSize.toNat = msg.length
  room : d.origSize.toNat ≤ cfg.decOutCap
  avail_eq : d.avail = (payload tree code msg).length
  fits : windowFits cfg d.avail = true
  spelled : Spells d 0 (payload tree code msg)

/-- D_CHECK passes the header of the file, and AVAIL is the length of the payload (rule R224). -/
theorem checkHeader_of_body {cfg : Config} {msg : List Byte} {tree : CodeTree} {code : Byte → Bits} {o : BitVec 64} {t : BitVec 32}
    {p : Byte} {d : Dec} (hbody : FileBody msg tree code o t p d.ibuf d.ctl.inLen.toNat) (hbusy : d.ctl.state = .busy)
    (hcap : d.ctl.inLen.toNat ≤ cfg.decInCap)
    (hfit : msg.length ≤ cfg.decOutCap) : ∃ d', checkHeader cfg (loadHeader o t p (initDec d)) = .ok () d' ∧ Checked cfg msg tree code d' := by
  obtain ⟨-, horig, htree, hpad, hlen, hspelled⟩ := hbody
  have hsplit := payload_length tree code msg
  have havail : 8 * (d.ctl.inLen.toNat - 13) - p.toNat = (payload tree code msg).length := by omega
  have hwindow : tree.ser.length ≤ 8 * (d.ctl.inLen.toNat - 13) - p.toNat := by omega
  refine ⟨_, checkHeader_of_fits hpad (Nat.le_of_add_left_le hlen.ge) (htree.trans_le hwindow) (horig.trans_le hfit), ?_⟩
  exact {
    at_tree := ⟨hbusy, rfl⟩
    noFault := rfl
    nnode_eq := rfl
    bitpos_eq := rfl
    wr_eq := rfl
    treeBits_eq := htree
    origSize_eq := horig
    room := horig.trans_le hfit
    avail_eq := havail
    fits := decide_eq_true (havail.trans_le (by omega))
    spelled := spells_of_spelledIn hspelled }

/-- D_TREE rebuilds the tree of the file, and the walk begins (rules R171, R187). -/
theorem run_tree {s : State} (hgrain : s.grain = .microOp) {msg : List Byte} {tree : CodeTree} {code : Byte → Bits} {d : Dec}
    (hne : msg ≠ []) (hbook : CodeBook msg tree code) (h : Checked s.cfg msg tree code d) (k : Nat) :
    ∃ d', Host.Core.run core (k + 1) (decAt s (k + 1) d) = Host.Core.run core k (decAt s k d') ∧ Walking s.cfg tree code [] msg d' := by
  obtain ⟨hat, hfault, hnnode, hpos, hwr, htree, horig, hroom, havail, hfits, hspelled⟩ := h
  obtain ⟨htreeBits, hdata⟩ := hspelled.append
  rw [payload_length] at havail
  have hwindow : windowFits s.cfg tree.ser.length = true := by
    have := of_decide_eq_true hfits
    exact decide_eq_true (by omega)
  obtain ⟨x, hexec, hx, hreps, -⟩ :=
    dTreeRebuildsTheTree (decAt s k d) tree hbook.size_le hnnode hpos htree hwindow htreeBits
  rw [hx] at hexec
  refine ⟨_, run_decAt_succ hgrain hat rfl hexec rfl, ?_⟩
  exact {
    at_phase := ⟨hat.1, (if_neg hne).symm⟩
    noFault := hfault
    reps := hreps
    codeFor := hbook.codeFor
    wr_eq := congrArg BitVec.toNat hwr
    origSize_eq := horig
    room := hroom
    fits := hfits
    spelled := by rw [Nat.zero_add] at hdata; exact hdata
    avail_ge := havail.ge
    holds := nofun }

/-- On the packed file of a message DEC's run ends in DONE with the message. An empty message takes three steps, any other its length and
five more. -/
theorem decoded_of_packedFile {s : State} (hgrain : s.grain = .microOp) {msg : List Byte} {d : Dec} (hat : d.at phInit)
    (hfile : PackedFile msg d.ibuf d.ctl.inLen.toNat) (hcap : d.ctl.inLen.toNat ≤ s.cfg.decInCap) (hfit : msg.length ≤ s.cfg.decOutCap) :
    ∃ d', Host.Core.run core (msg.length + 5) (decAt s (msg.length + 5) d) = .next (decAt s 0 d') ∧ Decoded msg d' := by
  have hlen := hfile.length_ge
  cases hfile with
  | empty hmsg hn hhead =>
    subst hmsg
    obtain ⟨d', hrun, hend⟩ := run_finish (s := s) hgrain (d := loadHeader 0 0 0 (initDec d)) (msg := []) ⟨hat.1, rfl⟩ rfl rfl nofun 2
    exact ⟨d', (run_header hgrain hat hcap hlen hhead 3).trans hrun, hend⟩
  | @message tree code o t p hne hbody hhead =>
    have ho : o ≠ 0 := fun h0 => hne (List.eq_nil_of_length_eq_zero (by rw [← hbody.origSize_eq, h0]; rfl))
    obtain ⟨d1, hcheck, hchecked⟩ := checkHeader_of_body hbody hat.1 hcap hfit
    obtain ⟨d2, htree, hwalking⟩ := run_tree hgrain hne hbody.book hchecked (msg.length + 1)
    obtain ⟨d3, hwalk, hend⟩ := run_walk hgrain hwalking
    refine ⟨d3, ?_, hend⟩
    calc Host.Core.run core (msg.length + 5) (decAt s (msg.length + 5) d)
      _ = Host.Core.run core (msg.length + 3) (decAt s (msg.length + 3) (loadHeader o t p (initDec d))) :=
        run_header hgrain hat hcap hlen hhead _
      _ = Host.Core.run core (msg.length + 2) (decAt s (msg.length + 2) d1) :=
        run_decAt_succ (d := loadHeader o t p (initDec d)) (p := phDCheck) hgrain ⟨hat.1, if_neg ho⟩ rfl (exec_dCheck _)
          (congrArg settleDec hcheck)
      _ = Host.Core.run core (msg.length + 1) (decAt s (msg.length + 1) d2) := htree
      _ = .next (decAt s 0 d3) := hwalk

/-- Settles O60: ENC's run makes a packed file of the message, a file is a file in DEC's buffer too, and DEC's run gives its message back. -/
theorem decodeOfEncodeIsTheMessage : Obligations.DecodeOfEncodeIsTheMessage := by
  intro s t s' n msg _ hwide hat hlen hholds hsched hrun hdone hcfg hgrain hat' hlen' hmoved hcap hfit hsched'
  have hfile := (packedFile_of_run hwide hat hlen hholds hsched hrun hdone).congr hmoved
  rw [← hlen'] at hfile hcap
  rw [← hcfg] at hcap hfit
  obtain ⟨d, hrun', hdecoded⟩ := decoded_of_packedFile hgrain hat' hfile hcap hfit
  have hstart : decAt s' (msg.length + 5) s'.dec = s' := by
    rw [decAt, ← hsched']
    rfl
  rw [hstart] at hrun'
  exact ⟨_, hrun', hdecoded.done, hdecoded.noFault, hdecoded.outLen_eq, hdecoded.holds⟩

end Sys2Proof.Machine

namespace Sys2Proof.Machine

/-! ## The BUSY lock-out of a port's instructions (rule R263) -/

theorem whenFree_of_busy {u : UnitId} {s : State} (hb : (s.ctl u).state = .busy) (t : Txn) (f : State → State) :
    whenFree u t s f = s.hold u t := by
  rcases whenFree_cases u t s f with ⟨_, e⟩ | ⟨hn, _⟩
  · exact e
  · exact absurd hb hn

theorem returnErr_of_busy {u : UnitId} {s : State} (hb : (s.ctl u).state = .busy) (c : ErrCode) :
    returnErr u c s = s.hold u (.csrRead 4) := whenFree_of_busy hb _ _

/-- A command or a register read at the port of a BUSY unit changes that port alone: it is held, or it is a read of STATUS. -/
theorem exec_at_busy_port {i : Instr} {u : UnitId} (hw : Window.agent i.window = .port u) {s : State} (hb : (s.ctl u).state = .busy) :
    ∃ p, exec i s = .next (s.setPort u p) := by
  cases i with
  | nop v => cases hw; exact ⟨_, congrArg _ (whenFree_of_busy hb _ _)⟩
  | start v => cases hw; exact ⟨_, congrArg _ (whenFree_of_busy hb _ _)⟩
  | clear v => cases hw; exact ⟨_, congrArg _ (whenFree_of_busy hb _ _)⟩
  | cmdReserved v b => cases hw; exact ⟨_, congrArg _ (whenFree_of_busy hb _ _)⟩
  | stIdle v => cases hw; exact ⟨_, rfl⟩
  | stBusy v => cases hw; exact ⟨_, rfl⟩
  | stDone v => cases hw; exact ⟨_, rfl⟩
  | stError v => cases hw; exact ⟨_, rfl⟩
  | errNone v => cases hw; exact ⟨_, congrArg _ (returnErr_of_busy hb _)⟩
  | hdrShort => cases hw; exact ⟨_, congrArg _ (returnErr_of_busy hb _)⟩
  | padRange => cases hw; exact ⟨_, congrArg _ (returnErr_of_busy hb _)⟩
  | treeLen => cases hw; exact ⟨_, congrArg _ (returnErr_of_busy hb _)⟩
  | treeTrunc => cases hw; exact ⟨_, congrArg _ (returnErr_of_busy hb _)⟩
  | treeNodes => cases hw; exact ⟨_, congrArg _ (returnErr_of_busy hb _)⟩
  | treeExcess => cases hw; exact ⟨_, congrArg _ (returnErr_of_busy hb _)⟩
  | dataTrunc => cases hw; exact ⟨_, congrArg _ (returnErr_of_busy hb _)⟩
  | inCap v => cases hw; exact ⟨_, congrArg _ (returnErr_of_busy hb _)⟩
  | outCap v => cases hw; exact ⟨_, congrArg _ (returnErr_of_busy hb _)⟩
  | _ => cases hw

/-! ## The entry into ERROR (rules R281, R290 to R292, R297)

An instruction that finds a unit BUSY leaves it in ERROR only through `raiseFault`, with a cause of the unit. -/

/-- If the control registers came from `c` into ERROR, they are those of the fault entry, with IN_LEN kept and a cause of the unit. -/
def EntersError (u : UnitId) (c c' : Ctl) : Prop :=
  c'.state = .error →
    c'.outLen = 0 ∧ c'.phase = phIdle ∧ c'.errCode ≠ .none ∧ c'.inLen = c.inLen ∧ (u = .enc → c'.errCode = .inCap ∨ c'.errCode = .outCap)

theorem EntersError.raise {u : UnitId} {k : ErrCode} {c c' : Ctl} (hk : k ≠ .none) (hu : u = .enc → k = .inCap ∨ k = .outCap)
    (hlen : c'.inLen = c.inLen) : EntersError u c (raiseFault k c') := fun _ => ⟨rfl, rfl, hk, hlen, hu⟩

theorem EntersError.of_busy {u : UnitId} {c c' : Ctl} (hb : c'.state = .busy) : EntersError u c c' := fun he => by
  cases hb.symm.trans he

theorem EntersError.endRun {u : UnitId} {c c' : Ctl} {n : BitVec 64} : EntersError u c (endRun n c') := nofun

/-- The last turn of a loop selects the next phase, the others stay. -/
theorem EntersError.loop {u : UnitId} {c c' : Ctl} (hb : c'.state = .busy) (p : BitVec 4) (last : Prop) [Decidable last] :
    EntersError u c (if last then gotoPhase p c' else c') := by
  split
  · exact .of_busy hb
  · exact .of_busy hb

/-! ### ENC -/

/-- A micro-operation that packs bits raises OUT_CAP or goes on with what follows them (rule R289). -/
theorem putBits_entersError {e : Enc} (cfg : Config) (w : Bits) {f : Enc → Enc} (hf : ∀ e', e'.ctl = e.ctl → EntersError .enc e.ctl (f e').ctl) :
    EntersError .enc e.ctl (settleEnc ((putBits cfg w e).bind fun _ e' => .ok () (f e'))).ctl := by
  rcases putBits_frame cfg w e with ⟨_, _, _, _, _, h⟩ | ⟨_, _, _, _, _, h⟩ <;> rw [h]
  · exact hf _ rfl
  · exact .raise (by decide) (fun _ => .inr rfl) rfl

section EncEntersError
variable {e : Enc} (cfg : Config) (hb : e.ctl.state = .busy)
include hb

theorem encInit_entersError : EntersError .enc e.ctl (settleEnc (encInit cfg e)).ctl := by
  rcases Nat.lt_or_ge cfg.encInCap e.ctl.inLen.toNat with h | h
  · rw [encInit_of_long h]
    exact .raise (by decide) (fun _ => .inl rfl) rfl
  · rw [encInit_of_fits h]
    exact .of_busy hb

theorem mergeStep_entersError {e' : Enc} (h : mergeStep cfg e = some e') : EntersError .enc e.ctl e'.ctl := by
  rcases mergeStep_cases h with ⟨-, rfl⟩ | ⟨_, _, _, _, _, _, -, -, -, rfl⟩
  · exact .of_busy hb
  · exact .of_busy hb

theorem takeRoot_entersError : EntersError .enc e.ctl (takeRoot cfg e).ctl := by
  unfold takeRoot
  split
  · exact .of_busy hb
  · exact .of_busy hb

theorem emitTree_entersError (w : Bits) : EntersError .enc e.ctl (settleEnc (emitTree cfg w e)).ctl :=
  putBits_entersError cfg w fun e' h => .of_busy (c' := gotoPhase phEData e'.ctl) (h ▸ hb)

theorem encodeByte_entersError : EntersError .enc e.ctl (settleEnc (encodeByte cfg e)).ctl :=
  putBits_entersError cfg _ fun e' h => .loop (h ▸ hb) phEFlush (e'.rd + 1 = e'.ctl.inLen)

theorem flush_entersError : EntersError .enc e.ctl (settleEnc (flush cfg e)).ctl := by
  by_cases haligned : e.nb = 0
  · rw [flush_of_aligned cfg haligned]
    exact .of_busy hb
  · rcases Nat.lt_or_ge e.wr.toNat cfg.encOutCap with hroom | hcap
    · rw [flush_of_room haligned hroom]
      exact .of_busy hb
    · rw [flush_of_full haligned hcap]
      exact .raise (by decide) (fun _ => .inr rfl) rfl

end EncEntersError

/-- ENC's instructions, whatever its PHASE holds. -/
theorem exec_enc_entersError {i : Instr} (hw : Window.agent i.window = .unit .enc) {s : State} (hb : s.enc.ctl.state = .busy) :
    SetsEnc (fun e => EntersError .enc s.enc.ctl e.ctl) s (exec i s) := by
  cases i with
  | eIdle => exact .next (e := s.enc) (.of_busy hb)
  | eInit => exact .next (encInit_entersError s.cfg hb)
  | eCount => exact .ite (.loop hb phELeaves _)
  | eLeaves =>
    simp only [exec, execELeaves]
    split
    · next e he => exact .next (.of_busy (addLeaves_ctl he ▸ hb))
    · exact .fault
  | eMerge =>
    simp only [exec, execEMerge]
    split
    · next e he => exact .next (mergeStep_entersError s.cfg hb he)
    · exact .fault
  | eRoot => exact .next (takeRoot_entersError s.cfg hb)
  | eCodegen =>
    simp only [exec, execECodegen]
    split
    · exact .next (.of_busy hb)
    · exact .fault
  | eTree =>
    simp only [exec, execETree]
    split
    · exact .next (emitTree_entersError s.cfg hb _)
    · exact .fault
  | eData => exact .ite (encodeByte_entersError s.cfg hb)
  | eFlush => exact .next (flush_entersError s.cfg hb)
  | eHeader => exact .ite .endRun
  | eEmpty => exact .ite .endRun
  | _ => cases hw

/-! ### DEC -/

theorem EntersError.raiseDec {k : ErrCode} {c c' : Ctl} (hk : k ≠ .none) (hlen : c'.inLen = c.inLen) :
    EntersError .dec c (raiseFault k c') := .raise hk nofun hlen

section DecEntersError
variable {d : Dec} (cfg : Config) (hb : d.ctl.state = .busy)
include hb

theorem decInit_entersError : EntersError .dec d.ctl (settleDec (decInit cfg d)).ctl := by
  rcases Nat.lt_or_ge cfg.decInCap d.ctl.inLen.toNat with hlong | hcap
  · rw [decInit_of_long hlong]
    exact .raiseDec (by decide) rfl
  · rcases Nat.lt_or_ge d.ctl.inLen.toNat 13 with hshort | hfits
    · rw [decInit_of_short hcap hshort]
      exact .raiseDec (by decide) rfl
    · rw [decInit_of_fits hcap hfits]
      exact .of_busy hb

theorem loadHeader_entersError (o : BitVec 64) (t : BitVec 32) (p : Byte) : EntersError .dec d.ctl (loadHeader o t p d).ctl := .of_busy hb

theorem checkHeader_entersError : EntersError .dec d.ctl (settleDec (checkHeader cfg d)).ctl := by
  simp only [checkHeader]
  split
  · exact .raiseDec (by decide) rfl
  · split
    · exact .raiseDec (by decide) rfl
    · split
      · exact .raiseDec (by decide) rfl
      · exact .of_busy hb

theorem TreeEnd.entersError {m : Micro Dec Unit} (h : TreeEnd d m) : EntersError .dec d.ctl (settleDec m).ctl := by
  cases h with
  | fault hc hreads =>
    obtain ⟨_, _, _, _, _, rfl, _⟩ := hreads
    exact .raiseDec hc rfl
  | more hreads =>
    obtain ⟨_, _, _, _, _, rfl, _⟩ := hreads
    exact .of_busy hb
  | done hreads =>
    obtain ⟨_, _, _, _, _, rfl, _⟩ := hreads
    exact .of_busy hb

theorem WalkEnd.entersError {m : Micro Dec Unit} (h : WalkEnd d m) : EntersError .dec d.ctl (settleDec m).ctl := by
  cases h with
  | fault hc hreads =>
    obtain ⟨_, _, _, _, _, rfl, _⟩ := hreads
    exact .raiseDec hc rfl
  | inside hreads =>
    obtain ⟨_, _, _, _, _, rfl, _⟩ := hreads
    exact .of_busy hb
  | emitted hreads _ sym =>
    obtain ⟨_, _, _, _, _, rfl, _⟩ := hreads
    exact .loop hb phDFinish _

end DecEntersError

theorem walkBitAt_entersError (right : Bool) {s : State} (hb : s.dec.ctl.state = .busy) :
    SetsDec (fun d => EntersError .dec s.dec.ctl d.ctl) s (walkBitAt right s) := by
  unfold walkBitAt
  split
  · split
    · next hstand => exact .next ((walkEdge_walkEnd right hstand).entersError hb)
    · exact .fault
  · exact .fault

/-- DEC's instructions, whatever its PHASE holds. -/
theorem exec_dec_entersError {i : Instr} (hw : Window.agent i.window = .unit .dec) {s : State} (hb : s.dec.ctl.state = .busy) :
    SetsDec (fun d => EntersError .dec s.dec.ctl d.ctl) s (exec i s) := by
  cases i with
  | dIdle => exact .next (d := s.dec) (.of_busy hb)
  | dInit => exact .next (decInit_entersError s.cfg hb)
  | dHeader => exact .ite (loadHeader_entersError hb _ _ _)
  | hdr o t p => exact .next (loadHeader_entersError hb o t p)
  | dCheck => exact .next (checkHeader_entersError s.cfg hb)
  | dTree => exact .ite ((deserTree_treeEnd _).entersError hb)
  | tInternal => exact .next ((tokInternal_treeEnd _).entersError hb)
  | tLeaf sym => exact .next ((tokLeaf_treeEnd _ _).entersError hb)
  | dWalk => exact .ite ((walkSymbol_walkEnd _).entersError hb)
  | wLeft => exact walkBitAt_entersError false hb
  | wRight => exact walkBitAt_entersError true hb
  | sAny x =>
    simp only [exec, execSAny]
    split
    · split
      · exact .next ((anyBit_walkEnd _ _).entersError hb)
      · exact .fault
    · exact .fault
  | dFinish => exact .next .endRun
  | _ => cases hw

/-! ### All instructions -/

/-- Whatever instruction runs, a unit it finds BUSY enters ERROR by the fault entry alone; another unit's instruction leaves it BUSY. -/
theorem exec_entersError {s t : State} {i : Instr} {u : UnitId} (h : exec i s = .next t) (hb : (s.ctl u).state = .busy) :
    EntersError u (s.ctl u) (t.ctl u) := by
  obtain ⟨hw, e, rfl, -⟩ | ⟨hw, d, rfl, -⟩ | ⟨v, hw, c, p, rfl⟩ := exec_frame h
  · cases u with
    | enc =>
      obtain ⟨e', heq, he⟩ := exec_enc_entersError hw hb _ h
      rw [heq]
      exact he
    | dec => exact .of_busy hb
  · cases u with
    | enc => exact .of_busy hb
    | dec =>
      obtain ⟨d', heq, hd⟩ := exec_dec_entersError hw hb _ h
      rw [heq]
      exact hd
  · refine .of_busy ?_
    by_cases huv : u = v
    · subst huv
      obtain ⟨q, hq⟩ := exec_at_busy_port hw hb
      rw [← Host.Outcome.next.inj (hq.symm.trans h), State.setPort_ctl]
      exact hb
    · rw [State.setPort_ctl, State.setCtl_ctl_other _ _ _ _ huv]
      exact hb

/-- Settles O51: the fault entry is the one way from BUSY into ERROR, and no instruction writes an input buffer. -/
theorem faultEntryIsPrecise : Obligations.FaultEntryIsPrecise := by
  intro s t i u h hb he
  obtain ⟨hout, hphase, hcause, hlen, henc⟩ := exec_entersError h hb he
  obtain ⟨hibufE, hibufD, -⟩ := instructionsLeaveTheInput s t i h
  have hibuf : t.ibuf u = s.ibuf u := by
    cases u
    · exact hibufE
    · exact hibufD
  exact ⟨hout, hphase, hcause, hlen, hibuf, henc⟩

end Sys2Proof.Machine

namespace Sys2Proof.Machine

/-! ## The commands (rules R256, R257, R295) -/

theorem setCtl_self (s : State) (u : UnitId) : s.setCtl u (s.ctl u) = s := by cases u <;> rfl

theorem exec_start_of_not_busy {u : UnitId} {s : State} (hn : (s.ctl u).state ≠ .busy) :
    exec (.start u) s = .next (s.setCtl u (beginRun (s.ctl u))) := congrArg _ (whenFree_of_not_busy hn _ _)

theorem exec_clear_of_not_busy {u : UnitId} {s : State} (hn : (s.ctl u).state ≠ .busy) :
    exec (.clear u) s = .next (s.setCtl u (clearOutcome (s.ctl u))) := congrArg _ (whenFree_of_not_busy hn _ _)

/-- CLEAR has nothing to clear in IDLE without a result (rule R257). -/
theorem clearOutcome_of_idle {c : Ctl} (hstate : c.state = .idle) (hout : c.outLen = 0) (herr : c.errCode = .none) : clearOutcome c = c := by
  rw [clearOutcome, ← hstate, ← hout, ← herr]

/-- Settles O4: an accepted START is `beginRun`, which writes STATE and PHASE. -/
theorem startBeginsARun : Obligations.StartBeginsARun := by
  intro u s hn
  refine ⟨_, exec_start_of_not_busy hn, ?_⟩
  simp [phInit]

/-- Settles O5: an accepted CLEAR is `clearOutcome`, which writes STATE, OUT_LEN and ERRCODE. -/
theorem clearReturnsToIdle : Obligations.ClearReturnsToIdle := by
  intro u s hn
  refine ⟨⟨_, exec_clear_of_not_busy hn, by simp⟩, fun hstate hout herr => ?_⟩
  rw [exec_clear_of_not_busy hn, clearOutcome_of_idle hstate hout herr, setCtl_self]

/-! ## What the host presents (rules R250, R265) -/

/-- Settles O12: a transaction of each listed form is not admitted, and what is not admitted is refused. -/
theorem unlistedTransactionsAreRefused : Obligations.UnlistedTransactionsAreRefused := by
  intro u t rest s ha hscript hfree hform
  have hadm : admitted s.cfg u t = false := by
    rcases hform with rfl | ⟨v, rfl | rfl | rfl⟩ | ⟨idx, hidx, rfl | ⟨v, rfl⟩⟩ | ⟨v, hv, rfl⟩ | ⟨v, hv, rfl⟩ | ⟨a, b, hcap, rfl⟩ | ⟨a, hcap, rfl⟩
    · rfl
    · simp [admitted]
    · simp [admitted]
    · simp [admitted]
    · exact decide_eq_false (by omega)
    · exact decide_eq_false (by omega)
    · exact decide_eq_false (by omega)
    · exact decide_eq_false (by omega)
    · exact decide_eq_false (Nat.not_lt.2 hcap)
    · exact decide_eq_false (Nat.not_lt.2 hcap)
  rw [step_host_txn ha hscript (.inl hfree)]
  simp [txnJob, hadm, perform]

theorem portTxn_writeInLen {v : Nat} (hv : v < 2 ^ 64) : portTxn (.writeInLen (BitVec.ofNat 64 v)) = .csrWrite 2 v := by
  rw [portTxn, BitVec.toNat_ofNat, Nat.mod_eq_of_lt hv]

/-- A transaction the host can have outstanding is a command, a read of ERRCODE or a port operation (rules R250, R265). -/
theorem admitted_cases {cfg : Config} {u : UnitId} {t : Txn} (ha : admitted cfg u t = true) (ht : t ≠ .csrRead 1) :
    (∃ v, v < 2 ^ 8 ∧ t = .csrWrite 0 v) ∨ t = .csrRead 4 ∨ ∃ op, t = portTxn op := by
  cases t with
  | csrRead idx =>
    have hidx : idx = 1 ∨ idx = 2 ∨ idx = 3 ∨ idx = 4 := of_decide_eq_true ha
    rcases hidx with rfl | rfl | rfl | rfl
    · exact absurd rfl ht
    · exact .inr (.inr ⟨.readInLen, rfl⟩)
    · exact .inr (.inr ⟨.readOutLen, rfl⟩)
    · exact .inr (.inl rfl)
  | csrWrite idx v =>
    have hidx : (idx = 0 ∧ v < 2 ^ 8) ∨ (idx = 2 ∧ v < 2 ^ 64) := of_decide_eq_true ha
    rcases hidx with ⟨rfl, hv⟩ | ⟨rfl, hv⟩
    · exact .inl ⟨v, hv, rfl⟩
    · exact .inr (.inr ⟨.writeInLen (BitVec.ofNat 64 v), (portTxn_writeInLen hv).symm⟩)
  | bufWrite addr b => exact .inr (.inr ⟨.writeBuf addr b, rfl⟩)
  | bufRead addr => exact .inr (.inr ⟨.readBuf addr, rfl⟩)

theorem txnJob_portTxn {s : State} {u : UnitId} {op : PortOp} (ha : admitted s.cfg u (portTxn op) = true) :
    txnJob s u (portTxn op) = .access u op := by
  cases op with
  | readInLen => exact if_pos ha
  | readOutLen => exact if_pos ha
  | writeInLen v => exact (if_pos ha).trans (by simp only [portTxn, BitVec.ofNat_toNat, BitVec.setWidth_eq])
  | writeBuf addr b => exact if_pos ha
  | readBuf addr => exact if_pos ha

end Sys2Proof.Machine

namespace Sys2Proof.Machine

/-! ## What a step does at a port (rules R250, R261, R263) -/

@[simp] theorem pickAgent_ctl (s : State) (u : UnitId) : (pickAgent s).2.ctl u = s.ctl u := by cases u <;> simp [State.ctl]
@[simp] theorem pickAgent_ibuf (s : State) (u : UnitId) : (pickAgent s).2.ibuf u = s.ibuf u := by cases u <;> simp [State.ibuf]
@[simp] theorem pickAgent_obuf (s : State) (u : UnitId) : (pickAgent s).2.obuf u = s.obuf u := by cases u <;> simp [State.obuf]
@[simp] theorem setScript_ctl (s : State) (l : List HostEvent) (u : UnitId) : (s.setScript l).ctl u = s.ctl u := by cases u <;> rfl
@[simp] theorem setScript_ibuf (s : State) (l : List HostEvent) (u : UnitId) : (s.setScript l).ibuf u = s.ibuf u := by cases u <;> rfl
@[simp] theorem setScript_obuf (s : State) (l : List HostEvent) (u : UnitId) : (s.setScript l).obuf u = s.obuf u := by cases u <;> rfl
@[simp] theorem setPort_ibuf (s : State) (u w : UnitId) (p : Port) : (s.setPort u p).ibuf w = s.ibuf w := by cases u <;> cases w <;> rfl
@[simp] theorem setPort_obuf (s : State) (u w : UnitId) (p : Port) : (s.setPort u p).obuf w = s.obuf w := by cases u <;> cases w <;> rfl

/-- A port whose unit is BUSY waits with what it holds. -/
theorem step_port_of_busy {s : State} {u : UnitId} {t : Txn} (ha : (pickAgent s).1 = .port u) (hheld : (s.port u).held = some t)
    (hb : (s.ctl u).state = .busy) : step s = .next (pickAgent s).2 := by
  simp [step, ha, fetch, hheld, State.isBusy, hb, perform]

/-- A port whose unit is not BUSY gives up what it holds and does it. -/
theorem step_port_of_not_busy {s : State} {u : UnitId} {t : Txn} (ha : (pickAgent s).1 = .port u) (hheld : (s.port u).held = some t)
    (hn : (s.ctl u).state ≠ .busy) :
    step s = perform (txnJob s u t) ((pickAgent s).2.setPort u { s.port u with held := none }) := by
  simp [step, ha, fetch, hheld, State.isBusy, hn, txnJob_pickAgent]

/-! ## A transaction that is not accepted (rule R263) -/

/-- A command to a BUSY unit is held, whatever it is. -/
theorem exec_decodeCmd_of_busy {u : UnitId} {s : State} {v : Nat} (hb : (s.ctl u).state = .busy) (hv : v < 2 ^ 8) :
    exec (decodeCmd u v) s = .next (s.hold u (.csrWrite 0 v)) := by
  have hreserved : (BitVec.ofNat 8 v).toNat = v := Nat.mod_eq_of_lt hv
  unfold decodeCmd
  split
  · subst v
    exact congrArg _ (whenFree_of_busy hb _ _)
  · split
    · subst v
      exact congrArg _ (whenFree_of_busy hb _ _)
    · split
      · subst v
        exact congrArg _ (whenFree_of_busy hb _ _)
      · exact (congrArg _ (whenFree_of_busy hb _ _)).trans (by rw [hreserved])

/-- The port of a BUSY unit holds every admitted transaction but a read of STATUS, and does nothing else. -/
theorem perform_txnJob_of_busy {s t : State} {u : UnitId} {x : Txn} (ht : t.ctl u = s.ctl u) (hb : (s.ctl u).state = .busy)
    (hok : CtlOk u (s.ctl u)) (ha : admitted s.cfg u x = true) (hx : x ≠ .csrRead 1) :
    perform (txnJob s u x) t = .next (t.hold u x) := by
  have hb' : (t.ctl u).state = .busy := ht ▸ hb
  rcases admitted_cases ha hx with ⟨v, hv, rfl⟩ | rfl | ⟨op, rfl⟩
  · rw [txnJob_command hv]
    exact exec_decodeCmd_of_busy hb' hv
  · obtain ⟨i, hdec, hexec⟩ := decode_errWord hok.cause
    simp only [txnJob, ha, if_true, hdec, jobOf, perform, hexec, returnErr_of_busy hb']
  · rw [txnJob_portTxn ha]
    exact congrArg _ (whenFree_of_busy hb' _ _)

/-- Settles O6: a command to a BUSY unit and an admitted transaction the host presents to it are held. -/
theorem busyUnitLocksTheHostOut : Obligations.BusyUnitLocksTheHostOut := by
  refine ⟨fun u v s hb => ?_, fun u t rest s ha hscript hfree hb hadm ht hok => ?_⟩
  · have hheld : ∀ x f, Host.Outcome.next (whenFree u x s f) =
        (.next (s.setPort u { s.port u with held := some x }) : Host.Outcome State Fault Refusal) :=
      fun x f => congrArg _ (whenFree_of_busy hb x f)
    exact ⟨hheld _ _, hheld _ _, hheld _ _, hheld _ _⟩
  · refine ⟨_, (step_host_txn ha hscript (.inl hfree)).trans (perform_txnJob_of_busy (by simp) hb hok hadm ht), ?_⟩
    simp [State.hold, setScript_port]

end Sys2Proof.Machine

namespace Sys2Proof.Machine

/-! ## The port operations that are accepted (rules R252 to R255) -/

theorem perform_txnJob_portTxn {s t : State} {u : UnitId} {op : PortOp} (ht : t.ctl u = s.ctl u) (hn : (s.ctl u).state ≠ .busy)
    (ha : admitted s.cfg u (portTxn op) = true) : perform (txnJob s u (portTxn op)) t = .next (portEffect u op t) := by
  rw [txnJob_portTxn ha]
  exact congrArg _ (whenFree_of_not_busy (by rwa [ht]) _ _)

/-- A write of IN_LEN writes IN_LEN (rule R253). -/
theorem perform_writeInLen {s t : State} {u : UnitId} {v : Nat} (ht : t.ctl u = s.ctl u) (hn : (s.ctl u).state ≠ .busy) (hv : v < 2 ^ 64) :
    perform (txnJob s u (.csrWrite 2 v)) t = .next (t.setCtl u { s.ctl u with inLen := BitVec.ofNat 64 v }) := by
  have ha : admitted s.cfg u (.csrWrite 2 v) = true := decide_eq_true (.inr ⟨rfl, hv⟩)
  rw [← portTxn_writeInLen hv] at ha ⊢
  rw [perform_txnJob_portTxn ht hn ha, portEffect, ht]

/-- A `BufWrite` stores its byte (rule R254). -/
theorem perform_bufWrite {s t : State} {u : UnitId} {addr : Nat} (ht : t.ctl u = s.ctl u) (hn : (s.ctl u).state ≠ .busy)
    (hcap : addr < inCapOf s.cfg u) (b : Byte) :
    perform (txnJob s u (.bufWrite addr b)) t = .next (t.setIbuf u (Memory.write (t.ibuf u) addr b)) :=
  perform_txnJob_portTxn (op := .writeBuf addr b) ht hn (decide_eq_true hcap)

/-- A `BufRead` sets what the port returned to a byte of the result, or to the next free byte of the port (rule R255). -/
theorem readBuf_eq {s : State} {u : UnitId} (addr : Nat) (hres : ResultOk s.cfg u (s.ctl u) (s.obuf u)) :
    ∃ b n, readBuf u addr s = s.setPort u { s.port u with rdata := some (.byte b), draw := n } ∧
      ((s.ctl u).state = .done → addr < (s.ctl u).outLen.toNat → Memory.read (s.obuf u) addr = some b) ∧
      (¬((s.ctl u).state = .done ∧ addr < (s.ctl u).outLen.toNat) → b = Config.freeByte u (s.port u).draw) := by
  by_cases hin : (s.ctl u).state = .done ∧ addr < (s.ctl u).outLen.toNat
  · obtain ⟨b, hb⟩ := Option.isSome_iff_exists.1 ((hres hin.1).2 addr hin.2)
    refine ⟨b, (s.port u).draw, ?_, fun _ _ => hb, fun hout => absurd hin hout⟩
    simp [readBuf, resultReadable, hin, hb, respond_eq]
  · refine ⟨Config.freeByte u (s.port u).draw, (s.port u).draw + 1, ?_, fun hdone hlt => absurd ⟨hdone, hlt⟩ hin, fun _ => rfl⟩
    simp [readBuf, resultReadable, hin]

/-- An accepted `BufRead` changes what the port returned and its counter alone. -/
theorem perform_bufRead {s t : State} {u : UnitId} {addr : Nat} (ht : t.ctl u = s.ctl u) (hobuf : t.obuf u = s.obuf u)
    (hcfg : t.cfg = s.cfg) (hn : (s.ctl u).state ≠ .busy) (hcap : addr < outCapOf s.cfg u) (hres : ResultOk s.cfg u (s.ctl u) (s.obuf u)) :
    ∃ b n, perform (txnJob s u (.bufRead addr)) t = .next (t.setPort u { t.port u with rdata := some (.byte b), draw := n }) ∧
      ((s.ctl u).state = .done → addr < (s.ctl u).outLen.toNat → Memory.read (s.obuf u) addr = some b) ∧
      (¬((s.ctl u).state = .done ∧ addr < (s.ctl u).outLen.toNat) → b = Config.freeByte u (t.port u).draw) := by
  rw [← ht, ← hobuf, ← hcfg] at hres
  obtain ⟨b, n, hread, hin, hout⟩ := readBuf_eq addr hres
  rw [ht, hobuf] at hin
  rw [ht] at hout
  exact ⟨b, n, (perform_txnJob_portTxn (op := .readBuf addr) ht hn (decide_eq_true hcap)).trans (congrArg _ hread), hin, hout⟩

/-- Settles O10: each write, presented by the host, is its port operation. -/
theorem hostWritesChangeOnePlace : Obligations.HostWritesChangeOnePlace := by
  intro u rest s ha hfree hn
  refine ⟨fun v hscript hv => ?_, fun addr b hscript hcap => ?_⟩
  · refine ⟨_, (step_host_txn ha hscript (.inl hfree)).trans (perform_writeInLen (by simp) hn hv), ?_⟩
    simpa using hv
  · refine ⟨_, (step_host_txn ha hscript (.inl hfree)).trans (perform_bufWrite (by simp) hn hcap b), ?_⟩
    simp only [State.setIbuf_ibuf_same, setScript_ibuf, pickAgent_ibuf]
    exact ⟨trivial, Memory.read_write_same _ _ _, fun a hne => Memory.read_write_other _ _ _ _ hne⟩

/-- Settles O11: a `BufRead`, presented by the host, is its port operation. -/
theorem bufReadReturnsTheResultByte : Obligations.BufReadReturnsTheResultByte := by
  intro u addr rest s ha hscript hfree hn hcap hres
  obtain ⟨b, n, hread, hin, hout⟩ :=
    perform_bufRead (t := (pickAgent s).2.setScript rest) (by simp) (by simp) (by simp) hn hcap hres
  refine ⟨_, b, (step_host_txn ha hscript (.inl hfree)).trans hread, ?_⟩
  simp only [State.setPort_port_same, setScript_port, pickAgent_port] at hout ⊢
  exact ⟨trivial, hfree, trivial, hin, hout⟩

/-- Settles O7: while its unit is BUSY the port waits, and then each held transaction is done by the port's step in a port that is free. -/
theorem heldCommandIsAcceptedAfterTheRun : Obligations.HeldCommandIsAcceptedAfterTheRun := by
  intro u t s ha hheld _
  refine ⟨step_port_of_busy ha hheld, fun hn => ?_⟩
  intro free
  have hstep : step s = perform (txnJob s u t) free := step_port_of_not_busy ha hheld hn
  have hctl : free.ctl u = s.ctl u := by simp [free]
  have hibuf : free.ibuf u = s.ibuf u := by simp [free]
  have hport : free.port u = { s.port u with held := none } := by simp [free]
  refine ⟨?_, ?_, ?_, ?_, ?_, ?_, ?_⟩
  · rintro v rfl hv
    rw [hstep, txnJob_command hv]
    rfl
  · rintro v rfl hv
    rw [hstep, perform_writeInLen hctl hn hv]
  · rintro addr b rfl hcap
    refine ⟨_, hstep.trans (perform_bufWrite hctl hn hcap b), ?_⟩
    rw [State.setIbuf_ibuf_same, hibuf]
    exact ⟨rfl, Memory.read_write_same _ _ _, fun a hne => Memory.read_write_other _ _ _ _ hne⟩
  · rintro rfl
    refine hstep.trans ((perform_txnJob_portTxn (op := .readInLen) hctl hn rfl).trans ?_)
    rw [portEffect, respond_eq, hport, hctl]
  · rintro rfl
    refine hstep.trans ((perform_txnJob_portTxn (op := .readOutLen) hctl hn rfl).trans ?_)
    rw [portEffect, respond_eq, hport, hctl]
  · rintro rfl hok
    rw [hstep, txnJob_csrRead hctl (.inr ⟨hn, hok, .inr (.inr rfl)⟩), respond_eq, hport]
    rfl
  · rintro addr rfl hcap hres
    obtain ⟨b, n, hread, hin, hout⟩ := perform_bufRead (t := free) hctl (by simp [free]) (by simp [free]) hn hcap hres
    refine ⟨_, b, hstep.trans hread, ?_⟩
    rw [hport] at hout ⊢
    rw [State.setPort_port_same]
    exact ⟨rfl, rfl, rfl, hin, hout⟩

/-! ## The reset event (rules R320, R321) -/

theorem step_host_reset {s : State} {rest : List HostEvent} (ha : (pickAgent s).1 = .host) (hscript : s.script = .reset :: rest) :
    step s = .next (resetUnits ((pickAgent s).2.setScript rest)) := by
  simp only [step, ha, fetch, pickAgent_script, hscript, perform]

/-- Settles O2: the host's step is `resetUnits`, which writes the units alone. -/
theorem resetEventResetsBothUnits : Obligations.ResetEventResetsBothUnits := by
  intro s rest ha hscript
  obtain ⟨l, a, hpick⟩ := pickAgent_eq s
  refine ⟨_, step_host_reset ha hscript, fun u => ?_, rfl, rfl, ?_⟩
  · rw [hpick]
    cases u <;> exact ⟨rfl, fun _ => rfl, fun _ => rfl, rfl⟩
  · rw [hpick]
    exact ⟨rfl, rfl, rfl, rfl⟩

end Sys2Proof.Machine
